-- ==== Sys2Proof/Word.lean ====
section
/-! DEFINITION. The word types of OFDM-CORE: the 32-bit command word and register, and the two field widths of a
command word (30_encoding.md R80, 10_state.md R24). -/

namespace Sys2Proof

/-- A command word or an integer register: 32 bits (00_scope.md R9, 10_state.md R24). -/
abbrev Word := BitVec 32

/-- The `imm` field of a command word: 16 bits, unsigned (30_encoding.md R82). -/
abbrev Half := BitVec 16

/-- The `op` field or the `fl` field of a command word: 8 bits (30_encoding.md R80). -/
abbrev Octet := BitVec 8

/-- A natural number as a 32-bit register value (00_scope.md R8: every integer a rule produces fits). The two
values that can fail to fit, `INFO` and `FRAME_START`, are not written through it but through `infoOf` (log 14) and
`State.writeFrameStart` (log 12); every other one is bounded by a capacity or by `FFT_SET`. -/
def Word.ofNat (n : Nat) : Word := BitVec.ofNat 32 n

end Sys2Proof
end

