-- ==== Sys2Proof/Syntax.lean ====
section
/-! DEFINITION. The ten commands of OFDM-CORE, one constructor per row of spec/opcode_table.json (30_encoding.md R81),
with the operands of R82 and R83. -/

namespace Sys2Proof

/-- A command with its operands. -/
inductive Instr where
  /-- `CFG n [, ug] [, up]` (R100): `n` the requested `fftSize`, `ug` and `up` the flags `UG` and `UP`. -/
  | cfg (n : Half) (ug up : Bool)
  /-- `ZCGEN u, n` (R121): root `u`, length `n`. -/
  | zcgen (u : Octet) (n : Half)
  /-- `PSSGEN u` (R123). -/
  | pssgen (u : Octet)
  /-- `MOD [flat]` (R130). -/
  | mod (flat : Bool)
  /-- `SYNCCP` (R153). -/
  | synccp
  /-- `SYNCPSS [time|freq]` (R162): `th` the flag `TH`. -/
  | syncpss (th : Bool)
  /-- `CFOEST` (R180). -/
  | cfoest
  /-- `CFOROT` (R183). -/
  | cforot
  /-- `CFOCORR` (R184). -/
  | cfocorr
  /-- `DEMOD [flags]` (R190): the flags `SUB`, `XS`, `EQ`, `AQ`, `PS`, `SK`, `OR` of R83. -/
  | demod (sub xs eq aq ps sk orj : Bool)
deriving DecidableEq, Repr

/-- Pseudo-command `DEMOD.REF`, `DEMOD eq, ps, sk, or` (30_encoding.md R87, 45_demodulator.md R210). -/
def Instr.demodRef : Instr := .demod false false true false true true true

/-- Pseudo-command `DEMOD.RT`, `DEMOD xs, eq, aq, ps` (30_encoding.md R87, 45_demodulator.md R212). -/
def Instr.demodRt : Instr := .demod false true true true true false false

end Sys2Proof
end

