-- ==== Sys2Proof/WellFormed.lean ====
section
/-! DEFINITION. Which commands are legal beyond what their fields' widths say (30_encoding.md R84, 45_demodulator.md
R191). -/

namespace Sys2Proof

/-- A legal command: `ZCGEN` has a length of at least 1; `DEMOD` has `AQ` only with `EQ` and `PS` only without `SUB`. Every
other combination of operands is legal (R82, R83, R191). -/
def Instr.wellFormed : Instr → Bool
  | .cfg _ _ _ => true
  | .zcgen _ n => n != 0#16
  | .pssgen _ => true
  | .mod _ => true
  | .synccp => true
  | .syncpss _ => true
  | .cfoest => true
  | .cforot => true
  | .cfocorr => true
  | .demod sub _ eq aq ps _ _ => (!aq || eq) && (!ps || !sub)

/-- `Instr.wellFormed` as a proposition. -/
abbrev Instr.WellFormed (i : Instr) : Prop := i.wellFormed = true

end Sys2Proof
end

