-- ==== Sys2Proof/Decode.lean ====
section
/-! DEFINITION. Command words: the decoder and the encoder, each written from the format of 30_encoding.md R80 to R84,
and the assembler form of R86. -/

namespace Sys2Proof

/-! ## The format `CMD` (30_encoding.md R80) -/

/-- Field `op`, bits 7:0. -/
def opField (w : Word) : Octet := w.extractLsb' 0 8

/-- Field `fl`, bits 15:8. -/
def flField (w : Word) : Octet := w.extractLsb' 8 8

/-- Field `imm`, bits 31:16. -/
def immField (w : Word) : Half := w.extractLsb' 16 16

/-- The word with the three fields given. -/
def cmdWord (op fl : Octet) (imm : Half) : Word := (imm ++ fl) ++ op

/-- The flag bits of `fl`, bit 0 (bit 8 of the word) last. -/
def flags8 (b7 b6 b5 b4 b3 b2 b1 b0 : Bool) : Octet :=
  BitVec.ofBool b7 ++ BitVec.ofBool b6 ++ BitVec.ofBool b5 ++ BitVec.ofBool b4 ++ BitVec.ofBool b3 ++ BitVec.ofBool b2 ++
    BitVec.ofBool b1 ++ BitVec.ofBool b0

/-! ## Decoding (30_encoding.md R81 to R84) -/

/-- Why a word is illegal (30_encoding.md R84). -/
inductive DecodeError where
  /-- `op` is not one of 0x01 .. 0x0A. -/
  | unknownOpcode (op : Octet)
  /-- A reserved bit of `fl` is 1. -/
  | reservedFlag
  /-- `imm` is not 0 for a command that does not use it. -/
  | unusedImm
  /-- `ZCGEN` with length 0. -/
  | zeroLength
  /-- `DEMOD` with `AQ=1` and `EQ=0`. -/
  | aqWithoutEq
  /-- `DEMOD` with `PS=1` and `SUB=1`. -/
  | psWithSub
deriving DecidableEq, Repr

/-- A command that uses no bit of `fl` above bit `k-1` and no `imm`. -/
def plainForm (k : Nat) (w : Word) (i : Instr) : Except DecodeError Instr :=
  if flField w >>> k != 0#8 then .error .reservedFlag
  else if immField w != 0#16 then .error .unusedImm
  else .ok i

/-- `CFG`: flags `UG` (bit 8), `UP` (bit 9), bits 15:10 reserved, `imm` the requested size (R82, R83). -/
def decodeCfg (w : Word) : Except DecodeError Instr :=
  if flField w >>> 2 != 0#8 then .error .reservedFlag
  else .ok (.cfg (immField w) ((flField w).getLsbD 0) ((flField w).getLsbD 1))

/-- `ZCGEN`: `fl` the root, `imm` the length, which is not 0 (R82, R83, R84). -/
def decodeZcgen (w : Word) : Except DecodeError Instr :=
  if immField w == 0#16 then .error .zeroLength else .ok (.zcgen (flField w) (immField w))

/-- `PSSGEN`: `fl` the root, `imm` unused (R82, R83). -/
def decodePssgen (w : Word) : Except DecodeError Instr :=
  if immField w != 0#16 then .error .unusedImm else .ok (.pssgen (flField w))

/-- `DEMOD`: bits 8 to 14 the seven flags, bit 15 reserved, `imm` unused, two illegal pairs (R83, R84). -/
def decodeDemod (w : Word) : Except DecodeError Instr :=
  let f := flField w
  if f.getLsbD 7 then .error .reservedFlag
  else if immField w != 0#16 then .error .unusedImm
  else if f.getLsbD 3 && !f.getLsbD 2 then .error .aqWithoutEq
  else if f.getLsbD 4 && f.getLsbD 0 then .error .psWithSub
  else .ok (.demod (f.getLsbD 0) (f.getLsbD 1) (f.getLsbD 2) (f.getLsbD 3) (f.getLsbD 4) (f.getLsbD 5) (f.getLsbD 6))

/-- The command a word stands for, or why it is illegal (30_encoding.md R81, R84). -/
def decode (w : Word) : Except DecodeError Instr :=
  match (opField w).toNat with
  | 0x01 => decodeCfg w
  | 0x02 => decodeZcgen w
  | 0x03 => decodePssgen w
  | 0x04 => plainForm 1 w (.mod ((flField w).getLsbD 0))
  | 0x05 => plainForm 0 w .synccp
  | 0x06 => plainForm 1 w (.syncpss ((flField w).getLsbD 0))
  | 0x07 => plainForm 0 w .cfoest
  | 0x08 => plainForm 0 w .cforot
  | 0x09 => plainForm 0 w .cfocorr
  | 0x0A => decodeDemod w
  | _ => .error (.unknownOpcode (opField w))

/-- The command word that the low `nbits` bits of `w` are, the bits above them 0. -/
def tableWord (nbits w : Nat) : Word := BitVec.ofNat 32 (w % 2 ^ nbits)

/-- The command the decoder reads from the `nbits` low bits of `w`; there is one command length, 32 bits (R85). -/
def decodeTableWord (nbits w : Nat) : Option Instr :=
  match decode (tableWord nbits w) with
  | .ok i => some i
  | .error _ => none

/-! ## Encoding (30_encoding.md R81 to R83) -/

/-- The word of a command. -/
def encode : Instr → Word
  | .cfg n ug up => cmdWord 0x01#8 (flags8 false false false false false false up ug) n
  | .zcgen u n => cmdWord 0x02#8 u n
  | .pssgen u => cmdWord 0x03#8 u 0#16
  | .mod flat => cmdWord 0x04#8 (flags8 false false false false false false false flat) 0#16
  | .synccp => cmdWord 0x05#8 0#8 0#16
  | .syncpss th => cmdWord 0x06#8 (flags8 false false false false false false false th) 0#16
  | .cfoest => cmdWord 0x07#8 0#8 0#16
  | .cforot => cmdWord 0x08#8 0#8 0#16
  | .cfocorr => cmdWord 0x09#8 0#8 0#16
  | .demod sub xs eq aq ps sk orj => cmdWord 0x0A#8 (flags8 false orj sk ps aq eq xs sub) 0#16

/-! ## Assembler form (30_encoding.md R86) -/

/-- The words of the flags that are set, each after its separator. -/
def flagWords (first : String) : List (Bool × String) → String
  | [] => ""
  | (true, name) :: rest => first ++ name ++ flagWords ", " rest
  | (false, _) :: rest => flagWords first rest

/-- A command as R86 writes it. -/
def Instr.text : Instr → String
  | .cfg n ug up => "CFG " ++ toString n.toNat ++ flagWords ", " [(ug, "ug"), (up, "up")]
  | .zcgen u n => "ZCGEN " ++ toString u.toNat ++ ", " ++ toString n.toNat
  | .pssgen u => "PSSGEN " ++ toString u.toNat
  | .mod flat => "MOD" ++ flagWords " " [(flat, "flat")]
  | .synccp => "SYNCCP"
  | .syncpss th => "SYNCPSS" ++ flagWords " " [(!th, "time"), (th, "freq")]
  | .cfoest => "CFOEST"
  | .cforot => "CFOROT"
  | .cfocorr => "CFOCORR"
  | .demod sub xs eq aq ps sk orj =>
    "DEMOD" ++
      flagWords " " [(sub, "donly"), (xs, "xs"), (eq, "eq"), (aq, "aq"), (ps, "ps"), (sk, "sk"), (orj, "or")]

end Sys2Proof
end

