-- ==== Sys2Proof/Machine/Num.lean ====
section
/-! DEFINITION. The numbers of OFDM-CORE: exact real and complex values (00_scope.md R7, R10), held as terms.

R7: every rule computes over exact mathematical values, and a model computes "in exact (or symbolic) arithmetic". A
`RNum` is a term; rational arithmetic is carried out at once, everything else is kept as written. `RNum.val` says which
real number a term stands for; the operations of this file and `RNum.val` agree (Laws/Num.lean). Log 1, log 3. -/

namespace Sys2Proof

/-- A real number as a term (the `R` type of 10_state.md R24). `atom k` is a real number that the outside world names:
statements hold for every value of it, and the machine's own comparisons take the value `Config.atomValue k` (log 1). -/
inductive RNum where
  | rat  (q : Rat)
  | atom (k : Nat)
  | pi
  | add  (a b : RNum)
  | neg  (a : RNum)
  | mul  (a b : RNum)
  | div  (a b : RNum)
  | sqrt (a : RNum)
  | cos  (a : RNum)
  | sin  (a : RNum)
  | arg  (x y : RNum)
deriving DecidableEq, Repr, Inhabited

/-- A complex number as the pair of its real and imaginary part (the `C` type of 10_state.md R24). -/
structure Cplx where
  re : RNum
  im : RNum
deriving DecidableEq, Repr, Inhabited

/-! ## What a term stands for -/

/-- The real number a term stands for, when the named reals have the values `ρ`. -/
noncomputable def RNum.val (ρ : Nat → ℝ) : RNum → ℝ
  | .rat q => (q : ℝ)
  | .atom k => ρ k
  | .pi => Real.pi
  | .add a b => a.val ρ + b.val ρ
  | .neg a => -a.val ρ
  | .mul a b => a.val ρ * b.val ρ
  | .div a b => a.val ρ / b.val ρ
  | .sqrt a => Real.sqrt (a.val ρ)
  | .cos a => Real.cos (a.val ρ)
  | .sin a => Real.sin (a.val ρ)
  | .arg x y => Complex.arg ⟨x.val ρ, y.val ρ⟩

/-- The complex number a pair of terms stands for. -/
noncomputable def Cplx.val (ρ : Nat → ℝ) (z : Cplx) : ℂ := ⟨z.re.val ρ, z.im.val ρ⟩

/-! ## Real arithmetic -/

/-- The rational number a term is written as, if it is one. -/
def RNum.rat? : RNum → Option Rat
  | .rat q => some q
  | _ => none

/-- A natural number. -/
def RNum.ofNat (n : Nat) : RNum := .rat n

/-- Zero. -/
def RNum.zero : RNum := .rat 0

/-- One. -/
def RNum.one : RNum := .rat 1

/-- `a + b`. -/
def RNum.plus (a b : RNum) : RNum :=
  match a.rat?, b.rat? with
  | some p, some q => .rat (p + q)
  | some p, none => if p = 0 then b else .add a b
  | none, some q => if q = 0 then a else .add a b
  | none, none => .add a b

/-- `-a`. -/
def RNum.minus (a : RNum) : RNum :=
  match a.rat? with
  | some p => .rat (-p)
  | none => .neg a

/-- `a - b`. -/
def RNum.sub (a b : RNum) : RNum := a.plus b.minus

/-- `a × b`. -/
def RNum.times (a b : RNum) : RNum :=
  match a.rat?, b.rat? with
  | some p, some q => .rat (p * q)
  | some p, none => if p = 0 then .zero else if p = 1 then b else .mul a b
  | none, some q => if q = 0 then .zero else if q = 1 then a else .mul a b
  | none, none => .mul a b

/-- `a / b`. Every rule that divides either guards the divisor against 0 or has a divisor that a valid record keeps from
being 0 (log 18). -/
def RNum.quot (a b : RNum) : RNum :=
  match a.rat?, b.rat? with
  | some p, some q => if q = 0 then .div a b else .rat (p / q)
  | some p, none => if p = 0 then .zero else .div a b
  | none, some q => if q = 1 then a else .div a b
  | none, none => .div a b

/-- The whole part of the square root of `n`, found by halving the number of bits `fuel` times. -/
def natRoot : Nat → Nat → Nat
  | 0, _ => 0
  | fuel + 1, n =>
    if n = 0 then 0
    else
      let r := 2 * natRoot fuel (n / 4)
      if (r + 1) * (r + 1) ≤ n then r + 1 else r

/-- The square root of a rational number, when it is the square of a fraction of whole numbers that `natRoot` finds. -/
def ratRoot? (q : Rat) : Option Rat :=
  let a := natRoot (q.num.toNat.log2 + 1) q.num.toNat
  let b := natRoot (q.den.log2 + 1) q.den
  let r : Rat := (a : Rat) / (b : Rat)
  if r * r = q then some r else none

/-- `sqrt a`, the non-negative square root. -/
def RNum.root (a : RNum) : RNum :=
  match a.rat? with
  | some q => match ratRoot? q with
    | some r => .rat r
    | none => .sqrt a
  | none => .sqrt a

/-- `cos a` for an angle in radians. -/
def RNum.cosine (a : RNum) : RNum := if a = .zero then .one else .cos a

/-- `sin a` for an angle in radians. -/
def RNum.sine (a : RNum) : RNum := if a = .zero then .zero else .sin a

/-- `cos (π q)`: the quarter turns are written as the numbers they are. -/
def RNum.cosPi (q : Rat) : RNum :=
  if q.den = 1 then (if q.num % 2 = 0 then .rat 1 else .rat (-1))
  else if q.den = 2 then .rat 0
  else .cos (.mul (.rat q) .pi)

/-- `sin (π q)`: the quarter turns are written as the numbers they are. -/
def RNum.sinPi (q : Rat) : RNum :=
  if q.den = 1 then .rat 0
  else if q.den = 2 then (if q.num % 4 = 1 then .rat 1 else .rat (-1))
  else .sin (.mul (.rat q) .pi)

/-- The angle of the point `(x, y)` in `(-π, π]`, and 0 for `(0, 0)` (00_scope.md R10). -/
def RNum.angle (x y : RNum) : RNum :=
  match x.rat?, y.rat? with
  | some p, some q => if q = 0 then (if 0 ≤ p then .zero else .pi) else .arg x y
  | _, _ => .arg x y

/-! ## Complex arithmetic (00_scope.md R10) -/

/-- A real number as a complex one. -/
def Cplx.ofNum (a : RNum) : Cplx := ⟨a, .zero⟩

/-- Complex zero. -/
def Cplx.zero : Cplx := ⟨.zero, .zero⟩

/-- Complex one. -/
def Cplx.one : Cplx := ⟨.one, .zero⟩

/-- `z + w`. -/
def Cplx.plus (z w : Cplx) : Cplx := ⟨z.re.plus w.re, z.im.plus w.im⟩

/-- `z × w`. -/
def Cplx.times (z w : Cplx) : Cplx :=
  ⟨(z.re.times w.re).sub (z.im.times w.im), (z.re.times w.im).plus (z.im.times w.re)⟩

/-- `a × z` for a real `a`. -/
def Cplx.scale (a : RNum) (z : Cplx) : Cplx := ⟨a.times z.re, a.times z.im⟩

/-- `conj z`, the complex conjugate. -/
def Cplx.conj (z : Cplx) : Cplx := ⟨z.re, z.im.minus⟩

/-- `|z|² = Re z² + Im z²`. -/
def Cplx.normSq (z : Cplx) : RNum := (z.re.times z.re).plus (z.im.times z.im)

/-- `|z| = sqrt (Re z² + Im z²)`. -/
def Cplx.abs (z : Cplx) : RNum := z.normSq.root

/-- `arg z`, the angle of `z` in `(-π, π]`, with `arg 0 = 0`. -/
def Cplx.arg (z : Cplx) : RNum := RNum.angle z.re z.im

/-- `exp (j·t) = cos t + j·sin t` for a real angle `t`. -/
def Cplx.cis (t : RNum) : Cplx := ⟨t.cosine, t.sine⟩

/-- `exp (j·π·q)` for a rational `q`. -/
def Cplx.cisPi (q : Rat) : Cplx := ⟨RNum.cosPi q, RNum.sinPi q⟩

/-! ## Sums and sequences -/

/-- `Σ f t` over `t = 0 .. n-1`, real. -/
def RNum.sum : Nat → (Nat → RNum) → RNum
  | 0, _ => .zero
  | n + 1, f => (RNum.sum n f).plus (f n)

/-- `Σ f t` over `t = 0 .. n-1`, complex. -/
def Cplx.sum : Nat → (Nat → Cplx) → Cplx
  | 0, _ => .zero
  | n + 1, f => (Cplx.sum n f).plus (f n)

/-- The sequence `f 0, …, f (n-1)` as a list. -/
def tabulate {α : Type} (n : Nat) (f : Nat → α) : List α := (List.range n).map f

/-- Element `i` of a complex sequence held as a list; no rule reads one past the end. -/
def Cplx.nth (l : List Cplx) (i : Nat) : Cplx := l.getD i .zero

/-- Element `i` of a real sequence held as a list; no rule reads one past the end. -/
def RNum.nth (l : List RNum) (i : Nat) : RNum := l.getD i .zero

end Sys2Proof
end

