-- ==== Sys2Proof/Config.lean ====
section
/-! DEFINITION. What an implementation of OFDM-CORE fixes (00_scope.md R6) and the free values: opaque constants where
the spec gives no value, plain definitions where it gives one. -/

namespace Sys2Proof

/-- The eight buffers (10_state.md R37). -/
inductive BufName where
  | pay | txo | rxb | scr | bnd | sym | seq | pil
deriving DecidableEq, Repr

/-- A register's value as the host writes or reads it: the types `U32` and `S32`, `R`, and `C` of 10_state.md R24. -/
inductive CsrValue where
  | word (w : Word)
  | real (a : RNum)
  | cplx (z : Cplx)
deriving DecidableEq, Repr

/-- A buffer element as the host writes or reads it (20_memory.md R60). -/
inductive ElemValue where
  | cplx (z : Cplx)
  | real (a : RNum)
  | nat (n : Nat)
deriving DecidableEq, Repr

namespace Config

/-! ## Parameters with a value (00_scope.md R6) -/

/-- `FFT_SET`: the legal values of `fftSize`. -/
def fftSet : List Nat := [64, 128, 256, 512, 1024, 2048]

/-- `GUARD_TABLE`: `fftSize` and its default `guardBandLength`, the listed values (93_implementation_defined.md U1, log 21). -/
def guardTable : List (Nat × Nat) := [(64, 27), (128, 55), (256, 75), (512, 211), (1024, 423), (2048, 847)]

/-- `SCS_HZ`: the subcarrier spacing, 15000 Hz. -/
def scsHz : RNum := .rat 15000

/-- `TH_CP_ACCEPT_RESET`. -/
def thCpAcceptReset : RNum := .rat (9 / 10)

/-- `TH_CP_FIRST_RESET`. -/
def thCpFirstReset : RNum := .rat (97 / 100)

/-- `TH_PSS_TIME_RESET`. -/
def thPssTimeReset : RNum := .rat (98 / 100)

/-- `TH_PSS_FREQ_RESET`. -/
def thPssFreqReset : RNum := .rat (95 / 100)

/-- `OUT_RADIUS_RESET`. -/
def outRadiusReset : RNum := .rat 3

/-- `OUT_LO_RESET`. -/
def outLoReset : RNum := .rat (2 / 10)

/-- `OUT_HI_RESET`. -/
def outHiReset : RNum := .rat (15 / 10)

/-! ## OPEN parameters (00_scope.md R6, 93_implementation_defined.md U18; log 4) -/

/-- The positive real numbers, each as `(numer + 1) / (denom + 1) + rest²`. -/
def positive (numer denom : Nat) (rest : RNum) : RNum :=
  .add (.rat (((numer + 1 : Nat) : Rat) / ((denom + 1 : Nat) : Rat))) (.mul rest rest)

/-- What `TX_AMPLITUDE` is made from: nothing is known of the three. -/
opaque amplitudeNumer : Nat

@[inherit_doc amplitudeNumer] opaque amplitudeDenom : Nat

@[inherit_doc amplitudeNumer] opaque amplitudeRest : RNum

/-- `TX_AMPLITUDE`: a real number greater than zero (R6), and any such number. -/
def txAmplitude : RNum := positive amplitudeNumer amplitudeDenom amplitudeRest

/-- What `PILOT_VALUE` is made from: nothing is known of the four. -/
opaque pilotNumer : Nat

@[inherit_doc pilotNumer] opaque pilotDenom : Nat

@[inherit_doc pilotNumer] opaque pilotRest : RNum

@[inherit_doc pilotNumer] opaque pilotAngle : RNum

/-- `PILOT_VALUE`: a complex number that is not zero (R6), and any such number, by its magnitude and its angle. -/
def pilotValue : Cplx :=
  let magnitude := positive pilotNumer pilotDenom pilotRest
  ⟨.mul magnitude (.cos pilotAngle), .mul magnitude (.sin pilotAngle)⟩

/-- `SYNC_ROOT`, an integer 0..255 the spec gives no value of. -/
opaque syncRoot : BitVec 8

/-- `CAP_PAY`; capacities are below 2^31 (00_scope.md R8). -/
opaque capPay : BitVec 31

/-- `CAP_TXO`. -/
opaque capTxo : BitVec 31

/-- `CAP_RXB`. -/
opaque capRxb : BitVec 31

/-- `CAP_BND`. -/
opaque capBnd : BitVec 31

/-- `CAP_SYM`. -/
opaque capSym : BitVec 31

/-- What `CAP_SEQ` exceeds 63 by: 00_scope.md R6 has `CAP_SEQ` at least 63 (and R8 below 2^31). -/
opaque capSeqExcess : Fin (2147483584 + 1)

/-- What `CAP_PIL` exceeds 204 by: 00_scope.md R6 has `CAP_PIL` at least 204 (and R8 below 2^31). -/
opaque capPilExcess : Fin (2147483443 + 1)

/-! ## Free values -/

/-- The real number that the atom `k` of a term stands for: a number of the outside world (log 1). -/
opaque atomValue : Nat → ℝ

/-- What element `i` of a complex buffer reads as when nothing has written it since the `gen`-th write of a length register
(10_state.md R41, 93_implementation_defined.md U12; log 8). -/
opaque freeCplx (gen : Nat) (b : BufName) (i : Nat) : Cplx

/-- The same for an element of `SCR` (log 8). -/
opaque freeNum (gen : Nat) (b : BufName) (i : Nat) : RNum

/-- The same for an element of `BND` or `PIL` (log 8). -/
opaque freeOffset (gen : Nat) (b : BufName) (i : Nat) : Nat

/-- The number of payload blocks of a `MOD` of `payLen > 0` symbols with a record whose data-only set is empty
(42_modulator.md R131 divides by its size; log 11). -/
opaque freeBlockCount (fftSize guardLen payLen : Nat) : Nat

/-- What `SYNCPSS` leaves in `FRAME_START` when the frame start `f` does not fit 32 signed bits (43_timing_sync.md R166,
R168; log 12). -/
opaque freeFrameStart (f : Int) : Word

/-- What a fault leaves in `INFO` when the value `n` to be recorded does not fit 32 bits (00_scope.md R8 says that every
integer fits; 60_exceptions.md R224; log 14). -/
opaque freeInfo (n : Nat) : Word

/-- What an integer register holds after a host write of a value of another kind (10_state.md R24; log 15). -/
opaque wordOf (v : CsrValue) : Word

/-- What a real register holds after a host write of a value of another kind (10_state.md R24; log 15). -/
opaque realOf (v : CsrValue) : RNum

/-- What a complex element holds after a host write of a value of another kind (20_memory.md R61; log 15). -/
opaque cplxOf (v : ElemValue) : Cplx

/-- What an integer element holds after a host write of a value of another kind (20_memory.md R61; log 15). -/
opaque offsetOf (v : ElemValue) : Nat

end Config

end Sys2Proof
end

