-- ==== Sys2Proof/Machine/State.lean ====
section
/-! DEFINITION. The state of OFDM-CORE (10_state.md R20 to R41) as plain data, the reasons a step can stop, and the state
after reset (70_reset_and_hazards.md R250, R251). -/

namespace Sys2Proof.Machine

/-- A buffer (10_state.md R37): its elements that hold a value, as (index, element) pairs with rising indices. An index
that is not listed holds no value (R41). -/
structure Buf (α : Type) where
  cells : List (Nat × α)
deriving DecidableEq, Repr

/-- The eight buffers, each an address space of its own (20_memory.md R60, 10_state.md R37). -/
structure Memory where
  /-- `PAY`: the payload-symbol stream. -/
  pay : Buf Cplx
  /-- `TXO`: the transmit time-domain frame, row-major. -/
  txo : Buf Cplx
  /-- `RXB`: the received sample buffer. -/
  rxb : Buf Cplx
  /-- `SCR`: the scores of the last timing search. -/
  scr : Buf RNum
  /-- `BND`: the boundary list. -/
  bnd : Buf Nat
  /-- `SYM`: the recovered symbol sequence. -/
  sym : Buf Cplx
  /-- `SEQ`: the last generated synchronization sequence. -/
  seq : Buf Cplx
  /-- `PIL`: the pilot carrier indices. -/
  pil : Buf Nat
deriving DecidableEq, Repr

/-- The registers of the GridParameters record (10_state.md R25, R29); with buffer `PIL` and `PILOT_VALUE` they are the
whole record. -/
structure GridRecord where
  /-- 0x04 `FFTSIZE`. -/
  fftSize : Word
  /-- 0x05 `CPLEN`. -/
  cpLen : Word
  /-- 0x06 `GUARDLEN`. -/
  guardLen : Word
  /-- 0x07 `PILOTCNT`. -/
  pilotCnt : Word
  /-- 0x08 `NDATA`. -/
  nData : Word
  /-- 0x09 `NACTIVE`. -/
  nActive : Word
  /-- 0x2A `LEN_PIL`. -/
  lenPil : Word
deriving DecidableEq, Repr

/-- The registers that are constants of the hardware (10_state.md R25, R31). -/
structure Constants where
  /-- 0x0C `PILOT_VALUE`. -/
  pilotValue : Cplx
  /-- 0x0D `TX_AMPLITUDE`. -/
  txAmplitude : RNum
  /-- 0x0E `SYNC_ROOT`. -/
  syncRoot : Word
  /-- 0x0F `SCS_HZ`. -/
  scsHz : RNum
deriving DecidableEq, Repr

/-- The thresholds of the timing search and the constants of outlier rejection (10_state.md R25, R32, R33). -/
structure Tuning where
  /-- 0x10 `TH_CP_ACCEPT`. -/
  thCpAccept : RNum
  /-- 0x11 `TH_CP_FIRST`. -/
  thCpFirst : RNum
  /-- 0x12 `TH_PSS_TIME`. -/
  thPssTime : RNum
  /-- 0x13 `TH_PSS_FREQ`. -/
  thPssFreq : RNum
  /-- 0x14 `OUT_RADIUS`. -/
  outRadius : RNum
  /-- 0x15 `OUT_LO`. -/
  outLo : RNum
  /-- 0x16 `OUT_HI`. -/
  outHi : RNum
deriving DecidableEq, Repr

/-- The length and shape registers other than `LEN_PIL` (10_state.md R25, R36). -/
structure Lengths where
  /-- 0x20 `LEN_PAY`. -/
  pay : Word
  /-- 0x21 `LEN_TXO`. -/
  txo : Word
  /-- 0x22 `TXO_ROWS`. -/
  txoRows : Word
  /-- 0x23 `TXO_COLS`. -/
  txoCols : Word
  /-- 0x24 `LEN_RXB`. -/
  rxb : Word
  /-- 0x25 `LEN_SCR`. -/
  scr : Word
  /-- 0x26 `LEN_BND`. -/
  bnd : Word
  /-- 0x27 `LEN_SYM`. -/
  sym : Word
  /-- 0x28 `SYM_COLS`. -/
  symCols : Word
  /-- 0x29 `LEN_SEQ`. -/
  seq : Word
deriving DecidableEq, Repr

/-- The capacities of the buffers, OPEN parameters of the hardware (00_scope.md R6; log 4). `SCR` has the capacity of
`RXB` (10_state.md R37). -/
structure Params where
  capPay : Nat
  capTxo : Nat
  capRxb : Nat
  capBnd : Nat
  capSym : Nat
  capSeq : Nat
  capPil : Nat
deriving DecidableEq, Repr

/-- What the host, or the outside world, does between commands (20_memory.md R61, 30_encoding.md R89,
70_reset_and_hazards.md R250). -/
inductive HostEvent where
  /-- `HostCmd(w)`: issue the command word `w`. -/
  | cmd (w : Word)
  /-- `HostReadCSR(no)`. -/
  | readCsr (no : Nat)
  /-- `HostWriteCSR(no, v)`. -/
  | writeCsr (no : Nat) (v : CsrValue)
  /-- `HostReadBuf(B, i)`. -/
  | readBuf (b : BufName) (i : Nat)
  /-- `HostWriteBuf(B, i, v)`. -/
  | writeBuf (b : BufName) (i : Nat) (v : ElemValue)
  /-- The reset input. -/
  | reset
deriving DecidableEq, Repr

/-- The whole state: the registers of 10_state.md R25, the buffers of R37, the command index of R21, and three fields of
the model's own (`params`, `host`, `gen`). -/
structure State where
  /-- 0x00 `STATUS` (R26): bit 0 `CFGV`, bit 1 `ERR`, bit 2 `DETF`. -/
  status : Word
  /-- 0x01 `CAUSE` (R27). -/
  cause : Word
  /-- 0x02 `INFO` (R27). -/
  info : Word
  /-- 0x03 `CTRL` (R28): bit 0 `CORRCPLX`. -/
  ctrl : Word
  /-- 0x04 to 0x09 and 0x2A, the GridParameters record (R29). -/
  grid : GridRecord
  /-- 0x0A `GUARD_OVR` (R30). -/
  guardOvr : Word
  /-- 0x0B `PILOT_OVR` (R30). -/
  pilotOvr : Word
  /-- 0x0C to 0x0F, the constants of the hardware (R31). -/
  consts : Constants
  /-- 0x10 to 0x16, thresholds and outlier constants (R32, R33). -/
  tuning : Tuning
  /-- 0x17 `PSS_CORR`, two's complement (R34). -/
  pssCorr : Word
  /-- 0x18 `FRAME_START`, two's complement (R34). -/
  frameStart : Word
  /-- 0x19 `CFO_PHASE` (R35). -/
  cfoPhase : RNum
  /-- 0x1A `CFO_HZ` (R35). -/
  cfoHz : RNum
  /-- 0x20 to 0x29, length and shape registers (R36). -/
  len : Lengths
  /-- The eight buffers (R37). -/
  mem : Memory
  /-- The command index (R21): advanced by 1 after every command. -/
  pc : Nat
  /-- The model's own: the capacities, which nothing writes (log 4). -/
  params : Params
  /-- The model's own: what the host will do, the next action first (log 5). -/
  host : List HostEvent
  /-- The model's own: counts the host's writes of length registers; what an element that nothing wrote holds is a function
  of it (log 8). -/
  gen : Nat
deriving DecidableEq, Repr

/-- Why a step stops with a fault. The eight faults of the spec (60_exceptions.md R220) are not here: they are taken,
and a command that raises one has a next state (R224). -/
inductive Fault where
  /-- Raised by the host event `readBuf`: the element is at or above the buffer's length register, where no element holds
  a value, and a model "should fault or refuse a read of it" (10_state.md R41), or at or above the capacity, where there is
  no element (20_memory.md R60); log 9. Safe. -/
  | noValue (b : BufName) (i : Nat)
deriving DecidableEq, Repr

/-- Why a step is refused: nothing in this model is. -/
inductive Refusal where
  /-- The instruction has no meaning yet. Raised by no arm of this model. Safe. -/
  | notModelled (mnemonic : String)
deriving DecidableEq, Repr

/-- What a step answers. -/
abbrev Outcome := Host.Outcome State Fault Refusal

/-- A buffer in which no element holds a value (10_state.md R41). -/
def Buf.empty {α : Type} : Buf α := ⟨[]⟩

/-- The capacities of this implementation (log 4). -/
def Params.ofConfig : Params where
  capPay := Config.capPay.toNat
  capTxo := Config.capTxo.toNat
  capRxb := Config.capRxb.toNat
  capBnd := Config.capBnd.toNat
  capSym := Config.capSym.toNat
  capSeq := Config.capSeqExcess.val + 63
  capPil := Config.capPilExcess.val + 204

/-- The machine right after reset (70_reset_and_hazards.md R251, 10_state.md R25 and R40), the host having nothing to do. -/
def State.reset : State where
  status := 0#32
  cause := 0#32
  info := 0#32
  ctrl := 0#32
  grid := ⟨0#32, 0#32, 0#32, 0#32, 0#32, 0#32, 0#32⟩
  guardOvr := 0#32
  pilotOvr := 0#32
  consts := ⟨Config.pilotValue, Config.txAmplitude, Config.syncRoot.setWidth 32, Config.scsHz⟩
  tuning := ⟨Config.thCpAcceptReset, Config.thCpFirstReset, Config.thPssTimeReset, Config.thPssFreqReset,
    Config.outRadiusReset, Config.outLoReset, Config.outHiReset⟩
  pssCorr := 0#32
  frameStart := 0#32
  cfoPhase := .zero
  cfoHz := .zero
  len := ⟨0#32, 0#32, 0#32, 0#32, 0#32, 0#32, 0#32, 0#32, 0#32, 0#32⟩
  mem := ⟨.empty, .empty, .empty, .empty, .empty, .empty, .empty, .empty⟩
  pc := 0
  params := .ofConfig
  host := []
  gen := 0

end Sys2Proof.Machine
end

