-- ==== Sys2Proof/Machine/Flags.lean ====
section
/-! DEFINITION. The three flags of `STATUS` and the one of `CTRL` (10_state.md R23, R26, R28): reading and writing
them. There are no arithmetic condition codes (R23). -/

namespace Sys2Proof.Machine

/-- `STATUS.CFGV`: a valid GridParameters record exists. -/
def State.cfgv (s : State) : Bool := s.status.getLsbD 0

/-- `STATUS.ERR`: a fault has been recorded since reset. -/
def State.err (s : State) : Bool := s.status.getLsbD 1

/-- `STATUS.DETF`: the most recent timing search found no boundary. -/
def State.detf (s : State) : Bool := s.status.getLsbD 2

/-- `CTRL.CORRCPLX`: the `complexMode` of the timing scores. -/
def State.corrCplx (s : State) : Bool := s.ctrl.getLsbD 0

/-- `STATUS` with `CFGV` set. -/
def setCfgv (status : Word) : Word := status ||| 1#32

/-- `STATUS` with `ERR` set. -/
def setErr (status : Word) : Word := status ||| 2#32

/-- `STATUS` with `DETF` written. -/
def writeDetf (status : Word) (b : Bool) : Word := if b then status ||| 4#32 else status &&& 0xFFFFFFFB#32

/-- `CTRL` as a host write leaves it: the reserved bits 31:1 stay 0 (R28). -/
def ctrlStored (w : Word) : Word := w &&& 1#32

end Sys2Proof.Machine
end

