-- ==== Sys2Proof/Machine/Enclose.lean ====
section
/-! DEFINITION. Rational bounds of a term, from which most comparisons of two real values are computed (00_scope.md R7).
Every bound is correct (Laws/Enclose.lean); how narrow it is decides only how often the comparison is computed (log 2). -/

namespace Sys2Proof

/-- The closed interval from `lo` to `hi`. -/
structure Span where
  lo : Rat
  hi : Rat
deriving DecidableEq, Repr

/-- The grid to which bounds are rounded. -/
def gridScale : Rat := 2 ^ 64

/-- The interval rounded outwards to the grid. -/
def Span.round (i : Span) : Span := ⟨⌊i.lo * gridScale⌋ / gridScale, ⌈i.hi * gridScale⌉ / gridScale⟩

/-- Bounds of a sum. -/
def Span.add (i j : Span) : Span := ⟨i.lo + j.lo, i.hi + j.hi⟩

/-- Bounds of a negated number. -/
def Span.neg (i : Span) : Span := ⟨-i.hi, -i.lo⟩

/-- Bounds of a product. -/
def Span.mul (i j : Span) : Span :=
  Span.round
    ⟨min (min (i.lo * j.lo) (i.lo * j.hi)) (min (i.hi * j.lo) (i.hi * j.hi)),
      max (max (i.lo * j.lo) (i.lo * j.hi)) (max (i.hi * j.lo) (i.hi * j.hi))⟩

/-- Bounds of a reciprocal, where the number is known not to be 0. -/
def Span.inv (i : Span) : Option Span :=
  if 0 < i.lo ∨ i.hi < 0 then some (Span.round ⟨1 / i.hi, 1 / i.lo⟩) else none

/-- A rational number not far below the square root of `q`. -/
def rootBelow (q : Rat) : Rat :=
  let n := ⌊q * gridScale * gridScale⌋.toNat
  (natRoot (n.log2 + 1) n : Rat) / gridScale

/-- A lower bound of the square root of numbers from `q` on. -/
def lowRoot (q : Rat) : Rat :=
  let r := rootBelow q
  if 0 ≤ r ∧ r * r ≤ q then r else 0

/-- An upper bound of the square root of numbers up to `q`. -/
def highRoot (q : Rat) : Rat :=
  let r := rootBelow q + 2 / gridScale
  if 0 ≤ r ∧ q ≤ r * r then r else max 1 q

/-- Bounds of a square root. -/
def Span.root (i : Span) : Span := ⟨lowRoot i.lo, highRoot i.hi⟩

/-- The interval widened by `r` on both sides. -/
def Span.pad (i : Span) (r : Rat) : Span := ⟨i.lo - r, i.hi + r⟩

/-- `Σ (j·x)^k / k!` over `k < n`, and the term `(j·x)^n / n!`, each as real and imaginary part. -/
def cisSeries (x : Rat) : Nat → (Rat × Rat) × (Rat × Rat)
  | 0 => ((0, 0), (1, 0))
  | n + 1 =>
    let p := cisSeries x n
    ((p.1.1 + p.2.1, p.1.2 + p.2.2), (-(p.2.2 * x) / (n + 1), p.2.1 * x / (n + 1)))

/-- Bounds of `cos x` and `sin x` for a small `x`, from 16 terms. -/
def cisSmall (x : Rat) : Span × Span :=
  if |x| ≤ 1 then
    let s := (cisSeries x 16).1
    let e := |x| ^ 16 * (17 / (20922789888000 * 16))
    (Span.round (Span.pad ⟨s.1, s.1⟩ e), Span.round (Span.pad ⟨s.2, s.2⟩ e))
  else (⟨-1, 1⟩, ⟨-1, 1⟩)

/-- Bounds of `cos x` and `sin x` from those of `x / 2^m`. -/
def cisHalved : Nat → Rat → Span × Span
  | 0, x => cisSmall x
  | m + 1, x =>
    let p := cisHalved m (x / 2)
    let q := p.1.mul p.2
    ((p.1.mul p.1).add (p.2.mul p.2).neg, q.add q)

/-- Bounds of `cos x` and `sin x` for every `x` of an interval. -/
def cisSpan (i : Span) : Span × Span :=
  let x := (i.lo + i.hi) / 2
  let p := cisHalved (⌈|x|⌉.toNat.log2 + 2) x
  (p.1.pad ((i.hi - i.lo) / 2), p.2.pad ((i.hi - i.lo) / 2))

/-- Bounds of π (its first twenty decimals). -/
def piSpan : Span := ⟨314159265358979323846 / 10 ^ 20, 314159265358979323847 / 10 ^ 20⟩

/-- Bounds of the point `(x, y)` turned back by the angle `t`. -/
def turnBack (x y : Span) (t : Rat) : Span × Span :=
  let p := cisSpan ⟨t, t⟩
  ((x.mul p.1).add (y.mul p.2), (y.mul p.1).add (x.mul p.2).neg)

/-- An angle that the angle of `(x, y)` is looked for near. -/
def angleGuess (x y : Span) : Nat → Rat
  | 0 => if |y.lo| ≤ x.lo then 0 else if 0 ≤ x.lo + y.lo ∨ 0 < y.lo then 2 else -2
  | n + 1 =>
    let t := angleGuess x y n
    let w := turnBack x y t
    if 0 < w.1.lo then (Span.round ⟨t + w.2.lo / w.1.lo, 0⟩).lo else if 0 < w.2.lo then t + 1 else t - 1

/-- Bounds of the angle of `(x, y)` in `(-π, π]`. -/
def angleSpan (x y : Span) : Span :=
  let t := angleGuess x y 8
  let w := turnBack x y t
  let m := max |w.2.lo| |w.2.hi| / w.1.lo
  if 0 < w.1.lo ∧ t + m < piSpan.lo ∧ -piSpan.lo < t - m then ⟨t - m, t + m⟩ else ⟨-4, 4⟩

/-- Bounds of the number that a term stands for, where the term has them. -/
def RNum.span : RNum → Option Span
  | .rat q => some ⟨q, q⟩
  | .atom _ => none
  | .pi => some piSpan
  | .add a b => match a.span, b.span with
    | some i, some j => some (i.add j)
    | _, _ => none
  | .neg a => a.span.map Span.neg
  | .mul a b => match a.span, b.span with
    | some i, some j => some (i.mul j)
    | _, _ => none
  | .div a b => match a.span, b.span with
    | some i, some j => j.inv.map i.mul
    | _, _ => none
  | .sqrt a => a.span.map Span.root
  | .cos a => match a.span with
    | some i => some (cisSpan i).1
    | none => some ⟨-1, 1⟩
  | .sin a => match a.span with
    | some i => some (cisSpan i).2
    | none => some ⟨-1, 1⟩
  | .arg x y => match x.span, y.span with
    | some i, some j => some (angleSpan i j)
    | _, _ => some ⟨-4, 4⟩

/-- Whether `a < b`, where their bounds say so. -/
def RNum.ltBounds (a b : RNum) : Option Bool :=
  if a = b then some false
  else match a.span, b.span with
    | some i, some j => if i.hi < j.lo then some true else if j.hi ≤ i.lo then some false else none
    | _, _ => none

end Sys2Proof
end

