-- ==== Sys2Proof/Machine/Order.lean ====
section
/-! DEFINITION. Comparisons of real values (00_scope.md R7, R10), maxima and positions of maxima.

R7: comparisons are "exact comparisons of the mathematical values". The order of the real numbers is not computable, so
`RNum.lt` is computed where the two terms are rational or their bounds decide, and is the order of the real numbers itself
elsewhere, which only a proof can evaluate (log 2). In every case it is exact. Every rule that compares takes the comparison
`lt` as an argument; the commands pass `RNum.lt`. -/

namespace Sys2Proof

/-- Whether `a < b`, where that is computed: for rational numbers, and where the bounds of the terms decide it. -/
def RNum.quickLt (a b : RNum) : Option Bool :=
  match a.rat?, b.rat? with
  | some p, some q => some (decide (p < q))
  | _, _ => a.ltBounds b

open Classical in
/-- `a < b`, the exact comparison of the values of the two terms (00_scope.md R7). -/
noncomputable def RNum.lt (a b : RNum) : Bool :=
  match a.quickLt b with
  | some r => r
  | none => decide (a.val Config.atomValue < b.val Config.atomValue)

/-- `a = 0`: neither below nor above 0. -/
def RNum.isZero (lt : RNum → RNum → Bool) (a : RNum) : Bool := !lt a .zero && !lt .zero a

/-- The largest of `best` (found at index `pos`) and the values from index `i` on, and the least index it is found at. -/
def peakFrom (lt : RNum → RNum → Bool) : RNum → Nat → Nat → List RNum → RNum × Nat
  | best, pos, _, [] => (best, pos)
  | best, pos, i, a :: l => if lt best a then peakFrom lt a i (i + 1) l else peakFrom lt best pos (i + 1) l

/-- The maximum of a sequence and the least index at which it is attained (`argmax_first`, 00_scope.md R10). -/
def peak (lt : RNum → RNum → Bool) : List RNum → RNum × Nat
  | [] => (.zero, 0)
  | a :: l => peakFrom lt a 0 1 l

/-- `max` of a sequence. -/
def maxOf (lt : RNum → RNum → Bool) (l : List RNum) : RNum := (peak lt l).1

/-- `argmax_first` of a sequence. -/
def argmaxFirst (lt : RNum → RNum → Bool) (l : List RNum) : Nat := (peak lt l).2

/-- "Normalize all scores by the global maximum", all 0 when the maximum is 0 (43_timing_sync.md R156, R164). -/
def normalise (lt : RNum → RNum → Bool) (raw : List RNum) : List RNum :=
  let mx := maxOf lt raw
  raw.map fun a => if mx.isZero lt then .zero else a.quot mx

/-- Every score is 0, which is so exactly when the maximum of the raw scores was 0 (43_timing_sync.md R156, R164). -/
def allZero (lt : RNum → RNum → Bool) (score : List RNum) : Bool := score.all fun a => a.isZero lt

end Sys2Proof
end

