-- ==== Sys2Proof/Machine/Ops.lean ====
section
/-! DEFINITION. The named operations over buffers and registers: reading and writing a buffer, what each command
writes, taking a fault (60_exceptions.md R224) and the one return from it, reset (R230, 70_reset_and_hazards.md R250). -/

namespace Sys2Proof.Machine

/-! ## Buffers (10_state.md R37, R41; 20_memory.md R60) -/

/-- The element at index `i` of a list of cells, if it holds a value. -/
def cellAt {α : Type} : List (Nat × α) → Nat → Option α
  | [], _ => none
  | (k, v) :: rest, i => if k = i then some v else cellAt rest i

/-- A list of cells in rising order with element `i` made `v`. -/
def cellPut {α : Type} (i : Nat) (v : α) : List (Nat × α) → List (Nat × α)
  | [] => [(i, v)]
  | (k, w) :: rest =>
    if i < k then (i, v) :: (k, w) :: rest
    else if i = k then (i, v) :: rest
    else (k, w) :: cellPut i v rest

/-- The cells of a sequence whose first element has index `k`. -/
def cellsFrom {α : Type} : Nat → List α → List (Nat × α)
  | _, [] => []
  | k, v :: rest => (k, v) :: cellsFrom (k + 1) rest

/-- `BufRead(BUF, i)`: the element, if it holds a value (00_scope.md R9). -/
def Buf.get? {α : Type} (b : Buf α) (i : Nat) : Option α := cellAt b.cells i

/-- `BufWrite(BUF, i, v)` (00_scope.md R9). -/
def Buf.put {α : Type} (b : Buf α) (i : Nat) (v : α) : Buf α := ⟨cellPut i v b.cells⟩

/-- The buffer that holds exactly the given sequence; every element beyond it holds no value (10_state.md R41). -/
def Buf.ofList {α : Type} (l : List α) : Buf α := ⟨cellsFrom 0 l⟩

/-- The buffer with the elements at or above `n` made unspecified (10_state.md R41; log 10). -/
def Buf.below {α : Type} (b : Buf α) (n : Nat) : Buf α := ⟨b.cells.filter fun c => decide (c.1 < n)⟩

/-- The one form a buffer has: indices strictly rising and below the capacity. -/
abbrev Buf.Wf {α : Type} (cap : Nat) (b : Buf α) : Prop :=
  (b.cells.map Prod.fst).Pairwise (· < ·) ∧ ∀ c ∈ b.cells, c.1 < cap

/-- Every buffer is in its form. -/
abbrev Memory.Wf (p : Params) (m : Memory) : Prop :=
  m.pay.Wf p.capPay ∧ m.txo.Wf p.capTxo ∧ m.rxb.Wf p.capRxb ∧ m.scr.Wf p.capRxb ∧ m.bnd.Wf p.capBnd ∧
    m.sym.Wf p.capSym ∧ m.seq.Wf p.capSeq ∧ m.pil.Wf p.capPil

/-! ## Faults (60_exceptions.md R220, R224) -/

/-- The eight causes of a fault. -/
inductive Cause where
  | configError
  | pilotGeometry
  | notConfigured
  | illegalCommand
  | bufferTooShort
  | bufferRange
  | bufferCapacity
  | divideByZero
deriving DecidableEq, Repr

/-- The cause codes of R220. -/
def Cause.code : Cause → Word
  | .configError => 1#32
  | .pilotGeometry => 2#32
  | .notConfigured => 3#32
  | .illegalCommand => 4#32
  | .bufferTooShort => 5#32
  | .bufferRange => 6#32
  | .bufferCapacity => 7#32
  | .divideByZero => 8#32

/-- Fault entry, `raise F(info)` (R224): `STATUS.ERR <- 1`, `CAUSE` and `INFO` written, nothing else. -/
def State.raise (s : State) (c : Cause) (info : Word) : State :=
  { s with status := setErr s.status, cause := c.code, info := info }

/-- A number as `INFO` records it (R224, `zext_32`); a free value where it does not fit, which 00_scope.md R8 says does not
occur (log 14). -/
def infoOf (n : Nat) : Word := if n < 4294967296 then Word.ofNat n else Config.freeInfo n

/-- A command that ends by raising a fault. -/
def State.fail (s : State) (c : Cause) (info : Word) : Outcome := .next (s.raise c info)

/-- A command that needs a GridParameters record: `NotConfigured`, with the command word as information, when there is
none (R220, R226 (3)), else what the command goes on to do. -/
@[inline] def State.whenConfigured (s : State) (i : Instr) (go : Outcome) : Outcome :=
  if s.cfgv then go else s.fail .notConfigured (encode i)

/-- Reset (70_reset_and_hazards.md R250), the only way back from a fault (60_exceptions.md R230): every register at its
reset value, every buffer empty. The hardware's constants and capacities are what they were (10_state.md R31), and the
host's list, its index and the count of length writes are not the block's (log 7, log 19). -/
def State.hostReset (s : State) : State :=
  { State.reset with consts := s.consts, params := s.params, host := s.host, pc := s.pc, gen := s.gen }

/-! ## What the commands write -/

/-- A successful `CFG` (40_grid_parameters.md R112). -/
def State.writeGrid (s : State) (n g pc : Nat) (pilots : List Nat) : State :=
  let lo := g / 2
  let hi := n - g / 2
  { s with
    status := setCfgv s.status
    grid :=
      { fftSize := Word.ofNat n, cpLen := Word.ofNat (n / 4), guardLen := Word.ofNat g, pilotCnt := Word.ofNat pc,
        nData := Word.ofNat (hi - lo - pc), nActive := Word.ofNat (hi - lo), lenPil := Word.ofNat pc }
    mem := { s.mem with pil := .ofList pilots }
    pssCorr := Word.ofNat (n / 4) }

/-- `ZCGEN` and `PSSGEN`: the sequence in `SEQ` (41_sync_sequence.md R121, R123). -/
def State.writeSeq (s : State) (l : List Cplx) : State :=
  { s with mem := { s.mem with seq := .ofList l }, len := { s.len with seq := Word.ofNat l.length } }

/-- `MOD`: the frame in `TXO` and its shape (42_modulator.md R140). -/
def State.writeTxo (s : State) (l : List Cplx) (rows cols : Nat) : State :=
  { s with
    mem := { s.mem with txo := .ofList l }
    len := { s.len with txo := Word.ofNat l.length, txoRows := Word.ofNat rows, txoCols := Word.ofNat cols } }

/-- The timing commands: scores, boundary list and `DETF` (43_timing_sync.md R160, R168). -/
def State.writeTiming (s : State) (scores : List RNum) (bounds : List Nat) : State :=
  { s with
    status := writeDetf s.status bounds.isEmpty
    mem := { s.mem with scr := .ofList scores, bnd := .ofList bounds }
    len := { s.len with scr := Word.ofNat scores.length, bnd := Word.ofNat bounds.length } }

/-- `SYNCPSS`: the frame start (43_timing_sync.md R168); a free value where `f` does not fit the register (log 12). -/
def State.writeFrameStart (s : State) (f : Int) : State :=
  { s with
    frameStart :=
      if -2147483648 ≤ f ∧ f < 2147483648 then BitVec.ofInt 32 f else Config.freeFrameStart f }

/-- `CFOEST`: the phase and the frequency offset (44_cfo.md R181, R182). -/
def State.writeCfo (s : State) (phase hz : RNum) : State := { s with cfoPhase := phase, cfoHz := hz }

/-- `CFOROT`: the de-rotated samples, in place (44_cfo.md R183). -/
def State.writeRxb (s : State) (l : List Cplx) : State := { s with mem := { s.mem with rxb := .ofList l } }

/-- `DEMOD`: the recovered sequence and its row width (45_demodulator.md R207). -/
def State.writeSym (s : State) (l : List Cplx) (cols : Nat) : State :=
  { s with
    mem := { s.mem with sym := .ofList l }
    len := { s.len with sym := Word.ofNat l.length, symCols := Word.ofNat cols } }

end Sys2Proof.Machine
end

