-- ==== Sys2Proof/Machine/Operands.lean ====
section
/-! DEFINITION. The operand forms of the commands: the named sizes (00_scope.md R11), the derived index sets
(40_grid_parameters.md R108, R109) and the addressing forms of the buffers (20_memory.md R68). -/

namespace Sys2Proof.Machine

/-! ## Named sizes (00_scope.md R11) -/

/-- `N = csr[FFTSIZE]`. -/
def State.sizeN (s : State) : Nat := s.grid.fftSize.toNat

/-- `CP = csr[CPLEN]`. -/
def State.sizeCP (s : State) : Nat := s.grid.cpLen.toNat

/-- `PC = csr[PILOTCNT]`. -/
def State.sizePC (s : State) : Nat := s.grid.pilotCnt.toNat

/-- `LO = G div 2` with `G = csr[GUARDLEN]`. -/
def State.edgeLo (s : State) : Nat := s.grid.guardLen.toNat / 2

/-- `HI = N - (G div 2)`. -/
def State.edgeHi (s : State) : Nat := s.sizeN - s.grid.guardLen.toNat / 2

/-- `C = N div 2`, the center index. -/
def State.center (s : State) : Nat := s.sizeN / 2

/-- `P = N + CP`, one symbol period in samples. -/
def State.period (s : State) : Nat := s.sizeN + s.sizeCP

/-- `ND = csr[NDATA]`. -/
def State.sizeND (s : State) : Nat := s.grid.nData.toNat

/-- `FS = N × SCS_HZ`, the nominal sample rate. -/
def State.sampleRate (s : State) : RNum := (RNum.ofNat s.sizeN).times s.consts.scsHz

/-- `U = SYNC_ROOT`. -/
def State.root (s : State) : Nat := s.consts.syncRoot.toNat

/-- `L = csr[LEN_PAY]`. -/
def State.payLen (s : State) : Nat := s.len.pay.toNat

/-- `M = csr[LEN_RXB]`. -/
def State.rxLen (s : State) : Nat := s.len.rxb.toNat

/-- `K = csr[LEN_BND]`. -/
def State.bndLen (s : State) : Nat := s.len.bnd.toNat

/-! ## Elements a command reads; one that nothing wrote is a free value (10_state.md R41, log 8) -/

/-- `PAY[i]`. -/
def State.payAt (s : State) (i : Nat) : Cplx := (s.mem.pay.get? i).getD (Config.freeCplx s.gen .pay i)

/-- `RXB[i]`. -/
def State.rxbAt (s : State) (i : Nat) : Cplx := (s.mem.rxb.get? i).getD (Config.freeCplx s.gen .rxb i)

/-- `BND[i]`. -/
def State.bndAt (s : State) (i : Nat) : Nat := (s.mem.bnd.get? i).getD (Config.freeOffset s.gen .bnd i)

/-- `PIL[i]`. -/
def State.pilAt (s : State) (i : Nat) : Nat := (s.mem.pil.get? i).getD (Config.freeOffset s.gen .pil i)

/-! ## Index sets (40_grid_parameters.md R108, R109) -/

/-- `A`, the data+pilots set: `LO .. HI` without the center. -/
def activeSet (lo hi c : Nat) : List Nat := (List.range (hi + 1)).filter fun k => decide (lo ≤ k) && decide (k ≠ c)

/-- `D`, the data-only set: `A` without the pilots. -/
def dataSet (lo hi c : Nat) (pilots : List Nat) : List Nat :=
  (activeSet lo hi c).filter fun k => !pilots.contains k

/-- `posA(k) = k - LO - [k > C]`, the row position of a member of `A`. -/
def rowPos (lo c k : Nat) : Nat := k - lo - (if c < k then 1 else 0)

/-- `PIL[0 .. PC-1]`. -/
def State.pilots (s : State) : List Nat := tabulate s.sizePC s.pilAt

/-- `A` of the record in force. -/
def State.setA (s : State) : List Nat := activeSet s.edgeLo s.edgeHi s.center

/-- `D` of the record in force. -/
def State.setD (s : State) : List Nat := dataSet s.edgeLo s.edgeHi s.center s.pilots

/-- `q[i] = posA(PIL[i])`. -/
def State.pilotPos (s : State) : List Nat := s.pilots.map (rowPos s.edgeLo s.center)

/-! ## Addressing forms (20_memory.md R68) -/

/-- (a) Linear: elements `0 .. n-1`. -/
def linear {α : Type} (x : Nat → α) (n : Nat) : List α := tabulate n x

/-- (b) Window: element `t` of `RXB[o .. o+n-1]`. -/
def window (x : Nat → Cplx) (o : Nat) : Nat → Cplx := fun t => x (o + t)

/-- (c) Circular window: element `t` of `RXB[(o + t) mod M]`. -/
def circular (x : Nat → Cplx) (m o : Nat) : Nat → Cplx := fun t => x ((o + t) % m)

/-- (d) Row-major: the row and the column of element `j` of a matrix with `cols` columns. -/
def rowCol (cols j : Nat) : Nat × Nat := (j / cols, j % cols)

end Sys2Proof.Machine
end

