-- ==== Sys2Proof/Machine/Transform.lean ====
section
/-! DEFINITION. The transform primitives `SHIFT`, `IDFT` and `DFT` (42_modulator.md R135, R136, R137) over sequences
given as functions of the index. -/

namespace Sys2Proof

/-- `SHIFT(X)[m] = X[(m + N div 2) mod N]` (R135). -/
def shift (n : Nat) (x : Nat → Cplx) (m : Nat) : Cplx := x ((m + n / 2) % n)

/-- The rational `2·k·m / N`, the angle `2π·k·m / N` in units of π. -/
def turn (n k m : Nat) : Rat := ((2 * (k * m) : Nat) : Rat) / (n : Rat)

/-- `IDFT(Z)[m] = (1/N) × Σ Z[k] × exp(+j·2π·k·m / N)` (R136). -/
def idft (n : Nat) (z : Nat → Cplx) (m : Nat) : Cplx :=
  Cplx.scale (.rat (1 / (n : Rat))) (Cplx.sum n fun k => (z k).times (Cplx.cisPi (turn n k m)))

/-- `DFT(x)[k] = Σ x[m] × exp(-j·2π·k·m / N)` (R137). -/
def dft (n : Nat) (x : Nat → Cplx) (k : Nat) : Cplx :=
  Cplx.sum n fun m => (x m).times (Cplx.cisPi (-turn n k m))

end Sys2Proof
end

