-- ==== Sys2Proof/Machine/Sequence.lean ====
section
/-! DEFINITION. The Synchronization Sequence Generator: the commands `ZCGEN` and `PSSGEN`, and the two forms in which
the other components use the sequence, `SYNCROW` and `SYNCREF` (41_sync_sequence.md). -/

namespace Sys2Proof.Machine

/-- `ZC(u, N)[n] = exp(-j·π·u·n·(n+1) / N)` (R120). -/
def zc (u len n : Nat) : Cplx := Cplx.cisPi (-(((u * n * (n + 1) : Nat) : Rat) / (len : Rat)))

/-- `PSS62(u)[n]`: `exp(-j·π·u·n·(n+1) / 63)` for `n = 0 .. 30`, `exp(-j·π·u·(n+1)·(n+2) / 63)` for `n = 31 .. 61`
(R122). -/
def pss62 (u n : Nat) : Cplx :=
  if n ≤ 30 then Cplx.cisPi (-(((u * n * (n + 1) : Nat) : Rat) / 63))
  else Cplx.cisPi (-(((u * (n + 1) * (n + 2) : Nat) : Rat) / 63))

/-- `SYNCROW[k]`: samples 0..30 on the 31 indices below the center `c`, samples 31..61 on the 31 above it, zero elsewhere
(R124). -/
def syncRow (u c k : Nat) : Cplx :=
  if c ≤ k + 31 ∧ k < c then pss62 u (k + 31 - c)
  else if c < k ∧ k ≤ c + 31 then pss62 u (31 + (k - (c + 1)))
  else .zero

/-- `SYNCREF = IDFT(SHIFT(SYNCROW))` (R125). -/
def syncRef (u n t : Nat) : Cplx := idft n (shift n (syncRow u (n / 2))) t

/-- `SYNCREF` of the record in force, as a list of `N` samples. -/
def State.reference (s : State) : List Cplx := tabulate s.sizeN (syncRef s.root s.sizeN)

/-- `ZCGEN u, n` (R121). -/
def execZcgen (u : Octet) (n : Half) (s : State) : Outcome :=
  if s.params.capSeq < n.toNat then s.fail .bufferCapacity (infoOf n.toNat)
  else .next (s.writeSeq (tabulate n.toNat (zc u.toNat n.toNat)))

/-- `PSSGEN u` (R123). -/
def execPssgen (u : Octet) (s : State) : Outcome :=
  if s.params.capSeq < 62 then s.fail .bufferCapacity (infoOf 62)
  else .next (s.writeSeq (tabulate 62 (pss62 u.toNat)))

end Sys2Proof.Machine
end

