-- ==== Sys2Proof/Machine/Timing.lean ====
section
/-! DEFINITION. The Timing Synchronizer: the correlation primitive and the commands `SYNCCP` and `SYNCPSS`
(43_timing_sync.md). -/

namespace Sys2Proof.Machine

/-! ## Correlation primitive (R150, R151, R152) -/

/-- `Σ conj(a[t]) × b[t]`, `CORR(a, b, false, false)` (R150). -/
def dot (n : Nat) (a b : Nat → Cplx) : Cplx := Cplx.sum n fun t => (a t).conj.times (b t)

/-- `‖a‖ = sqrt(Σ |a[t]|²)` (R150). -/
def norm (n : Nat) (a : Nat → Cplx) : RNum := (RNum.sum n fun t => (a t).normSq).root

/-- `Σ p[t] × q[t]`, `RC(p, q, false)` (R151). -/
def dotR (n : Nat) (p q : Nat → RNum) : RNum := RNum.sum n fun t => (p t).times (q t)

/-- `‖p‖` of a real sequence (R151). -/
def normR (n : Nat) (p : Nat → RNum) : RNum := (RNum.sum n fun t => (p t).times (p t)).root

/-- A real quotient by a product of two norms, 0 when one of them is 0 (R152). -/
def quotient (lt : RNum → RNum → Bool) (z a b : RNum) : RNum :=
  if a.isZero lt || b.isZero lt then .zero else z.quot (a.times b)

/-- `RC(p, q, nz)` (R151, R152). -/
def corrR (lt : RNum → RNum → Bool) (n : Nat) (p q : Nat → RNum) (nz : Bool) : RNum :=
  if nz then quotient lt (dotR n p q) (normR n p) (normR n q) else dotR n p q

/-- `CORR(a, b, normalized, complexMode)` of two sequences of length `n` (R150, R151, R152). -/
def corr (lt : RNum → RNum → Bool) (n : Nat) (a b : Nat → Cplx) (normalized complexMode : Bool) : Cplx :=
  if complexMode then
    ⟨corrR lt n (fun t => (a t).re) (fun t => (b t).re) normalized,
      corrR lt n (fun t => (a t).im) (fun t => (b t).im) normalized⟩
  else if normalized then
    let c := dot n a b
    let na := norm n a
    let nb := norm n b
    ⟨quotient lt c.re na nb, quotient lt c.im na nb⟩
  else dot n a b

/-! ## SYNCCP -/

/-- The raw score of offset `i`: the prefix window at `i` against the window `N` samples later, both circular (R154). -/
def cpRaw (lt : RNum → RNum → Bool) (x : Nat → Cplx) (m n cp : Nat) (mode : Bool) (i : Nat) : RNum :=
  (corr lt cp (circular x m i) (circular x m (i + n)) true mode).abs

/-- The normalised scores of `SYNCCP` (R154, R156). -/
def cpScores (lt : RNum → RNum → Bool) (x : Nat → Cplx) (m n cp : Nat) (mode : Bool) : List RNum :=
  normalise lt (tabulate m (cpRaw lt x m n cp mode))

/-- `Lscan` (R157). -/
def scanLength (lt : RNum → RNum → Bool) (thFirst : RNum) (m p : Nat) (score : List RNum) : Nat :=
  if lt thFirst (RNum.nth score 0) then m else m - p

/-- The boundary of the window that starts at `s`, if it contributes one (R158, R159). -/
def windowBoundary (lt : RNum → RNum → Bool) (thAccept : RNum) (m p : Nat) (score : List RNum) (s : Nat) : Option Nat :=
  let best := peak lt ((score.drop s).take (min (s + p) m - s))
  if lt thAccept best.1 ∧ s + best.2 + p ≤ m then some (s + best.2) else none

/-- The accepted boundaries: windows start at the multiples of `P` below `Lscan` (R158). When every score is 0 "no boundary
can be accepted" (R156), whatever the thresholds are (92_eei_decisions.md D47; log 22). -/
def cpBoundaries (lt : RNum → RNum → Bool) (thAccept thFirst : RNum) (m p : Nat) (score : List RNum) : List Nat :=
  if allZero lt score then []
  else (List.range ((scanLength lt thFirst m p score + p - 1) / p)).filterMap fun w =>
    windowBoundary lt thAccept m p score (w * p)

/-- What every timing command checks first (R161, R169): the record, the capacity of `RXB`, one symbol period. -/
@[inline] def State.timingChecks (s : State) (i : Instr) (go : Outcome) : Outcome :=
  s.whenConfigured i <|
    if s.params.capRxb < s.rxLen then s.fail .bufferCapacity (infoOf s.rxLen)
    else if s.rxLen < s.period then s.fail .bufferTooShort (infoOf s.rxLen)
    else go

/-- The scores of `SYNCCP` on the samples and the record in force. -/
noncomputable def State.cpScores (s : State) : List RNum :=
  Machine.cpScores RNum.lt s.rxbAt s.rxLen s.sizeN s.sizeCP s.corrCplx

/-- The boundaries `SYNCCP` finds in given scores. -/
noncomputable def State.cpBoundaries (s : State) (score : List RNum) : List Nat :=
  Machine.cpBoundaries RNum.lt s.tuning.thCpAccept s.tuning.thCpFirst s.rxLen s.period score

/-- `SYNCCP` (R153); faults in the order of R161. -/
noncomputable def execSynccp (s : State) : Outcome :=
  s.timingChecks .synccp <|
    let score := s.cpScores
    let list := s.cpBoundaries score
    if s.params.capBnd < list.length then s.fail .bufferCapacity (infoOf list.length)
    else .next (s.writeTiming score list)

/-! ## SYNCPSS -/

/-- The raw score of offset `i`: the magnitude of the un-normalised correlation with the reference (R163). -/
def pssRaw (lt : RNum → RNum → Bool) (x : Nat → Cplx) (n : Nat) (ref : List Cplx) (mode : Bool) (i : Nat) : RNum :=
  (corr lt n (Cplx.nth ref) (window x i) false mode).abs

/-- The normalised scores of `SYNCPSS`, one for each offset `0 .. M-N` (R163, R164). -/
def pssScores (lt : RNum → RNum → Bool) (x : Nat → Cplx) (m n : Nat) (ref : List Cplx) (mode : Bool) : List RNum :=
  normalise lt (tabulate (m + 1 - n) (pssRaw lt x n ref mode))

/-- The least offset whose score exceeds the threshold (R165). When every score is 0 there is none, whatever the threshold
is, so that the list is empty (R164, 92_eei_decisions.md D47; log 22). -/
def firstAbove (lt : RNum → RNum → Bool) (th : RNum) (score : List RNum) : Option Nat :=
  if allZero lt score then none else score.findIdx? fun a => lt th a

/-- The progression `f, f + P, f + 2P, …`, its terms `o` with `0 ≤ o` and `o + P ≤ M` (R167). -/
def progression (f : Int) (m p : Nat) : List Nat :=
  (List.range (m + 1 - p)).filter fun o => decide (f ≤ (o : Int)) && decide (((o : Int) - f) % (p : Int) = 0)

/-- The threshold that the flag `TH` selects (R165). -/
def State.pssThreshold (s : State) (th : Bool) : RNum := if th then s.tuning.thPssFreq else s.tuning.thPssTime

/-- The scores of `SYNCPSS` on the samples and the record in force. -/
noncomputable def State.pssScores (s : State) : List RNum :=
  Machine.pssScores RNum.lt s.rxbAt s.rxLen s.sizeN s.reference s.corrCplx

/-- The frame start `f = first - PSS_CORR` that `SYNCPSS` finds in given scores, if there is a first offset (R165,
R166). -/
noncomputable def State.pssStart (s : State) (th : Bool) (score : List RNum) : Option Int :=
  (firstAbove RNum.lt (s.pssThreshold th) score).map fun (first : Nat) => (first : Int) - s.pssCorr.toInt

/-- The boundary list of a frame start, empty when there is none (R167). -/
def State.pssBoundaries (s : State) : Option Int → List Nat
  | some f => progression f s.rxLen s.period
  | none => []

/-- `FRAME_START <- f` when there is a first offset (R168). -/
def State.noteStart (s : State) : Option Int → State
  | some f => s.writeFrameStart f
  | none => s

/-- `SYNCPSS [time|freq]` (R162); faults in the order of R169. -/
noncomputable def execSyncpss (th : Bool) (s : State) : Outcome :=
  s.timingChecks (.syncpss th) <|
    let score := s.pssScores
    let start := s.pssStart th score
    let list := s.pssBoundaries start
    if s.params.capBnd < list.length then s.fail .bufferCapacity (infoOf list.length)
    else .next ((s.writeTiming score list).noteStart start)

end Sys2Proof.Machine
end

