-- ==== Sys2Proof/Machine/Cfo.lean ====
section
/-! DEFINITION. The Frequency-Offset Corrector: the commands `CFOEST`, `CFOROT` and `CFOCORR` (44_cfo.md). -/

namespace Sys2Proof.Machine

/-- `f = sext_32(csr[FRAME_START])` (R180). -/
def State.startOffset (s : State) : Int := s.frameStart.toInt

/-- The dot product of `SYNCREF` with the body of the symbol at the frame start (R181). -/
def State.startCorr (s : State) : Cplx :=
  dot s.sizeN (Cplx.nth s.reference) (window s.rxbAt (s.startOffset.toNat + s.sizeCP))

/-- `phi`, the phase difference (R181). -/
def State.estPhase (s : State) : RNum := s.startCorr.arg

/-- `hz = phi × SCS_HZ / (2π)` (R182). -/
def State.phaseHz (s : State) (phi : RNum) : RNum := (phi.times s.consts.scsHz).quot ((RNum.rat 2).times .pi)

/-- The de-rotated sample `RXB[n] × exp(-j × 2π × hz × n / FS)` (R183). -/
def State.derotated (s : State) (hz : RNum) (n : Nat) : Cplx :=
  (s.rxbAt n).times
    (Cplx.cis ((((((RNum.rat 2).times .pi).times hz).times (RNum.ofNat n)).quot s.sampleRate).minus))

/-- The whole of `RXB` de-rotated by `hz` (R183). -/
def State.derotate (s : State) (hz : RNum) : List Cplx := linear (s.derotated hz) s.rxLen

/-- `RXB` de-rotated in place; with `LEN_RXB = 0` nothing changes, not even an element the host wrote above the length
(R183; log 10). -/
def State.derotateRxb (s : State) (hz : RNum) : State := if s.rxLen = 0 then s else s.writeRxb (s.derotate hz)

/-- What the three commands check first: the record, then the capacity of `RXB` (R183, R186). -/
@[inline] def State.cfoChecks (s : State) (i : Instr) (go : Outcome) : Outcome :=
  s.whenConfigured i <|
    if s.params.capRxb < s.rxLen then s.fail .bufferCapacity (infoOf s.rxLen) else go

/-- The synchronization symbol at the frame start lies wholly inside `RXB`, else `BufferRange` with the 32-bit pattern of
`FRAME_START` (R186). -/
@[inline] def State.whenInRange (s : State) (go : Outcome) : Outcome :=
  if s.startOffset < 0 ∨ (s.rxLen : Int) < s.startOffset + (s.period : Int) then s.fail .bufferRange s.frameStart
  else go

/-- `CFOEST` (R180). -/
def execCfoest (s : State) : Outcome :=
  s.cfoChecks .cfoest <| s.whenInRange <| .next (s.writeCfo s.estPhase (s.phaseHz s.estPhase))

/-- `CFOROT` (R183). -/
def execCforot (s : State) : Outcome :=
  s.cfoChecks .cforot <| .next (s.derotateRxb s.cfoHz)

/-- `CFOCORR` (R184): every check of both, then the writes of both. (A buffer that passes `whenInRange` is not empty.) -/
def execCfocorr (s : State) : Outcome :=
  s.cfoChecks .cfocorr <| s.whenInRange <|
    .next ((s.writeCfo s.estPhase (s.phaseHz s.estPhase)).derotateRxb (s.phaseHz s.estPhase))

end Sys2Proof.Machine
end

