-- ==== Sys2Proof/Machine/Demod.lean ====
section
/-! DEFINITION. The Demodulator / Equalizer: the command `DEMOD` (45_demodulator.md). -/

namespace Sys2Proof.Machine

/-! ## Steps 1 to 4 -/

/-- The used boundaries: all of them, or with `XS` those at list positions that are no multiple of 6 (R192). -/
def usedBoundaries (xs : Bool) (bounds : List Nat) : List Nat :=
  (bounds.zipIdx.filter fun b => !(xs && decide (b.2 % 6 = 0))).map Prod.fst

/-- `Gd[k]` of the boundary `b`: `SHIFT(DFT(x[b+CP .. b+CP+N-1]))` (R193, R194). -/
def State.received (s : State) (b k : Nat) : Cplx :=
  shift s.sizeN (dft s.sizeN (window s.rxbAt (b + s.sizeCP))) k

/-- The row of the boundary `b`: the values at the extracted indices, ascending (R195, R196). -/
def State.rowAt (s : State) (idx : List Nat) (b : Nat) : List Cplx := idx.map (s.received b)

/-! ## Steps 5 and 6 -/

/-- Piecewise-linear interpolation over (position, estimate) pairs, held before the first and after the last position
(R198, R199). -/
def interpolate : List (Nat × RNum) → Nat → RNum
  | [], _ => .zero
  | (q0, v0) :: rest, pos =>
    match rest with
    | [] => v0
    | (q1, v1) :: _ =>
      if pos ≤ q0 then v0
      else if pos ≤ q1 then
        v0.plus (((v1.sub v0).times (RNum.ofNat (pos - q0))).quot (RNum.ofNat (q1 - q0)))
      else interpolate rest pos

/-- `th[i] = arg(h[q[i]]) - arg(PV)` with its position, for every pilot (R197). -/
def phasePoints (q : List Nat) (pv : Cplx) (h : List Cplx) : List (Nat × RNum) :=
  q.map fun pos => (pos, (Cplx.nth h pos).arg.sub pv.arg)

/-- `am[i] = |h[q[i]]|` with its position, for every pilot (R197). -/
def ampPoints (q : List Nat) (h : List Cplx) : List (Nat × RNum) := q.map fun pos => (pos, (Cplx.nth h pos).abs)

/-- The phase correction `h[pos] × exp(-j × TH[pos])` (R200). -/
def phaseCorrect (q : List Nat) (pv : Cplx) (h : List Cplx) : List Cplx :=
  let points := phasePoints q pv h
  h.zipIdx.map fun v => v.1.times (Cplx.cis (interpolate points v.2).minus)

/-- `AM[pos]` for every position of a row (R198, R201). -/
def ampVector (q : List Nat) (h : List Cplx) : List RNum :=
  let points := ampPoints q h
  tabulate h.length (interpolate points)

/-- The amplitude correction `h[pos] × |PV| / AM[pos]` (R201). -/
def ampCorrect (pv : Cplx) (am : List RNum) (h : List Cplx) : List Cplx :=
  h.zipIdx.map fun v => Cplx.scale (pv.abs.quot (RNum.nth am v.2)) v.1

/-- `EQUALIZE(row, AQ)`: the phase correction, then with `AQ` the amplitude correction with the amplitudes of the row as
received (R197 to R201). -/
def equalize (q : List Nat) (pv : Cplx) (aq : Bool) (h : List Cplx) : List Cplx :=
  if aq then ampCorrect pv (ampVector q h) (phaseCorrect q pv h) else phaseCorrect q pv h

/-- The least position of a row at which the interpolated amplitude is 0, if there is one (R201; log 13). -/
def zeroAmp (lt : RNum → RNum → Bool) (q : List Nat) (h : List Cplx) : Option Nat :=
  (ampVector q h).findIdx? fun a => a.isZero lt

/-- The position `DivideByZero` reports: of the first row that has one, its least (R201, R208; log 13). -/
def firstZeroAmp (lt : RNum → RNum → Bool) (q : List Nat) : List (List Cplx) → Option Nat
  | [] => none
  | h :: rest => match zeroAmp lt q h with
    | some pos => some pos
    | none => firstZeroAmp lt q rest

/-- A row without the entries at the pilot positions (R202). -/
def strip (q : List Nat) (h : List Cplx) : List Cplx :=
  (h.zipIdx.filter fun v => !q.contains v.2).map Prod.fst

/-! ## Step 8 -/

/-- The stream scaled so that its largest magnitude is `radius`; unchanged when it is empty or its peak is 0 (R205). -/
def scaleToRadius (lt : RNum → RNum → Bool) (radius : RNum) (y : List Cplx) : List Cplx :=
  let mx := maxOf lt (y.map Cplx.abs)
  if mx.isZero lt then y
  else y.map fun v => ⟨(v.re.times radius).quot mx, (v.im.times radius).quot mx⟩

/-- A magnitude strictly inside the band (R206). -/
def inBand (lt : RNum → RNum → Bool) (lo hi : RNum) (z : Cplx) : Bool := lt lo z.abs && lt z.abs hi

/-- `OUTLIER(y)` (R205, R206). -/
def outlier (lt : RNum → RNum → Bool) (t : Tuning) (y : List Cplx) : List Cplx :=
  (scaleToRadius lt t.outRadius y).filter (inBand lt t.outLo t.outHi)

/-! ## The command -/

/-- `BND[0 .. K-1]`. -/
def State.bounds (s : State) : List Nat := linear s.bndAt s.bndLen

/-- The indices extracted: `D` with `SUB`, else `A` (R195). -/
def State.extracted (s : State) (sub : Bool) : List Nat := if sub then s.setD else s.setA

/-- The rows of steps 1 to 4 (R192 to R196). -/
def State.rawRows (s : State) (sub xs : Bool) : List (List Cplx) :=
  let idx := s.extracted sub
  (usedBoundaries xs s.bounds).map (s.rowAt idx)

/-- A row after steps 5, 6 and the pilot strip (R197 to R202). -/
def State.finishRow (s : State) (eq aq ps : Bool) (h : List Cplx) : List Cplx :=
  let q := s.pilotPos
  let e := if eq then equalize q s.consts.pilotValue aq h else h
  if ps then strip q e else e

/-- `W`, the row width in force before flattening (R195, R202). -/
def State.rowWidth (s : State) (sub ps : Bool) : Nat := if ps then s.sizeND else (s.extracted sub).length

/-- The stream of the rows after flattening, head skip and outlier rejection (R203 to R206). -/
noncomputable def State.stream (s : State) (w : Nat) (sk orj : Bool) (rows : List (List Cplx)) : List Cplx :=
  let y := rows.flatten
  let y := if sk then y.drop w else y
  if orj then outlier RNum.lt s.tuning y else y

/-- The number of pilot positions a row holds (R208): none in a data-only row. -/
def State.rowPilots (s : State) (sub : Bool) : Nat := if sub then 0 else s.sizePC

/-- The first used boundary, in list order, whose symbol is not wholly inside `RXB` (R193, R208). -/
def State.outOfRange (s : State) (xs : Bool) : Option Nat :=
  (usedBoundaries xs s.bounds).find? fun b => decide (s.rxLen < b + s.period)

/-- The last steps of `DEMOD`, from given rows of steps 1 to 4: `DivideByZero`, the capacity of `SYM`, the results (R201 to
R208). -/
noncomputable def State.demodRows (s : State) (sub eq aq ps sk orj : Bool) (rows : List (List Cplx)) : Outcome :=
  match if eq && aq then firstZeroAmp RNum.lt s.pilotPos rows else none with
  | some pos => s.fail .divideByZero (infoOf pos)
  | none =>
    let w := s.rowWidth sub ps
    let y := s.stream w sk orj (rows.map (s.finishRow eq aq ps))
    if s.params.capSym < y.length then s.fail .bufferCapacity (infoOf y.length)
    else .next (s.writeSym y w)

/-- `DEMOD [flags]` (R190); faults in the order of R208. -/
noncomputable def execDemod (sub xs eq aq ps sk orj : Bool) (s : State) : Outcome :=
  s.whenConfigured (.demod sub xs eq aq ps sk orj) <|
    if s.params.capRxb < s.rxLen then s.fail .bufferCapacity (infoOf s.rxLen)
    else if s.params.capBnd < s.bndLen then s.fail .bufferCapacity (infoOf s.bndLen)
    else if eq && decide (s.rowPilots sub < 2) then s.fail .pilotGeometry (infoOf (s.rowPilots sub))
    else match s.outOfRange xs with
      | some b => s.fail .bufferRange (infoOf b)
      | none => s.demodRows sub eq aq ps sk orj (s.rawRows sub xs)

end Sys2Proof.Machine
end

