-- ==== Sys2Proof/Machine/Grid.lean ====
section
/-! DEFINITION. Grid Parameters: the command `CFG` (40_grid_parameters.md). -/

namespace Sys2Proof.Machine

/-- `GUARD_TABLE[n]` (R103). Read only for an `n` of `FFT_SET`, each of which has an entry. -/
def guardOf (n : Nat) : Nat := (Config.guardTable.lookup n).getD 0

/-- The unadjusted pilot index `p[k] = lo + ((k × (hi - lo)) div (pc - 1))` (R105). -/
def pilotSpaced (lo hi pc k : Nat) : Nat := lo + k * (hi - lo) / (pc - 1)

/-- Adjustment (a): an index on the center is nudged by +1 (R106). -/
def nudge (c p : Nat) : Nat := if p = c then c + 1 else p

/-- The pilot index `p[k]` after both adjustments: (a), then (b) the last index is `hi` (R106). -/
def pilotIndex (lo hi c pc k : Nat) : Nat := if k + 1 = pc then hi else nudge c (pilotSpaced lo hi pc k)

/-- The `pilotCarrierIndices` (R105, R106). -/
def pilotList (lo hi c pc : Nat) : List Nat := tabulate pc (pilotIndex lo hi c pc)

/-- A sequence is strictly increasing. -/
def increasing : List Nat → Bool
  | [] => true
  | a :: l => match l with
    | [] => true
    | b :: _ => decide (a < b) && increasing l

/-- The invariant of R107: strictly increasing, never the center, all in `lo .. hi`. -/
def pilotsValid (lo hi c : Nat) (p : List Nat) : Bool :=
  increasing p && p.all fun k => decide (k ≠ c) && decide (lo ≤ k) && decide (k ≤ hi)

/-- The first check of `CFG` that fails, with its cause and its information value, in the order of R226: `fftSize`, the
pilot count, the guard length, the capacity of `PIL`, the invariant (R101, R110, R107). -/
def cfgFault (capPil n g pc : Nat) : Option (Cause × Nat) :=
  if !Config.fftSet.contains n then some (.configError, n)
  else if pc < 2 then some (.configError, pc)
  else if g / 2 < 1 ∨ n / 2 ≤ g / 2 then some (.configError, g)
  else if capPil < pc then some (.bufferCapacity, pc)
  else if !pilotsValid (g / 2) (n - g / 2) (n / 2) (pilotList (g / 2) (n - g / 2) (n / 2) pc) then
    some (.configError, pc)
  else none

/-- `guardBandLength`: the explicit value with `UG`, else the table's (R103). -/
def State.cfgGuard (s : State) (n : Nat) (ug : Bool) : Nat := if ug then s.guardOvr.toNat else guardOf n

/-- `pilotCount`: the explicit value with `UP`, else `n div 10` (R104). -/
def State.cfgCount (s : State) (n : Nat) (up : Bool) : Nat := if up then s.pilotOvr.toNat else n / 10

/-- `CFG n [, ug] [, up]` (R100): constructs the record, or raises the first fault and leaves the record as it was. -/
def execCfg (n : Half) (ug up : Bool) (s : State) : Outcome :=
  let g := s.cfgGuard n.toNat ug
  let pc := s.cfgCount n.toNat up
  match cfgFault s.params.capPil n.toNat g pc with
  | some (c, info) => s.fail c (infoOf info)
  | none => .next (s.writeGrid n.toNat g pc (pilotList (g / 2) (n.toNat - g / 2) (n.toNat / 2) pc))

end Sys2Proof.Machine
end

