-- ==== Sys2Proof/Machine/Modulator.lean ====
section
/-! DEFINITION. The Modulator: the command `MOD` (42_modulator.md). -/

namespace Sys2Proof.Machine

/-- `R0`, the number of payload blocks: 1 for `L = 0` (R143), else `ceil(L / ND)` (R131), which is at least 1. For `L > 0`
with an empty data-only set, which `CFG` can construct, R131 divides by 0 and the count is a free value (log 11). -/
def State.blockCount (s : State) : Nat :=
  if s.payLen = 0 then 1
  else if s.sizeND = 0 then max 1 (Config.freeBlockCount s.sizeN s.grid.guardLen.toNat s.payLen)
  else (s.payLen + s.sizeND - 1) / s.sizeND

/-- `R = 5 × ceil(R0 / 5)`, the number of data rows (R131). -/
def State.dataRows (s : State) : Nat := 5 * ((s.blockCount + 4) / 5)

/-- `S = R + R div 5`, the number of symbols with the synchronization symbols (R134). -/
def State.symbolCount (s : State) : Nat := s.dataRows + s.dataRows / 5

/-- Element `i` of the padded payload `PAY[0 .. L-1] ++ [0] × (R×ND - L)` (R131). -/
def State.paddedPay (s : State) (i : Nat) : Cplx := if i < s.payLen then s.payAt i else .zero

/-- `DATAROW(b)[k]`: the payload at the data-only indices in ascending order, the pilot value at the pilot indices, zero
elsewhere (R132). -/
def dataRow (pilots data : List Nat) (pv : Cplx) (b : Nat → Cplx) (k : Nat) : Cplx :=
  if pilots.contains k then pv
  else if data.contains k then b (data.idxOf k)
  else .zero

/-- The data row that row `m` of the grid holds, for an `m` that is no multiple of 6: rows `6s+1 .. 6s+5` hold data rows
`5s .. 5s+4` (R133). -/
def dataRowOf (m : Nat) : Nat := 5 * (m / 6) + (m % 6 - 1)

/-- Row `m` of the grid `Y`: `SYNCROW` when `m mod 6 = 0`, else a data row (R132, R133). -/
def State.gridRow (s : State) (pilots data : List Nat) (m : Nat) : Nat → Cplx :=
  if m % 6 = 0 then syncRow s.root s.center
  else dataRow pilots data s.consts.pilotValue fun i => s.paddedPay (dataRowOf m * s.sizeND + i)

/-- The index into the body `x` of sample `i` of `x[N-CP .. N-1] ++ x` (R138). -/
def prefixIndex (n cp i : Nat) : Nat := if i < cp then n - cp + i else i - cp

/-- Sample `i` of symbol `m` of the frame: `AMP × t[i]` (R135, R136, R138, R139). -/
def State.frameSample (s : State) (pilots data : List Nat) (m i : Nat) : Cplx :=
  Cplx.scale s.consts.txAmplitude
    (idft s.sizeN (shift s.sizeN (s.gridRow pilots data m)) (prefixIndex s.sizeN s.sizeCP i))

/-- The frame, `S` symbols of `P` samples, row-major (R140). -/
def State.frame (s : State) : List Cplx :=
  let pilots := s.pilots
  let data := s.setD
  tabulate (s.symbolCount * s.period) fun j =>
    s.frameSample pilots data (rowCol s.period j).1 (rowCol s.period j).2

/-- `MOD [flat]` (R130); faults in the order of R142. -/
def execMod (flat : Bool) (s : State) : Outcome :=
  s.whenConfigured (.mod flat) <|
    if s.params.capPay < s.payLen then s.fail .bufferCapacity (infoOf s.payLen)
    else if s.params.capTxo < s.symbolCount * s.period then
      s.fail .bufferCapacity (infoOf (s.symbolCount * s.period))
    else .next (s.writeTxo s.frame (if flat then 1 else s.symbolCount)
      (if flat then s.symbolCount * s.period else s.period))

end Sys2Proof.Machine
end

