-- ==== Sys2Proof/Machine/Dispatch.lean ====
section
/-! DEFINITION. The meaning of every command (30_encoding.md R81, R89 (3)): one arm, one definition.

`exec` is noncomputable because the commands compare real numbers exactly (00_scope.md R7; log 2). -/

namespace Sys2Proof.Machine

open Host in noncomputable
def exec (i : Instr) (s : State) : Host.Outcome State Fault Refusal :=
  match i with
  | .cfg n ug up => Sys2Proof.Machine.execCfg n ug up s
  | .zcgen u n => Sys2Proof.Machine.execZcgen u n s
  | .pssgen u => Sys2Proof.Machine.execPssgen u s
  | .mod flat => Sys2Proof.Machine.execMod flat s
  | .synccp => Sys2Proof.Machine.execSynccp s
  | .syncpss th => Sys2Proof.Machine.execSyncpss th s
  | .cfoest => Sys2Proof.Machine.execCfoest s
  | .cforot => Sys2Proof.Machine.execCforot s
  | .cfocorr => Sys2Proof.Machine.execCfocorr s
  | .demod sub xs eq aq ps sk orj => Sys2Proof.Machine.execDemod sub xs eq aq ps sk orj s

end Sys2Proof.Machine
end

