-- ==== Sys2Proof/Machine/Host.lean ====
section
/-! DEFINITION. The host's side (20_memory.md R61, 30_encoding.md R87 and R89, 70_reset_and_hazards.md R250): the register
map, reading and writing registers and buffers, issuing a command, reset. -/

namespace Sys2Proof.Machine

/-! ## Registers (10_state.md R24, R25) -/

/-- `HostReadCSR(no)`: the register map of R25; every other number reads as 0 (R24). -/
def State.readCsr (s : State) (no : Nat) : CsrValue :=
  match no with
  | 0x00 => .word s.status
  | 0x01 => .word s.cause
  | 0x02 => .word s.info
  | 0x03 => .word s.ctrl
  | 0x04 => .word s.grid.fftSize
  | 0x05 => .word s.grid.cpLen
  | 0x06 => .word s.grid.guardLen
  | 0x07 => .word s.grid.pilotCnt
  | 0x08 => .word s.grid.nData
  | 0x09 => .word s.grid.nActive
  | 0x0A => .word s.guardOvr
  | 0x0B => .word s.pilotOvr
  | 0x0C => .cplx s.consts.pilotValue
  | 0x0D => .real s.consts.txAmplitude
  | 0x0E => .word s.consts.syncRoot
  | 0x0F => .real s.consts.scsHz
  | 0x10 => .real s.tuning.thCpAccept
  | 0x11 => .real s.tuning.thCpFirst
  | 0x12 => .real s.tuning.thPssTime
  | 0x13 => .real s.tuning.thPssFreq
  | 0x14 => .real s.tuning.outRadius
  | 0x15 => .real s.tuning.outLo
  | 0x16 => .real s.tuning.outHi
  | 0x17 => .word s.pssCorr
  | 0x18 => .word s.frameStart
  | 0x19 => .real s.cfoPhase
  | 0x1A => .real s.cfoHz
  | 0x20 => .word s.len.pay
  | 0x21 => .word s.len.txo
  | 0x22 => .word s.len.txoRows
  | 0x23 => .word s.len.txoCols
  | 0x24 => .word s.len.rxb
  | 0x25 => .word s.len.scr
  | 0x26 => .word s.len.bnd
  | 0x27 => .word s.len.sym
  | 0x28 => .word s.len.symCols
  | 0x29 => .word s.len.seq
  | 0x2A => .word s.grid.lenPil
  | _ => .word 0#32

/-- The integer registers the host may write (R25: `RW`, types `U32` and `S32`). -/
inductive WordReg where
  | ctrl | guardOvr | pilotOvr | pssCorr | frameStart | lenPay | lenRxb | lenBnd
deriving DecidableEq, Repr

/-- The real registers the host may write (R25: `RW`, type `R`). -/
inductive RealReg where
  | thCpAccept | thCpFirst | thPssTime | thPssFreq | outRadius | outLo | outHi | cfoHz
deriving DecidableEq, Repr

/-- A register number as the host writes it. -/
inductive Writable where
  | word (r : WordReg)
  | real (r : RealReg)
  | ignored
deriving DecidableEq, Repr

/-- Which register a number is, for a host write: `RO` registers and reserved numbers ignore writes (R24, R25). -/
def writable (no : Nat) : Writable :=
  match no with
  | 0x03 => .word .ctrl
  | 0x0A => .word .guardOvr
  | 0x0B => .word .pilotOvr
  | 0x10 => .real .thCpAccept
  | 0x11 => .real .thCpFirst
  | 0x12 => .real .thPssTime
  | 0x13 => .real .thPssFreq
  | 0x14 => .real .outRadius
  | 0x15 => .real .outLo
  | 0x16 => .real .outHi
  | 0x17 => .word .pssCorr
  | 0x18 => .word .frameStart
  | 0x1A => .real .cfoHz
  | 0x20 => .word .lenPay
  | 0x24 => .word .lenRxb
  | 0x26 => .word .lenBnd
  | _ => .ignored

/-- The buffer's elements that hold a value become those below the new length, and those that a raised length takes in are
unspecified afresh (R41; log 8, log 10). -/
def State.writeLength (s : State) (len : Lengths) (mem : Memory) : State :=
  { s with len := len, mem := mem, gen := s.gen + 1 }

/-- A host write of an integer register. -/
def State.writeWord (s : State) (r : WordReg) (w : Word) : State :=
  match r with
  | .ctrl => { s with ctrl := ctrlStored w }
  | .guardOvr => { s with guardOvr := w }
  | .pilotOvr => { s with pilotOvr := w }
  | .pssCorr => { s with pssCorr := w }
  | .frameStart => { s with frameStart := w }
  | .lenPay => s.writeLength { s.len with pay := w } { s.mem with pay := s.mem.pay.below w.toNat }
  | .lenRxb => s.writeLength { s.len with rxb := w } { s.mem with rxb := s.mem.rxb.below w.toNat }
  | .lenBnd => s.writeLength { s.len with bnd := w } { s.mem with bnd := s.mem.bnd.below w.toNat }

/-- A host write of a real register: any real value may be written (R32, R33, R35). -/
def State.writeReal (s : State) (r : RealReg) (a : RNum) : State :=
  match r with
  | .thCpAccept => { s with tuning := { s.tuning with thCpAccept := a } }
  | .thCpFirst => { s with tuning := { s.tuning with thCpFirst := a } }
  | .thPssTime => { s with tuning := { s.tuning with thPssTime := a } }
  | .thPssFreq => { s with tuning := { s.tuning with thPssFreq := a } }
  | .outRadius => { s with tuning := { s.tuning with outRadius := a } }
  | .outLo => { s with tuning := { s.tuning with outLo := a } }
  | .outHi => { s with tuning := { s.tuning with outHi := a } }
  | .cfoHz => { s with cfoHz := a }

/-- A value as an integer register stores it; a free value where it is of another kind (log 15). -/
def wordStored : CsrValue → Word
  | .word w => w
  | .real a => Config.wordOf (.real a)
  | .cplx z => Config.wordOf (.cplx z)

/-- A value as a real register stores it; a free value where it is of another kind (log 15). -/
def realStored : CsrValue → RNum
  | .real a => a
  | .word w => Config.realOf (.word w)
  | .cplx z => Config.realOf (.cplx z)

/-- `HostWriteCSR(no, v)` (R24). -/
def State.writeCsr (s : State) (no : Nat) (v : CsrValue) : State :=
  match writable no with
  | .word r => s.writeWord r (wordStored v)
  | .real r => s.writeReal r (realStored v)
  | .ignored => s

/-! ## Buffers (20_memory.md R61, 10_state.md R37, R41) -/

/-- `len(B)` (00_scope.md R9). -/
def State.bufLen (s : State) : BufName → Nat
  | .pay => s.len.pay.toNat
  | .txo => s.len.txo.toNat
  | .rxb => s.len.rxb.toNat
  | .scr => s.len.scr.toNat
  | .bnd => s.len.bnd.toNat
  | .sym => s.len.sym.toNat
  | .seq => s.len.seq.toNat
  | .pil => s.grid.lenPil.toNat

/-- The element `B[i]`; one that nothing wrote is a free value (log 8). -/
def State.element (s : State) (b : BufName) (i : Nat) : ElemValue :=
  match b with
  | .pay => .cplx (s.payAt i)
  | .txo => .cplx ((s.mem.txo.get? i).getD (Config.freeCplx s.gen .txo i))
  | .rxb => .cplx (s.rxbAt i)
  | .scr => .real ((s.mem.scr.get? i).getD (Config.freeNum s.gen .scr i))
  | .bnd => .nat (s.bndAt i)
  | .sym => .cplx ((s.mem.sym.get? i).getD (Config.freeCplx s.gen .sym i))
  | .seq => .cplx ((s.mem.seq.get? i).getD (Config.freeCplx s.gen .seq i))
  | .pil => .nat (s.pilAt i)

/-- `capacity(B)` (10_state.md R37). -/
def State.bufCap (s : State) : BufName → Nat
  | .pay => s.params.capPay
  | .txo => s.params.capTxo
  | .rxb => s.params.capRxb
  | .scr => s.params.capRxb
  | .bnd => s.params.capBnd
  | .sym => s.params.capSym
  | .seq => s.params.capSeq
  | .pil => s.params.capPil

/-- `HostReadBuf(B, i)`: meaningful only for `i < len(B)` (R61); at or above the length there is no value (R41), at or above
the capacity there is no element (R60; log 9). -/
def State.readBuf (s : State) (b : BufName) (i : Nat) : Option ElemValue :=
  if i < s.bufLen b ∧ i < s.bufCap b then some (s.element b i) else none

/-- A value as a complex element stores it; a free value where it is of another kind (log 15). -/
def cplxStored : ElemValue → Cplx
  | .cplx z => z
  | .real a => Config.cplxOf (.real a)
  | .nat n => Config.cplxOf (.nat n)

/-- A value as an integer element stores it; a free value where it is of another kind (log 15). -/
def natStored : ElemValue → Nat
  | .nat n => n
  | .real a => Config.offsetOf (.real a)
  | .cplx z => Config.offsetOf (.cplx z)

/-- `HostWriteBuf(B, i, v)` (R61): stored in `PAY`, `RXB` or `BND` below the capacity, ignored for another buffer or at or
above the capacity. -/
def State.writeBuf (s : State) (b : BufName) (i : Nat) (v : ElemValue) : State :=
  if i < s.bufCap b then
    match b with
    | .pay => { s with mem := { s.mem with pay := s.mem.pay.put i (cplxStored v) } }
    | .rxb => { s with mem := { s.mem with rxb := s.mem.rxb.put i (cplxStored v) } }
    | .bnd => { s with mem := { s.mem with bnd := s.mem.bnd.put i (natStored v) } }
    | .txo | .scr | .sym | .seq | .pil => s
  else s

/-! ## Issue of a command (30_encoding.md R89) -/

/-- `HostCmd(w)`: refused while `ERR = 1` (60_exceptions.md R225), else decoded, raising `IllegalCommand` with the word as
information if illegal (R84), else executed. -/
noncomputable def issue (w : Word) (s : State) : Outcome :=
  if s.err then .next s
  else match decode w with
    | .error _ => s.fail .illegalCommand w
    | .ok i => exec i s

/-- One action of the host (20_memory.md R69: one total order). The command index advances by 1 after every command (10_state.md
R21; log 7). -/
noncomputable def hostStep (e : HostEvent) (s : State) : Outcome :=
  match e with
  | .cmd w => issue w { s with pc := s.pc + 1 }
  | .readCsr _ => .next s
  | .writeCsr no v => .next (s.writeCsr no v)
  | .readBuf b i => if (s.readBuf b i).isSome then .next s else .fault (.noValue b i)
  | .writeBuf b i v => .next (s.writeBuf b i v)
  | .reset => .next s.hostReset

/-- The state in which the host takes its next action: the action leaves the list. -/
def State.advance (s : State) (rest : List HostEvent) : State := { s with host := rest }

/-! ## Host directives (30_encoding.md R87) -/

/-- `.csr NAME = v`. -/
def directiveCsr (no : Nat) (v : CsrValue) : List HostEvent := [.writeCsr no v]

/-- The number of the length register of a host-writable buffer (10_state.md R25). -/
def lengthNo : BufName → Option Nat
  | .pay => some 0x20
  | .rxb => some 0x24
  | .bnd => some 0x26
  | _ => none

/-- `.buf B = [v0, v1, …]`: writes the elements and sets `LEN_B` to their number. -/
def directiveBuf (b : BufName) (l : List ElemValue) : List HostEvent :=
  (l.zipIdx.map fun v => .writeBuf b v.2 v.1) ++
    match lengthNo b with
    | some no => [.writeCsr no (.word (Word.ofNat l.length))]
    | none => []

/-- `.copy TXO -> RXB`, from the state whose `TXO` is read. -/
def directiveCopy (s : State) : List HostEvent :=
  directiveBuf .rxb (tabulate s.len.txo.toNat (s.element .txo))

end Sys2Proof.Machine
end

