-- ==== Sys2Proof/Machine/Step.lean ====
section
/-! DEFINITION. One step of the machine: the host's next action (00_scope.md R5, 20_memory.md R69). -/

namespace Sys2Proof.Machine

/-- The host takes its next action; with none left the block stays as it is (log 6). -/
noncomputable def step (s : State) : Host.Outcome State Fault Refusal :=
  match s.host with
  | [] => .next s
  | e :: rest => hostStep e (s.advance rest)

/-- The state in which the host's next action is to issue the command whose low `nbits` bits are `w` (log 5). -/
def State.withFetchWord (s : State) (nbits w : Nat) : State :=
  { s with host := .cmd (tableWord nbits w) :: s.host }

end Sys2Proof.Machine
end

