-- ==== Sys2Proof/Safety.lean ====
section
/-! DEFINITION. What holds of every state the machine reaches, in the terms the statements use. -/

namespace Sys2Proof.Machine

/-! ## Comparisons -/

/-- A comparison that is exact, the named reals having the values `ρ` (00_scope.md R7: "exact comparisons of the
mathematical values"). -/
def ExactLt (ρ : Nat → ℝ) (lt : RNum → RNum → Bool) : Prop := ∀ a b, lt a b = true ↔ a.val ρ < b.val ρ

/-! ## What a command leaves unchanged -/

/-- Every register but those numbered in `regs`, every element of every buffer but those in `bufs`, the command index, the
capacities, the host's list and the count of length writes are in `t` what they are in `s`. -/
def OnlyChanges (regs : List Nat) (bufs : List BufName) (s t : State) : Prop :=
  (∀ no, no ∉ regs → t.readCsr no = s.readCsr no) ∧
    (∀ b, b ∉ bufs → ∀ i, t.element b i = s.element b i) ∧
      t.pc = s.pc ∧ t.params = s.params ∧ t.host = s.host ∧ t.gen = s.gen

/-- The buffer `b` of `t` has length `n`, its elements below `n` are `f 0, …, f (n-1)`, and no element at or above `n` holds
a value (10_state.md R36, R41). -/
def Holds (t : State) (b : BufName) (n : Nat) (f : Nat → ElemValue) : Prop :=
  t.bufLen b = n ∧ ∀ i, t.readBuf b i = if i < n then some (f i) else none

/-! ## The invariant -/

/-- Exactly the elements below `n` of a buffer hold a value (10_state.md R41 for a buffer the engine fills). -/
def Buf.Filled {α : Type} (b : Buf α) (n : Nat) : Prop := b.cells.map Prod.fst = List.range n

/-- The GridParameters record passed every check of `CFG` (10_state.md R26 `CFGV`, R29, R38; 40_grid_parameters.md R100 to
R112). -/
structure State.GridValid (s : State) : Prop where
  size : Config.fftSet.contains s.sizeN = true
  cp : s.sizeCP = s.sizeN / 4
  count : 2 ≤ s.sizePC
  lowEdge : 1 ≤ s.edgeLo
  edge : s.edgeLo < s.center
  active : s.grid.nActive.toNat = s.edgeHi - s.edgeLo
  data : s.sizeND = s.edgeHi - s.edgeLo - s.sizePC
  lenPil : s.grid.lenPil = s.grid.pilotCnt
  room : s.sizePC ≤ s.params.capPil
  pil : s.mem.pil = .ofList (pilotList s.edgeLo s.edgeHi s.center s.sizePC)
  valid : pilotsValid s.edgeLo s.edgeHi s.center (pilotList s.edgeLo s.edgeHi s.center s.sizePC) = true

/-- The constants of the hardware meet the constraints of 00_scope.md R6, whatever the named reals are: "Constraints are
part of the parameter". -/
structure Constants.Allowed (c : Constants) : Prop where
  pilot : ∀ ρ, c.pilotValue.val ρ ≠ 0
  amplitude : ∀ ρ, 0 < c.txAmplitude.val ρ
  root : c.syncRoot.toNat < 256
  spacing : c.scsHz = .rat 15000

/-- The invariant of the machine. -/
structure State.Inv (s : State) : Prop where
  /-- The capacities are below 2^31 (00_scope.md R8). -/
  caps : s.params.capPay < 2 ^ 31 ∧ s.params.capTxo < 2 ^ 31 ∧ s.params.capRxb < 2 ^ 31 ∧ s.params.capBnd < 2 ^ 31 ∧
    s.params.capSym < 2 ^ 31 ∧ s.params.capSeq < 2 ^ 31 ∧ s.params.capPil < 2 ^ 31
  /-- The capacities for the default geometries (R6). -/
  least : 63 ≤ s.params.capSeq ∧ 204 ≤ s.params.capPil
  consts : s.consts.Allowed
  /-- The buffers are in their form (20_memory.md R60). -/
  mem : s.mem.Wf s.params
  /-- Reserved bits of `STATUS` and `CTRL` read as 0 (10_state.md R26, R28). -/
  status : s.status &&& 0xFFFFFFF8#32 = 0#32
  ctrl : s.ctrl &&& 0xFFFFFFFE#32 = 0#32
  /-- `CAUSE` and `INFO` are 0 while there is no fault, and `CAUSE` is 1..8 once there is one (10_state.md R27,
  60_exceptions.md R220). -/
  noFault : s.err = false → s.cause = 0#32 ∧ s.info = 0#32
  fault : s.err = true → 1 ≤ s.cause.toNat ∧ s.cause.toNat ≤ 8
  /-- The record is valid when `CFGV` says so (10_state.md R26) and zero before (R251). -/
  grid : s.cfgv = true → s.GridValid
  gridReset : s.cfgv = false → s.grid = State.reset.grid
  /-- The buffers that only the engine writes hold exactly the elements their lengths say (10_state.md R36, R41). -/
  txo : s.mem.txo.Filled s.len.txo.toNat
  scr : s.mem.scr.Filled s.len.scr.toNat
  sym : s.mem.sym.Filled s.len.sym.toNat
  seq : s.mem.seq.Filled s.len.seq.toNat
  pil : s.mem.pil.Filled s.grid.lenPil.toNat
  /-- `TXO_ROWS × TXO_COLS = LEN_TXO` (10_state.md R36). -/
  shape : s.len.txoRows.toNat * s.len.txoCols.toNat = s.len.txo.toNat

end Sys2Proof.Machine
end

