-- ==== Sys2Proof/Certificates/Slice0/Obligations.lean ====
section
/-! DEFINITION. The statements for the provers, from the numbered rules of spec/. -/

open Sys2Proof Sys2Proof.Machine

/-! ## Reset, issue, faults -/

/-- 70_reset_and_hazards.md R251 and 10_state.md R40: what every register reads right after reset, and every buffer is
empty. The four constants read as their parameters; the reset values 0 of the command index, of the count of length writes
and of the host's list are the model's own (log 5, log 7, log 8) and are not stated. -/
def Obligations.ResetRegistersAndBuffers : Prop :=
  State.reset.readCsr 0x0C = .cplx Config.pilotValue ∧
  State.reset.readCsr 0x0D = .real Config.txAmplitude ∧
  State.reset.readCsr 0x0E = .word (BitVec.setWidth 32 Config.syncRoot) ∧
  State.reset.readCsr 0x0F = .real (.rat 15000) ∧
  State.reset.readCsr 0x10 = .real (.rat (9 / 10)) ∧
  State.reset.readCsr 0x11 = .real (.rat (97 / 100)) ∧
  State.reset.readCsr 0x12 = .real (.rat (98 / 100)) ∧
  State.reset.readCsr 0x13 = .real (.rat (95 / 100)) ∧
  State.reset.readCsr 0x14 = .real (.rat 3) ∧
  State.reset.readCsr 0x15 = .real (.rat (2 / 10)) ∧
  State.reset.readCsr 0x16 = .real (.rat (15 / 10)) ∧
  State.reset.readCsr 0x19 = .real (.rat 0) ∧
  State.reset.readCsr 0x1A = .real (.rat 0) ∧
  (∀ no, ¬ (0x0C ≤ no ∧ no ≤ 0x16) → no ≠ 0x19 → no ≠ 0x1A → State.reset.readCsr no = .word 0#32) ∧
  (∀ b i, State.reset.readBuf b i = none)

/-- 70_reset_and_hazards.md R250: the reset event puts every register at its reset value and empties every buffer, keeps
the hardware's constants (10_state.md R31), and clears `ERR` and `CFGV`. That the host's later actions stay is the model's
choice (log 19). -/
def Obligations.ResetEventRestoresResetState : Prop :=
  ∀ (s : State) (rest : List HostEvent), s.host = .reset :: rest →
    ∃ t, step s = .next t ∧ t.cfgv = false ∧ t.err = false ∧ t.detf = false ∧
      (∀ no, ¬ (0x0C ≤ no ∧ no ≤ 0x0F) → t.readCsr no = State.reset.readCsr no) ∧
      (∀ no, 0x0C ≤ no → no ≤ 0x0F → t.readCsr no = s.readCsr no) ∧
      (∀ b i, t.readBuf b i = none) ∧ t.params = s.params ∧ t.host = rest

/-- 30_encoding.md R89, 10_state.md R21, 60_exceptions.md R225: issuing a command word takes it off the host's list and
advances the command index; while `ERR = 1` nothing else happens; else an illegal word raises `IllegalCommand` with the
word as information, and a legal one runs the command it decodes to. That the host's actions are a list in the state and that
the index advances for a refused command too is the model's choice (log 5, log 7). -/
def Obligations.StepRunsDecodedCommand : Prop :=
  ∀ (s : State) (w : Word) (rest : List HostEvent), s.host = .cmd w :: rest →
    let s1 : State := { s with host := rest, pc := s.pc + 1 }
    (s.err = true → step s = .next s1) ∧
    (s.err = false → (∀ e, decode w = .error e → step s = .next (s1.raise .illegalCommand w))) ∧
    (s.err = false → (∀ i, decode w = .ok i → step s = exec i s1))

/-- 60_exceptions.md R224 and the codes of R220: fault entry sets `ERR`, writes `CAUSE` and `INFO`, keeps `CFGV` and `DETF`,
and writes nothing else. -/
def Obligations.FaultEntryIsPrecise : Prop :=
  ∀ (s : State) (c : Cause) (info : Word),
    (s.raise c info).err = true ∧ (s.raise c info).cfgv = s.cfgv ∧ (s.raise c info).detf = s.detf ∧
    (∀ i, i ≠ 1 → (s.raise c info).status.getLsbD i = s.status.getLsbD i) ∧
    (s.raise c info).readCsr 0x02 = .word info ∧
    (s.raise c info).readCsr 0x01 = .word (match c with
      | .configError => 1#32 | .pilotGeometry => 2#32 | .notConfigured => 3#32 | .illegalCommand => 4#32
      | .bufferTooShort => 5#32 | .bufferRange => 6#32 | .bufferCapacity => 7#32 | .divideByZero => 8#32) ∧
    OnlyChanges [0x00, 0x01, 0x02] [] s (s.raise c info)

/-- 60_exceptions.md R220, R226 (3): each of the seven commands that need the record raises `NotConfigured`, with the
command word as information, when there is none (the word is the encoding of the command: log 16). -/
def Obligations.UnconfiguredCommandsRaise : Prop :=
  ∀ s : State, s.cfgv = false →
    (∀ flat, exec (.mod flat) s = .next (s.raise .notConfigured (if flat then 0x00000104#32 else 0x00000004#32))) ∧
    exec .synccp s = .next (s.raise .notConfigured 0x00000005#32) ∧
    (∀ th, exec (.syncpss th) s = .next (s.raise .notConfigured (if th then 0x00000106#32 else 0x00000006#32))) ∧
    exec .cfoest s = .next (s.raise .notConfigured 0x00000007#32) ∧
    exec .cforot s = .next (s.raise .notConfigured 0x00000008#32) ∧
    exec .cfocorr s = .next (s.raise .notConfigured 0x00000009#32) ∧
    (∀ sub xs eq aq ps sk orj, exec (.demod sub xs eq aq ps sk orj) s =
      .next (s.raise .notConfigured (encode (.demod sub xs eq aq ps sk orj))))

/-! ## Comparisons -/

/-- 00_scope.md R7, R10: the comparison the commands make is the comparison of the values of the two terms, where it is
computed from bounds and where it is not, and `peak` with it is the maximum and the least index that attains it
(`argmax_first`). Every statement that speaks of an exact comparison so speaks of the commands' own. -/
def Obligations.ComparisonIsExact : Prop :=
  ExactLt Config.atomValue RNum.lt ∧
  (∀ (ρ : Nat → ℝ) (a b : RNum) (r : Bool), a.ltBounds b = some r → (r = true ↔ a.val ρ < b.val ρ)) ∧
  ∀ (l : List RNum) (i : Nat) (a : RNum), l[i]? = some a →
    (∀ b ∈ l, b.val Config.atomValue ≤ a.val Config.atomValue) →
    (∀ (j : Nat) (b : RNum), j < i → l[j]? = some b → b.val Config.atomValue < a.val Config.atomValue) →
    peak RNum.lt l = (a, i)

/-! ## Encoding -/

/-- 30_encoding.md R86, R87: the examples of the spec, words written out, and the two pseudo-commands. -/
def Obligations.SpecWordsDecode : Prop :=
  decode 0x00800001#32 = .ok (.cfg 128#16 false false) ∧ decode 0x00400301#32 = .ok (.cfg 64#16 true true) ∧
  decode 0x003F1902#32 = .ok (.zcgen 25#8 63#16) ∧ decode 0x00001903#32 = .ok (.pssgen 25#8) ∧
  decode 0x00000104#32 = .ok (.mod true) ∧ decode 0x00000005#32 = .ok .synccp ∧
  decode 0x00000106#32 = .ok (.syncpss true) ∧ decode 0x00000007#32 = .ok .cfoest ∧
  decode 0x00000008#32 = .ok .cforot ∧ decode 0x00000009#32 = .ok .cfocorr ∧
  decode 0x0000740A#32 = .ok .demodRef ∧ decode 0x00001E0A#32 = .ok .demodRt

/-- 30_encoding.md R84, R81 to R83, 45_demodulator.md R191: exactly which words are legal, by the bits of the word. -/
def Obligations.LegalWordsCharacterised : Prop :=
  ∀ w : Word,
    let op := w.toNat % 256
    let fl := w.toNat / 256 % 256
    let imm := w.toNat / 65536
    (∃ i, decode w = .ok i) ↔
      (op = 1 ∧ fl < 4) ∨ (op = 2 ∧ imm ≠ 0) ∨ (op = 3 ∧ imm = 0) ∨ ((op = 4 ∨ op = 6) ∧ fl < 2 ∧ imm = 0) ∨
      ((op = 5 ∨ op = 7 ∨ op = 8 ∨ op = 9) ∧ fl = 0 ∧ imm = 0) ∨
      (op = 10 ∧ fl < 128 ∧ imm = 0 ∧ (fl.testBit 3 = true → fl.testBit 2 = true) ∧
        ¬ (fl.testBit 4 = true ∧ fl.testBit 0 = true))

/-- Decoding the word of a well-formed command gives the command back, for every command and every operand (30_encoding.md
R80 to R84). -/
def Obligations.DecodeOfEncodeIsIdentity : Prop :=
  ∀ i : Instr, i.WellFormed → decode (encode i) = .ok i

/-- Every legal word is the word of the command it decodes to, which is well-formed: no two words mean the same command and
no bit of a word is dropped (30_encoding.md R80 to R85). -/
def Obligations.EncodeOfDecodeIsIdentity : Prop :=
  ∀ (w : Word) (i : Instr), decode w = .ok i → encode i = w ∧ i.WellFormed

/-! ## Invariants and whole-machine rules -/

/-- The invariant holds right after reset (70_reset_and_hazards.md R251): buffers in their form, reserved bits 0, no record,
empty buffers, and the parameters within the constraints of 00_scope.md R6 (`PILOT_VALUE` not 0, `TX_AMPLITUDE` above 0,
`SYNC_ROOT` at most 255, `CAP_SEQ` at least 63, `CAP_PIL` at least 204) and R8 (capacities below 2^31). -/
def Obligations.InvariantHoldsAtReset : Prop := State.reset.Inv

/-- Every step keeps the invariant: buffers in their form, reserved bits 0, `CAUSE` and `INFO` as `ERR` says, the record in
force valid, engine-written buffers exactly as long as their registers say, `TXO_ROWS × TXO_COLS = LEN_TXO`, the parameters
within the constraints of 00_scope.md R6 and R8. -/
def Obligations.EveryStepKeepsInvariant : Prop :=
  ∀ s t : State, s.Inv → step s = .next t → t.Inv

/-- 10_state.md R31: no step changes `PILOT_VALUE`, `TX_AMPLITUDE`, `SYNC_ROOT` or `SCS_HZ`; nor the capacities. -/
def Obligations.ConstantsNeverChange : Prop :=
  ∀ s t : State, step s = .next t →
    t.readCsr 0x0C = s.readCsr 0x0C ∧ t.readCsr 0x0D = s.readCsr 0x0D ∧ t.readCsr 0x0E = s.readCsr 0x0E ∧
    t.readCsr 0x0F = s.readCsr 0x0F ∧ t.params = s.params

/-- 10_state.md R29: no step but reset and a command that decodes to `CFG` changes any part of the GridParameters record. -/
def Obligations.RecordChangesOnlyByCfg : Prop :=
  ∀ s t : State, step s = .next t →
    (∀ rest, s.host ≠ .reset :: rest) →
    (∀ w rest n ug up, s.host = .cmd w :: rest → decode w ≠ .ok (.cfg n ug up)) →
    t.grid = s.grid ∧ t.mem.pil = s.mem.pil ∧ t.consts.pilotValue = s.consts.pilotValue

/-- 10_state.md R23, 70_reset_and_hazards.md R250: a step that clears `ERR` or `CFGV` is reset. -/
def Obligations.OnlyResetClearsErrAndCfgv : Prop :=
  ∀ s t : State, step s = .next t →
    (s.err = true ∧ t.err = false) ∨ (s.cfgv = true ∧ t.cfgv = false) → ∃ rest, s.host = .reset :: rest

/-- 10_state.md R23: a step that changes `DETF` is reset or a command that decodes to `SYNCCP` or `SYNCPSS`. -/
def Obligations.OnlyTimingCommandsWriteDetf : Prop :=
  ∀ s t : State, step s = .next t → t.detf ≠ s.detf →
    (∃ rest, s.host = .reset :: rest) ∨
      ∃ w rest, s.host = .cmd w :: rest ∧ (decode w = .ok .synccp ∨ ∃ th, decode w = .ok (.syncpss th))

/-! ## Host primitives -/

/-- 20_memory.md R60, R61, R64: reading a register, or an element below the length and the capacity, changes nothing that a
read can see, so that a second read returns the same value; a read at or above the length or the capacity stops the run
(10_state.md R41; that it is a fault is the model's choice, log 9). -/
def Obligations.HostReadsHaveNoEffect : Prop :=
  ∀ (s : State) (rest : List HostEvent),
    (∀ no, s.host = .readCsr no :: rest → ∃ t, step s = .next t ∧ (∀ n, t.readCsr n = s.readCsr n) ∧ t.mem = s.mem ∧
      ∀ b i, t.readBuf b i = s.readBuf b i) ∧
    (∀ b i, s.host = .readBuf b i :: rest →
      (i < s.bufLen b → i < s.bufCap b → ∃ t, step s = .next t ∧ (∀ n, t.readCsr n = s.readCsr n) ∧ t.mem = s.mem ∧
        ∀ b i, t.readBuf b i = s.readBuf b i) ∧
      (s.bufLen b ≤ i ∨ s.bufCap b ≤ i → step s = .fault (.noValue b i)))

/-- 10_state.md R24, R25, R28, R32 to R36, R41: a host write of a writable register, integer or real, is read back (`CTRL`
keeps bit 0 only) and changes no other register and no buffer, but that a length write leaves its buffer's elements below the
new length and makes those at or above it unspecified (log 10); a host write of any read-only or reserved number changes no
register and no buffer; a value of another kind than the register's changes that register at most (log 15). -/
def Obligations.HostWritesRegisters : Prop :=
  ∀ (s : State) (rest : List HostEvent) (no : Nat),
    (∀ w, s.host = .writeCsr no (.word w) :: rest → no ∈ [0x03, 0x0A, 0x0B, 0x17, 0x18, 0x20, 0x24, 0x26] →
      ∃ t, step s = .next t ∧ t.readCsr no = .word (if no = 0x03 then w &&& 1#32 else w) ∧
        (∀ n, n ≠ no → t.readCsr n = s.readCsr n) ∧
        (∀ i, t.mem.pay.get? i = if no = 0x20 ∧ w.toNat ≤ i then none else s.mem.pay.get? i) ∧
        (∀ i, t.mem.rxb.get? i = if no = 0x24 ∧ w.toNat ≤ i then none else s.mem.rxb.get? i) ∧
        (∀ i, t.mem.bnd.get? i = if no = 0x26 ∧ w.toNat ≤ i then none else s.mem.bnd.get? i) ∧
        { t.mem with pay := s.mem.pay, rxb := s.mem.rxb, bnd := s.mem.bnd } = s.mem) ∧
    (∀ a, s.host = .writeCsr no (.real a) :: rest → no ∈ [0x10, 0x11, 0x12, 0x13, 0x14, 0x15, 0x16, 0x1A] →
      ∃ t, step s = .next t ∧ t.readCsr no = .real a ∧ (∀ n, n ≠ no → t.readCsr n = s.readCsr n) ∧ t.mem = s.mem) ∧
    (∀ v, s.host = .writeCsr no v :: rest →
      no ∉ [0x03, 0x0A, 0x0B, 0x10, 0x11, 0x12, 0x13, 0x14, 0x15, 0x16, 0x17, 0x18, 0x1A, 0x20, 0x24, 0x26] →
      ∃ t, step s = .next t ∧ t.mem = s.mem ∧ ∀ n, t.readCsr n = s.readCsr n) ∧
    (∀ v, s.host = .writeCsr no v :: rest → ∃ t, step s = .next t ∧ ∀ n, n ≠ no → t.readCsr n = s.readCsr n)

/-- 20_memory.md R61: a host write of an element of `PAY`, `RXB` or `BND` below the capacity is what that element then reads
as, and every other element of every buffer and every register reads as before; a write to another buffer, or at or above
the capacity, changes nothing, whatever the value. -/
def Obligations.HostWritesSamples : Prop :=
  ∀ (s : State) (rest : List HostEvent) (b : BufName) (i : Nat) (v : ElemValue), s.host = .writeBuf b i v :: rest →
    ∃ t, step s = .next t ∧ (∀ n, t.readCsr n = s.readCsr n) ∧
      (∀ z, b = .pay → v = .cplx z → i < s.params.capPay →
        (∀ j, t.mem.pay.get? j = if j = i then some z else s.mem.pay.get? j) ∧ { t.mem with pay := s.mem.pay } = s.mem) ∧
      (∀ z, b = .rxb → v = .cplx z → i < s.params.capRxb →
        (∀ j, t.mem.rxb.get? j = if j = i then some z else s.mem.rxb.get? j) ∧ { t.mem with rxb := s.mem.rxb } = s.mem) ∧
      (∀ n, b = .bnd → v = .nat n → i < s.params.capBnd →
        (∀ j, t.mem.bnd.get? j = if j = i then some n else s.mem.bnd.get? j) ∧ { t.mem with bnd := s.mem.bnd } = s.mem) ∧
      (b ∈ [.txo, .scr, .sym, .seq, .pil] → t.mem = s.mem) ∧
      (b = .pay → s.params.capPay ≤ i → t.mem = s.mem) ∧ (b = .rxb → s.params.capRxb ≤ i → t.mem = s.mem) ∧
      (b = .bnd → s.params.capBnd ≤ i → t.mem = s.mem)

/-! ## CFG -/

/-- 40_grid_parameters.md R100 to R107, R112: when the size is legal, the count and the guard length pass, the count fits and
the adjusted indices `p` satisfy the invariant, `CFG` completes and writes the whole record, `PSS_CORR` and `CFGV`, and
nothing else. -/
def Obligations.CfgWritesRecord : Prop :=
  ∀ (n : Half) (ug up : Bool) (s : State) (g pc : Nat) (p : Nat → Nat),
    g = (if ug then s.guardOvr.toNat else
      match n.toNat with
      | 64 => 27 | 128 => 55 | 256 => 75 | 512 => 211 | 1024 => 423 | _ => 847) →
    pc = (if up then s.pilotOvr.toNat else n.toNat / 10) →
    n.toNat ∈ [64, 128, 256, 512, 1024, 2048] → 2 ≤ pc → 1 ≤ g / 2 → g / 2 < n.toNat / 2 → pc ≤ s.params.capPil →
    (∀ k, p k = if k = pc - 1 then n.toNat - g / 2 else
      let x := g / 2 + k * (n.toNat - g / 2 - g / 2) / (pc - 1)
      if x = n.toNat / 2 then n.toNat / 2 + 1 else x) →
    (∀ k, k + 1 < pc → p k < p (k + 1)) →
    (∀ k, k < pc → p k ≠ n.toNat / 2 ∧ g / 2 ≤ p k ∧ p k ≤ n.toNat - g / 2) →
    ∃ t, exec (.cfg n ug up) s = .next t ∧
      t.cfgv = true ∧ (∀ i, i ≠ 0 → t.status.getLsbD i = s.status.getLsbD i) ∧
      t.sizeN = n.toNat ∧ t.sizeCP = n.toNat / 4 ∧ t.grid.guardLen.toNat = g ∧ t.sizePC = pc ∧
      t.grid.nActive.toNat = n.toNat - g / 2 - g / 2 ∧ t.sizeND = n.toNat - g / 2 - g / 2 - pc ∧
      Holds t .pil pc (fun k => .nat (p k)) ∧ t.pssCorr.toNat = n.toNat / 4 ∧
      OnlyChanges [0x00, 0x04, 0x05, 0x06, 0x07, 0x08, 0x09, 0x17, 0x2A] [.pil] s t

/-- 40_grid_parameters.md R101: a size outside `FFT_SET` raises `ConfigError` with the size as information: `ERR`, `CAUSE` and
`INFO` are written, and every other bit of `STATUS`, every other register and every buffer is unchanged, whatever the flags
and the override registers. -/
def Obligations.CfgRejectsUnknownSize : Prop :=
  ∀ (n : Half) (ug up : Bool) (s : State), n.toNat ∉ [64, 128, 256, 512, 1024, 2048] →
    ∃ t, exec (.cfg n ug up) s = .next t ∧ t.err = true ∧ (∀ i, i ≠ 1 → t.status.getLsbD i = s.status.getLsbD i) ∧
      t.readCsr 0x01 = .word 1#32 ∧ t.readCsr 0x02 = .word (n.setWidth 32) ∧ OnlyChanges [0x00, 0x01, 0x02] [] s t

/-- 40_grid_parameters.md R107, R110, 60_exceptions.md R226 (the order for `CFG`): with a legal size, a count below 2 is
reported first, then a guard length that leaves no room, then the capacity of `PIL`, then adjusted pilot indices `p` that
are not strictly increasing, or on the center, or outside `LO .. HI`. -/
def Obligations.CfgChecksInOrder : Prop :=
  ∀ (n : Half) (ug up : Bool) (s : State), n.toNat ∈ [64, 128, 256, 512, 1024, 2048] →
    let g := s.cfgGuard n.toNat ug
    let pc := s.cfgCount n.toNat up
    (pc < 2 → exec (.cfg n ug up) s = .next (s.raise .configError (Word.ofNat pc))) ∧
    (2 ≤ pc → g / 2 < 1 ∨ n.toNat / 2 ≤ g / 2 →
      exec (.cfg n ug up) s = .next (s.raise .configError (Word.ofNat g))) ∧
    (2 ≤ pc → 1 ≤ g / 2 → g / 2 < n.toNat / 2 → s.params.capPil < pc →
      exec (.cfg n ug up) s = .next (s.raise .bufferCapacity (Word.ofNat pc))) ∧
    (2 ≤ pc → 1 ≤ g / 2 → g / 2 < n.toNat / 2 → pc ≤ s.params.capPil →
      ∀ p : Nat → Nat,
      (∀ k, p k = if k = pc - 1 then n.toNat - g / 2 else
        let x := g / 2 + k * (n.toNat - g / 2 - g / 2) / (pc - 1)
        if x = n.toNat / 2 then n.toNat / 2 + 1 else x) →
      (∃ k, k + 1 < pc ∧ p (k + 1) ≤ p k) ∨
        (∃ k, k < pc ∧ (p k = n.toNat / 2 ∨ p k < g / 2 ∨ n.toNat - g / 2 < p k)) →
      exec (.cfg n ug up) s = .next (s.raise .configError (Word.ofNat pc)))

/-- 40_grid_parameters.md R113: the records of the six default `CFG n` commands, the pilot lists written out where the spec
writes them out, from any state whose `PIL` has the capacity 00_scope.md R6 asks for. -/
def Obligations.CfgDefaultGeometries : Prop :=
  ∀ s : State, 204 ≤ s.params.capPil →
    ∀ row ∈ [(64, 16, 27, 13, 51, 32, 6, 38, 32, 80), (128, 32, 55, 27, 101, 64, 12, 74, 62, 160),
        (256, 64, 75, 37, 219, 128, 25, 182, 157, 320), (512, 128, 211, 105, 407, 256, 51, 302, 251, 640),
        (1024, 256, 423, 211, 813, 512, 102, 602, 500, 1280), (2048, 512, 847, 423, 1625, 1024, 204, 1202, 998, 2560)],
      ∃ t, exec (.cfg (BitVec.ofNat 16 row.1) false false) s = .next t ∧ t.cfgv = true ∧
        (t.sizeN, t.sizeCP, t.grid.guardLen.toNat, t.edgeLo, t.edgeHi, t.center, t.sizePC, t.grid.nActive.toNat,
          t.sizeND, t.period) = row ∧
        (row.1 = 64 → t.pilots = [13, 20, 28, 35, 43, 51]) ∧
        (row.1 = 128 → t.pilots = [27, 33, 40, 47, 53, 60, 67, 74, 80, 87, 94, 101]) ∧
        (row.1 = 256 → t.pilots = [37, 44, 52, 59, 67, 74, 82, 90, 97, 105, 112, 120, 129, 135, 143, 150, 158, 165, 173,
          181, 188, 196, 203, 211, 219])

/-- 10_state.md R38, 40_grid_parameters.md R107: with a valid record, `PIL` holds exactly `PILOTCNT` integers, strictly
increasing, in `LO .. HI`, none the center, the first `LO` and the last `HI`. -/
def Obligations.PilotIndicesOfValidRecord : Prop :=
  ∀ s : State, s.GridValid →
    s.bufLen .pil = s.sizePC ∧ (∀ k, s.sizePC ≤ k → s.readBuf .pil k = none) ∧
    (∀ k, k < s.sizePC → s.readBuf .pil k = some (.nat (s.pilAt k)) ∧ s.edgeLo ≤ s.pilAt k ∧ s.pilAt k ≤ s.edgeHi ∧
      s.pilAt k ≠ s.center) ∧
    (∀ j k, j < k → k < s.sizePC → s.pilAt j < s.pilAt k) ∧
    s.pilAt 0 = s.edgeLo ∧ s.pilAt (s.sizePC - 1) = s.edgeHi

/-- 40_grid_parameters.md R108: with a valid record, `A` is the ascending sequence of `LO .. HI` without the center and has
`NACTIVE` members, `D` is `A` without the pilots and has `NDATA` members. -/
def Obligations.ActiveCarrierSets : Prop :=
  ∀ s : State, s.GridValid →
    s.setA.Pairwise (· < ·) ∧ (∀ k, k ∈ s.setA ↔ s.edgeLo ≤ k ∧ k ≤ s.edgeHi ∧ k ≠ s.center) ∧
    s.setD.Pairwise (· < ·) ∧ (∀ k, k ∈ s.setD ↔ k ∈ s.setA ∧ ∀ i, i < s.sizePC → s.pilAt i ≠ k) ∧
    s.setA.length = s.grid.nActive.toNat ∧ s.setD.length = s.sizeND

/-- 40_grid_parameters.md R109: `posA(k) = k - LO - [k > C]` is the position of `k` in `A`, and the pilot row positions are
strictly increasing from 0 to `NA - 1`. -/
def Obligations.PilotRowPositions : Prop :=
  ∀ s : State, s.GridValid →
    (∀ k ∈ s.setA, s.setA[rowPos s.edgeLo s.center k]? = some k) ∧
    s.pilotPos.Pairwise (· < ·) ∧ s.pilotPos.head? = some 0 ∧
    s.pilotPos.getLast? = some (s.grid.nActive.toNat - 1)

/-! ## ZCGEN, PSSGEN -/

/-- 41_sync_sequence.md R120, R121: `ZCGEN` runs with or without a record; a length above the capacity of `SEQ` raises
`BufferCapacity` with the length; else `SEQ` holds the `n` samples `exp(-j·π·u·i·(i+1) / n)`, `LEN_SEQ` is `n` and nothing
else changes. -/
def Obligations.ZcgenWritesSequence : Prop :=
  ∀ (u : Octet) (n : Half) (s : State),
    (s.params.capSeq < n.toNat → exec (.zcgen u n) s = .next (s.raise .bufferCapacity (n.setWidth 32))) ∧
    (n.toNat ≤ s.params.capSeq → ∃ (t : State) (f : Nat → Cplx), exec (.zcgen u n) s = .next t ∧
      Holds t .seq n.toNat (fun i => .cplx (f i)) ∧ OnlyChanges [0x29] [.seq] s t ∧
      ∀ (ρ : Nat → ℝ) (i : Nat), i < n.toNat → (f i).val ρ =
        Complex.exp (-(Complex.I * Real.pi * (u.toNat : ℂ) * i * (i + 1) / (n.toNat : ℂ))))

/-- 41_sync_sequence.md R120: every sample of a Zadoff-Chu sequence has magnitude 1, sample 0 is 1, and a sample depends only
on `(u·n·(n+1)) mod (2N)`. -/
def Obligations.ZadoffChuSamples : Prop :=
  ∀ (ρ : Nat → ℝ) (u len n : Nat), 0 < len →
    ‖(zc u len n).val ρ‖ = 1 ∧ (zc u len 0).val ρ = 1 ∧
    ∀ v m, (u * n * (n + 1)) % (2 * len) = (v * m * (m + 1)) % (2 * len) →
      (zc u len n).val ρ = (zc v len m).val ρ

/-- 41_sync_sequence.md R122, R123: `PSSGEN` runs with or without a record; a `SEQ` of fewer than 62 elements raises
`BufferCapacity` with 62; else `SEQ` holds the 62 samples, which are those of `ZC(u, 63)` with its element 31 left out. -/
def Obligations.PssgenWritesSequence : Prop :=
  ∀ (u : Octet) (s : State),
    (s.params.capSeq < 62 → exec (.pssgen u) s = .next (s.raise .bufferCapacity 62#32)) ∧
    (62 ≤ s.params.capSeq → ∃ (t : State) (f : Nat → Cplx), exec (.pssgen u) s = .next t ∧
      Holds t .seq 62 (fun i => .cplx (f i)) ∧ OnlyChanges [0x29] [.seq] s t ∧
      ∀ (ρ : Nat → ℝ) (i : Nat), i < 62 →
        (f i).val ρ = (if i ≤ 30 then Complex.exp (-(Complex.I * Real.pi * (u.toNat : ℂ) * i * (i + 1) / 63))
          else Complex.exp (-(Complex.I * Real.pi * (u.toNat : ℂ) * (i + 1) * (i + 2) / 63))) ∧
        (f i).val ρ = (zc u.toNat 63 (if i ≤ 30 then i else i + 1)).val ρ)

/-- 41_sync_sequence.md R124: the 62 samples of `PSS62` sit on the 31 indices below and the 31 above the center, and every
other position of `SYNCROW` is zero. -/
def Obligations.SyncRowPlacement : Prop :=
  ∀ u c k : Nat, 31 ≤ c →
    (c - 31 ≤ k → k ≤ c - 1 → syncRow u c k = pss62 u (k - (c - 31))) ∧
    (c + 1 ≤ k → k ≤ c + 31 → syncRow u c k = pss62 u (31 + k - (c + 1))) ∧
    (k = c ∨ k < c - 31 ∨ c + 31 < k → syncRow u c k = Cplx.zero)

/-! ## Transforms -/

/-- 42_modulator.md R136, R137: the two transforms are the sums the rules give, and each undoes the other exactly. -/
def Obligations.TransformsAreInverse : Prop :=
  ∀ (ρ : Nat → ℝ) (n : Nat) (z : Nat → Cplx), 0 < n →
    (∀ m, (idft n z m).val ρ = (1 / (n : ℂ)) *
      ∑ k ∈ Finset.range n, (z k).val ρ * Complex.exp (Complex.I * 2 * Real.pi * k * m / n)) ∧
    (∀ k, (dft n z k).val ρ =
      ∑ m ∈ Finset.range n, (z m).val ρ * Complex.exp (-(Complex.I * 2 * Real.pi * k * m / n))) ∧
    (∀ k, k < n → (dft n (idft n z) k).val ρ = (z k).val ρ) ∧
    (∀ m, m < n → (idft n (dft n z) m).val ρ = (z m).val ρ)

/-! ## MOD -/

/-- 42_modulator.md R130, R131, R134, R138 to R141: with a record, a payload within the capacity and a frame that fits, `MOD`
completes; the frame has `S × P` samples, `S = R + R div 5`, `R = 5 × ceil(R0 / 5)`; sample `i` of symbol `m` is the
cyclic-prefixed inverse transform of the shifted grid row, times `AMP`; the shape registers are as `FLAT` says; nothing else
changes. `R0` is 1 for `L = 0` and `ceil(L / ND)` for `L > 0`; for `L > 0` with an empty data-only set that rule divides by 0
and the model leaves `R0` open (log 11). -/
def Obligations.ModWritesFrame : Prop :=
  ∀ (flat : Bool) (s : State) (r sy : Nat), s.Inv → s.cfgv = true →
    r = 5 * ((s.blockCount + 4) / 5) → sy = r + r / 5 →
    s.payLen ≤ s.params.capPay → sy * s.period ≤ s.params.capTxo →
    (s.payLen = 0 → s.blockCount = 1) ∧
    (0 < s.payLen → 0 < s.sizeND → s.blockCount = (s.payLen + s.sizeND - 1) / s.sizeND) ∧
    ∃ (t : State) (f : Nat → Cplx), exec (.mod flat) s = .next t ∧
      Holds t .txo (sy * s.period) (fun j => .cplx (f j)) ∧
      t.readCsr 0x22 = .word (Word.ofNat (if flat then 1 else sy)) ∧
      t.readCsr 0x23 = .word (Word.ofNat (if flat then sy * s.period else s.period)) ∧
      OnlyChanges [0x21, 0x22, 0x23] [.txo] s t ∧
      ∀ (ρ : Nat → ℝ) (m i : Nat), m < sy → i < s.period → (f (m * s.period + i)).val ρ =
        (s.consts.txAmplitude.val ρ : ℂ) *
          (idft s.sizeN (shift s.sizeN (s.gridRow s.pilots s.setD m))
            (if i < s.sizeCP then s.sizeN - s.sizeCP + i else i - s.sizeCP)).val ρ

/-- 42_modulator.md R132, R133: with a valid record, row `m` of the grid is `SYNCROW` when `m` is a multiple of 6, and else
holds the data row `5·(m div 6) + (m mod 6) - 1`: the padded payload block on the data-only indices in ascending order, the
pilot value on the pilots, zero elsewhere. -/
def Obligations.GridRowsHoldPayloadAndPilots : Prop :=
  ∀ (s : State) (m : Nat), s.GridValid →
    (m % 6 = 0 → s.gridRow s.pilots s.setD m = syncRow s.root s.center) ∧
    (m % 6 ≠ 0 →
      (∀ i k, s.setD[i]? = some k → s.gridRow s.pilots s.setD m k =
        (let j := (5 * (m / 6) + (m % 6 - 1)) * s.sizeND + i
         if j < s.payLen then s.payAt j else Cplx.zero)) ∧
      (∀ i, i < s.sizePC → s.gridRow s.pilots s.setD m (s.pilAt i) = s.consts.pilotValue) ∧
      (∀ k, k < s.edgeLo ∨ s.edgeHi < k ∨ k = s.center → s.gridRow s.pilots s.setD m k = Cplx.zero))

/-- 42_modulator.md R145 (b): the prefix of every symbol repeats its tail: sample `i` of symbol `m` equals sample `i + N`. -/
def Obligations.CyclicPrefixRepeatsTail : Prop :=
  ∀ (flat : Bool) (s t : State) (m i : Nat), s.Inv → s.cfgv = true → exec (.mod flat) s = .next t → t.err = false →
    i < s.sizeCP → (m + 1) * s.period ≤ t.bufLen .txo →
    t.readBuf .txo (m * s.period + i) = t.readBuf .txo (m * s.period + i + s.sizeN)

/-- 42_modulator.md R145 (c): the forward transform of the body of a symbol, shifted, is `AMP` times its grid row. -/
def Obligations.BodySpectrumIsGridRow : Prop :=
  ∀ (ρ : Nat → ℝ) (s : State) (m k : Nat), s.GridValid → k < s.sizeN →
    (shift s.sizeN (dft s.sizeN fun i => s.frameSample s.pilots s.setD m (s.sizeCP + i)) k).val ρ =
      (s.consts.txAmplitude.val ρ : ℂ) * (s.gridRow s.pilots s.setD m k).val ρ

/-- 42_modulator.md R142: with a record, a payload length above the capacity of `PAY` is reported first, then a frame that
does not fit `TXO`, each with the length that did not fit (the number of payload blocks as in `ModWritesFrame`; a length of
more than 32 bits, which 00_scope.md R8 says does not occur, is left open, log 14). -/
def Obligations.ModCapacityFaults : Prop :=
  ∀ (flat : Bool) (s : State), s.cfgv = true →
    (s.params.capPay < s.payLen → exec (.mod flat) s = .next (s.raise .bufferCapacity s.len.pay)) ∧
    (s.payLen ≤ s.params.capPay → ∀ r, r = 5 * ((s.blockCount + 4) / 5) → s.params.capTxo < (r + r / 5) * s.period →
      ∃ info, exec (.mod flat) s = .next (s.raise .bufferCapacity info) ∧
        ((r + r / 5) * s.period < 4294967296 → info = Word.ofNat ((r + r / 5) * s.period)))

/-! ## SYNCCP, SYNCPSS -/

/-- 43_timing_sync.md R150, R151, R152: with an exact comparison, the four forms of the correlation primitive stand for the
sums and quotients of the rules, a quotient by a zero norm being 0, and a normalised plain correlation has magnitude at
most 1. -/
def Obligations.CorrelationValues : Prop :=
  ∀ (ρ : Nat → ℝ) (lt : RNum → RNum → Bool) (n : Nat) (a b : Nat → Cplx), ExactLt ρ lt →
    let nrm (x : Nat → Cplx) := Real.sqrt (∑ t ∈ Finset.range n, ‖(x t).val ρ‖ ^ 2)
    let rc (p q : Nat → ℝ) := ∑ t ∈ Finset.range n, p t * q t
    let nr (p : Nat → ℝ) := Real.sqrt (∑ t ∈ Finset.range n, p t * p t)
    let c := ∑ t ∈ Finset.range n, (starRingEnd ℂ) ((a t).val ρ) * (b t).val ρ
    let ra := fun t => ((a t).val ρ).re
    let rb := fun t => ((b t).val ρ).re
    let ia := fun t => ((a t).val ρ).im
    let ib := fun t => ((b t).val ρ).im
    (corr lt n a b false false).val ρ = c ∧
    (corr lt n a b true false).val ρ = (if nrm a = 0 ∨ nrm b = 0 then 0 else c / (nrm a * nrm b : ℝ)) ∧
    (corr lt n a b false true).val ρ = ⟨rc ra rb, rc ia ib⟩ ∧
    (corr lt n a b true true).val ρ =
      ⟨if nr ra = 0 ∨ nr rb = 0 then 0 else rc ra rb / (nr ra * nr rb),
        if nr ia = 0 ∨ nr ib = 0 then 0 else rc ia ib / (nr ia * nr ib)⟩ ∧
    ‖(corr lt n a b true false).val ρ‖ ≤ 1

/-- 43_timing_sync.md R156, R164: with an exact comparison, scores that are not negative are divided by their maximum, the
largest becoming 1, and are all 0 when the maximum is 0. -/
def Obligations.ScoresAreNormalised : Prop :=
  ∀ (ρ : Nat → ℝ) (lt : RNum → RNum → Bool) (raw : List RNum), ExactLt ρ lt → (∀ a ∈ raw, 0 ≤ a.val ρ) →
    (normalise lt raw).length = raw.length ∧
    ((∀ a ∈ raw, a.val ρ = 0) → ∀ a ∈ normalise lt raw, a.val ρ = 0) ∧
    ((∃ a ∈ raw, 0 < a.val ρ) → ∃ mx ∈ raw, 0 < mx.val ρ ∧ (∀ a ∈ raw, a.val ρ ≤ mx.val ρ) ∧
      (∀ (i : Nat) (a : RNum), raw[i]? = some a → ((RNum.nth (normalise lt raw) i).val ρ = a.val ρ / mx.val ρ)) ∧
      ∃ b ∈ normalise lt raw, b.val ρ = 1)

/-- 43_timing_sync.md R156 to R159: with an exact comparison, `b` is a boundary exactly when some score is not 0 (whatever the
thresholds are: log 22), and some window that starts at a multiple `w × P` below `Lscan` and ends at the earlier of its period
and the buffer has its first maximum at `b`, that maximum exceeds the acceptance threshold, and the whole symbol lies in the
buffer. -/
def Obligations.AcceptedBoundaries : Prop :=
  ∀ (ρ : Nat → ℝ) (lt : RNum → RNum → Bool) (thA thF : RNum) (m p : Nat) (score : List RNum) (b : Nat),
    ExactLt ρ lt → 0 < p → p ≤ m → score.length = m →
    let v := fun i => (RNum.nth score i).val ρ
    let lscan := if thF.val ρ < v 0 then m else m - p
    b ∈ cpBoundaries lt thA thF m p score ↔
      (∃ i, i < m ∧ v i ≠ 0) ∧ ∃ w, w * p < lscan ∧ w * p ≤ b ∧ b < min (w * p + p) m ∧
        (∀ i, w * p ≤ i → i < min (w * p + p) m → v i ≤ v b) ∧ (∀ i, w * p ≤ i → i < b → v i < v b) ∧
        thA.val ρ < v b ∧ b + p ≤ m

/-- 43_timing_sync.md R159, R160, R170: whatever comparison is made, the boundaries of `SYNCCP` are strictly increasing and
mark whole symbols of the buffer, at most one in each window. -/
def Obligations.CpBoundariesAscendInBuffer : Prop :=
  ∀ (lt : RNum → RNum → Bool) (thA thF : RNum) (m p : Nat) (score : List RNum), 0 < p → p ≤ m → score.length = m →
    (cpBoundaries lt thA thF m p score).Pairwise (· < ·) ∧
    (∀ b ∈ cpBoundaries lt thA thF m p score, b + p ≤ m) ∧
    (cpBoundaries lt thA thF m p score).Pairwise (fun a b => a / p < b / p)

/-- 43_timing_sync.md R153, R154, R160, R161: with a record and at least one symbol period of samples within the capacity, a
boundary list that does not fit `BND` raises `BufferCapacity` with its length; else `SYNCCP` completes: `SCR` holds one score
for each offset, `BND` the accepted boundaries, `DETF` says whether the list is empty, and nothing else changes. The
comparisons are those of the model's `RNum.lt`, which is exact (`ComparisonIsExact`, log 2), so that `CorrelationValues`,
`ScoresAreNormalised` and `AcceptedBoundaries` say what these scores and boundaries are. -/
def Obligations.SynccpWritesScoresAndBoundaries : Prop :=
  ∀ s : State, s.Inv → s.cfgv = true → s.rxLen ≤ s.params.capRxb → s.period ≤ s.rxLen →
    let score := normalise RNum.lt (tabulate s.rxLen fun i =>
      (corr RNum.lt s.sizeCP (fun t => s.rxbAt ((i + t) % s.rxLen)) (fun t => s.rxbAt ((i + s.sizeN + t) % s.rxLen)) true
        (s.ctrl.getLsbD 0)).abs)
    let list := cpBoundaries RNum.lt s.tuning.thCpAccept s.tuning.thCpFirst s.rxLen s.period score
    (s.params.capBnd < list.length → exec .synccp s = .next (s.raise .bufferCapacity (Word.ofNat list.length))) ∧
    (list.length ≤ s.params.capBnd →
      ∃ t, exec .synccp s = .next t ∧ Holds t .scr s.rxLen (fun i => .real (RNum.nth score i)) ∧
        Holds t .bnd list.length (fun i => .nat (list.getD i 0)) ∧ t.detf = list.isEmpty ∧
        (∀ i, i ≠ 2 → t.status.getLsbD i = s.status.getLsbD i) ∧
        OnlyChanges [0x00, 0x25, 0x26] [.scr, .bnd] s t)

/-- 43_timing_sync.md R161, R169: with a record, each timing command reports a sample count above the capacity of `RXB` first,
then one below a symbol period, with the count as information. The last fault of the two, a list that does not fit `BND`, is
in `SynccpWritesScoresAndBoundaries` and `SyncpssWritesScoresAndBoundaries`. -/
def Obligations.TimingLengthFaults : Prop :=
  ∀ s : State, s.cfgv = true →
    (s.params.capRxb < s.rxLen → exec .synccp s = .next (s.raise .bufferCapacity s.len.rxb) ∧
      ∀ th, exec (.syncpss th) s = .next (s.raise .bufferCapacity s.len.rxb)) ∧
    (s.rxLen ≤ s.params.capRxb → s.rxLen < s.period → exec .synccp s = .next (s.raise .bufferTooShort s.len.rxb) ∧
      ∀ th, exec (.syncpss th) s = .next (s.raise .bufferTooShort s.len.rxb))

/-- 43_timing_sync.md R152, R156, R164, R171: on a buffer of zeros `SYNCCP` and `SYNCPSS` complete without a fault, find no
boundary and set `DETF`, whatever the thresholds are (92_eei_decisions.md D47 over the bare comparison of R165; log 22).
`SYNCPSS` keeps `FRAME_START`, as R168 says where no first offset was found; that there is none at a negative threshold either
is the model's reading of D47, which names only the list and `DETF` (log 22). -/
def Obligations.SilenceIsNoFrame : Prop :=
  ∀ s : State, s.Inv → s.cfgv = true → s.rxLen ≤ s.params.capRxb → s.period ≤ s.rxLen →
    (∀ i, i < s.rxLen → s.rxbAt i = Cplx.zero) →
    (∃ t, exec .synccp s = .next t ∧ t.detf = true ∧ t.bufLen .bnd = 0 ∧ t.err = s.err ∧
      ∀ i, i < s.rxLen → t.readBuf .scr i = some (.real .zero)) ∧
    ∀ th, ∃ t, exec (.syncpss th) s = .next t ∧ t.detf = true ∧ t.bufLen .bnd = 0 ∧ t.err = s.err ∧
      t.frameStart = s.frameStart

/-- 43_timing_sync.md R167: the boundary list of a frame start `f` is exactly the terms `o = f + k × P` with `0 ≤ o` and
`o + P ≤ M`, ascending. -/
def Obligations.ProgressionFromFrameStart : Prop :=
  ∀ (f : Int) (m p : Nat), 0 < p →
    (progression f m p).Pairwise (· < ·) ∧
    ∀ o : Nat, o ∈ progression f m p ↔ o + p ≤ m ∧ ∃ k : Nat, (o : Int) = f + (k : Int) * (p : Int)

/-- 43_timing_sync.md R162 to R169: with a record and at least one symbol period of samples within the capacity, a list that
does not fit `BND` raises `BufferCapacity` with its length; else `SYNCPSS` completes: `SCR` holds the `M - N + 1` scores, `BND`
the progression from the first offset above the selected threshold less `PSS_CORR` (empty when there is none, and when every
score is 0, whatever the threshold is: log 22), `FRAME_START` that start where it fits the register (log 12) and what it was
where there is no first offset, which the model takes to include scores that are all 0 (log 22), `DETF` whether the list is
empty; nothing else changes. The comparisons are those of the model's `RNum.lt`, which is exact
(`ComparisonIsExact`, log 2). -/
def Obligations.SyncpssWritesScoresAndBoundaries : Prop :=
  ∀ (th : Bool) (s : State), s.Inv → s.cfgv = true → s.rxLen ≤ s.params.capRxb → s.period ≤ s.rxLen →
    let ref := tabulate s.sizeN (idft s.sizeN (shift s.sizeN (syncRow s.consts.syncRoot.toNat (s.sizeN / 2))))
    let score := normalise RNum.lt (tabulate (s.rxLen - s.sizeN + 1) fun i =>
      (corr RNum.lt s.sizeN (Cplx.nth ref) (fun t => s.rxbAt (i + t)) false (s.ctrl.getLsbD 0)).abs)
    ∀ first : Option Nat, ((∀ a ∈ score, a.val Config.atomValue = 0) → first = none) →
    ((∃ a ∈ score, a.val Config.atomValue ≠ 0) →
      first = score.findIdx? fun a => RNum.lt (if th then s.tuning.thPssFreq else s.tuning.thPssTime) a) →
    let list := match first with
      | some i => progression ((i : Int) - s.pssCorr.toInt) s.rxLen s.period
      | none => []
    (s.params.capBnd < list.length → exec (.syncpss th) s = .next (s.raise .bufferCapacity (Word.ofNat list.length))) ∧
    (list.length ≤ s.params.capBnd →
      ∃ t, exec (.syncpss th) s = .next t ∧
        Holds t .scr (s.rxLen - s.sizeN + 1) (fun i => .real (RNum.nth score i)) ∧
        Holds t .bnd list.length (fun i => .nat (list.getD i 0)) ∧ t.detf = list.isEmpty ∧
        (first = none → t.frameStart = s.frameStart) ∧
        (∀ i : Nat, first = some i → -2147483648 ≤ (i : Int) - s.pssCorr.toInt →
          (i : Int) - s.pssCorr.toInt < 2147483648 → t.frameStart.toInt = (i : Int) - s.pssCorr.toInt) ∧
        (∀ i, i ≠ 2 → t.status.getLsbD i = s.status.getLsbD i) ∧
        OnlyChanges [0x00, 0x18, 0x25, 0x26] [.scr, .bnd] s t)

/-! ## CFOEST, CFOROT, CFOCORR -/

/-- 44_cfo.md R180, R181, R182: with a record, samples within the capacity and a frame start whose symbol lies in the buffer,
`CFOEST` completes: `CFO_PHASE` is the angle of the dot product of the reference with the body of that symbol, `CFO_HZ` that
angle times `SCS_HZ / 2π`, at most half the spacing in size; nothing else changes. -/
def Obligations.CfoestEstimatesOffset : Prop :=
  ∀ s : State, s.cfgv = true → s.rxLen ≤ s.params.capRxb → 0 ≤ s.frameStart.toInt →
    s.frameStart.toInt + (s.period : Int) ≤ (s.rxLen : Int) →
    ∃ t, exec .cfoest s = .next t ∧ OnlyChanges [0x19, 0x1A] [] s t ∧
      ∀ ρ : Nat → ℝ,
        t.cfoPhase.val ρ = Complex.arg (∑ i ∈ Finset.range s.sizeN,
          (starRingEnd ℂ) ((syncRef s.consts.syncRoot.toNat s.sizeN i).val ρ) *
            (s.rxbAt (s.frameStart.toInt.toNat + s.sizeCP + i)).val ρ) ∧
        t.cfoHz.val ρ = t.cfoPhase.val ρ * s.consts.scsHz.val ρ / (2 * Real.pi) ∧
        (0 ≤ s.consts.scsHz.val ρ → |t.cfoHz.val ρ| ≤ s.consts.scsHz.val ρ / 2)

/-- 44_cfo.md R183: with a record and samples within the capacity, `CFOROT` completes: every sample of `RXB` is multiplied by
`exp(-j·2π·hz·n / FS)`, which changes no magnitude and leaves sample 0; `LEN_RXB` and everything else is unchanged. With
`LEN_RXB = 0` nothing changes at all. -/
def Obligations.CforotDerotatesBuffer : Prop :=
  ∀ s : State, s.cfgv = true → s.rxLen ≤ s.params.capRxb →
    ∃ (t : State) (f : Nat → Cplx), exec .cforot s = .next t ∧ OnlyChanges [] [.rxb] s t ∧
      Holds t .rxb s.rxLen (fun n => .cplx (f n)) ∧ (s.rxLen = 0 → t = s) ∧
      ∀ (ρ : Nat → ℝ) (n : Nat), n < s.rxLen →
        (f n).val ρ = (s.rxbAt n).val ρ * Complex.exp (-(Complex.I * 2 * Real.pi * (s.cfoHz.val ρ : ℂ) * n /
          ((s.sizeN : ℂ) * (s.consts.scsHz.val ρ : ℂ)))) ∧
        ‖(f n).val ρ‖ = ‖(s.rxbAt n).val ρ‖ ∧ (n = 0 → (f n).val ρ = (s.rxbAt n).val ρ)

/-- 44_cfo.md R184: when the checks of both pass, `CFOCORR` completes with exactly the state that `CFOEST` and then `CFOROT`
leave. -/
def Obligations.CfocorrIsEstimateThenDerotate : Prop :=
  ∀ s : State, s.cfgv = true → s.rxLen ≤ s.params.capRxb → 0 ≤ s.frameStart.toInt →
    s.frameStart.toInt + (s.period : Int) ≤ (s.rxLen : Int) →
    ∃ t1 t2, exec .cfoest s = .next t1 ∧ exec .cforot t1 = .next t2 ∧ exec .cfocorr s = .next t2

/-- 44_cfo.md R186, R183: with a record, a sample count above the capacity is reported first by all three commands, then
`CFOEST` and `CFOCORR` report a frame start whose symbol is not wholly in the buffer, with the pattern of `FRAME_START`. -/
def Obligations.CfoFaults : Prop :=
  ∀ s : State, s.cfgv = true →
    (s.params.capRxb < s.rxLen → exec .cfoest s = .next (s.raise .bufferCapacity s.len.rxb) ∧
      exec .cforot s = .next (s.raise .bufferCapacity s.len.rxb) ∧
      exec .cfocorr s = .next (s.raise .bufferCapacity s.len.rxb)) ∧
    (s.rxLen ≤ s.params.capRxb →
      s.frameStart.toInt < 0 ∨ (s.rxLen : Int) < s.frameStart.toInt + (s.period : Int) →
      exec .cfoest s = .next (s.raise .bufferRange s.frameStart) ∧
      exec .cfocorr s = .next (s.raise .bufferRange s.frameStart))

/-- 44_cfo.md R185 (a): when the received copy is a positive real multiple of the reference, the estimate is 0. -/
def Obligations.ZeroOffsetEstimatesZero : Prop :=
  ∀ (ρ : Nat → ℝ) (s t : State) (a : ℝ), s.cfgv = true → exec .cfoest s = .next t → t.err = false → 0 < a →
    (∀ i, i < s.sizeN → (s.rxbAt (s.frameStart.toInt.toNat + s.sizeCP + i)).val ρ =
      (a : ℂ) * (syncRef s.consts.syncRoot.toNat s.sizeN i).val ρ) →
    t.cfoPhase.val ρ = 0 ∧ t.cfoHz.val ρ = 0

/-! ## DEMOD -/

/-- 45_demodulator.md R190, R192 to R196, R203, R207: with no equalization, strip, skip or rejection, `DEMOD` completes when
every used boundary's symbol lies in the buffer and the rows fit `SYM`: element `r × W + p` is the received value, the
forward transform of the body of the `r`-th used boundary's symbol, at the `p`-th extracted index; nothing else changes. -/
def Obligations.DemodExtractsCarriers : Prop :=
  ∀ (sub xs : Bool) (s : State) (used idx : List Nat), s.Inv → s.cfgv = true → s.rxLen ≤ s.params.capRxb →
    s.bndLen ≤ s.params.capBnd →
    used = (if xs then ((tabulate s.bndLen s.bndAt).zipIdx.filter fun b => decide (b.2 % 6 ≠ 0)).map Prod.fst
      else tabulate s.bndLen s.bndAt) →
    idx = (if sub then s.setD else s.setA) →
    (∀ b ∈ used, b + s.period ≤ s.rxLen) → used.length * idx.length ≤ s.params.capSym →
    ∃ (t : State) (f : Nat → Cplx), exec (.demod sub xs false false false false false) s = .next t ∧
      OnlyChanges [0x27, 0x28] [.sym] s t ∧ t.readCsr 0x28 = .word (Word.ofNat idx.length) ∧
      Holds t .sym (used.length * idx.length) (fun i => .cplx (f i)) ∧
      ∀ (ρ : Nat → ℝ) (r p b k : Nat), used[r]? = some b → idx[p]? = some k → (f (r * idx.length + p)).val ρ =
        ∑ n ∈ Finset.range s.sizeN, (s.rxbAt (b + s.sizeCP + n)).val ρ *
          Complex.exp (-(Complex.I * 2 * Real.pi * (((k + s.sizeN / 2) % s.sizeN : Nat) : ℂ) * n / (s.sizeN : ℂ)))

/-- 45_demodulator.md R192, R195, R201 to R208: with a record, lengths within the capacities, every used boundary's symbol in
the buffer and no `EQ` on data-only rows, `DEMOD` with any legal flags either reports, with `AQ`, the least position of
interpolated amplitude 0 in the first row that has one (which of several is reported is the model's choice, log 13), or a
stream longer than `SYM` (with its length, where that fits 32 bits, log 14), or completes: `SYM` holds the rows, equalized and
stripped as the flags say, flattened, the first row's width dropped with `SK`, the outliers rejected with `OR`; `SYM_COLS` is
the row width; nothing else changes. The outliers are rejected with the model's `RNum.lt`, which is exact
(`ComparisonIsExact`, log 2); `EqualizationRestoresPilots` and `OutlierRejectionKeepsBand` say what the two operations give. -/
def Obligations.DemodWritesStream : Prop :=
  ∀ (sub xs eq aq ps sk orj : Bool) (s : State) (used : List Nat) (rows : List (List Cplx)) (w : Nat) (x y : List Cplx),
    s.Inv → s.cfgv = true → s.rxLen ≤ s.params.capRxb → s.bndLen ≤ s.params.capBnd →
    Instr.WellFormed (.demod sub xs eq aq ps sk orj) → ¬ (eq = true ∧ sub = true) →
    used = (if xs then ((tabulate s.bndLen s.bndAt).zipIdx.filter fun b => decide (b.2 % 6 ≠ 0)).map Prod.fst
      else tabulate s.bndLen s.bndAt) →
    (∀ b ∈ used, b + s.period ≤ s.rxLen) →
    rows = (used.map fun b => (if sub then s.setD else s.setA).map (s.received b)) →
    w = (if sub || ps then s.sizeND else s.grid.nActive.toNat) →
    x = ((rows.map fun h =>
      let e := if eq then equalize s.pilotPos s.consts.pilotValue aq h else h
      if ps then strip s.pilotPos e else e).flatten).drop (if sk then w else 0) →
    y = (if orj then outlier RNum.lt s.tuning x else x) →
    let go := exec (.demod sub xs eq aq ps sk orj) s
    let zero (r pos : Nat) : Prop := ∃ h, rows[r]? = some h ∧ pos < h.length ∧
      (interpolate (ampPoints s.pilotPos h) pos).val Config.atomValue = 0
    (aq = true → ∀ r pos, zero r pos → (∀ r' pos', r' < r → ¬ zero r' pos') → (∀ pos', pos' < pos → ¬ zero r pos') →
      go = .next (s.raise .divideByZero (Word.ofNat pos))) ∧
    ((aq = true → ∀ r pos, ¬ zero r pos) →
      (s.params.capSym < y.length → ∃ info, go = .next (s.raise .bufferCapacity info) ∧
        (y.length < 4294967296 → info = Word.ofNat y.length)) ∧
      (y.length ≤ s.params.capSym → ∃ t, go = .next t ∧ Holds t .sym y.length (fun i => .cplx (Cplx.nth y i)) ∧
        t.readCsr 0x28 = .word (Word.ofNat w) ∧ OnlyChanges [0x27, 0x28] [.sym] s t))

/-- 45_demodulator.md R208, 60_exceptions.md R220: with a record, the faults of `DEMOD` up to `BufferRange`, in their order;
a boundary of more than 32 bits, which 00_scope.md R8 says does not occur, leaves `INFO` open (log 14). -/
def Obligations.DemodFaultsInOrder : Prop :=
  ∀ (sub xs eq aq ps sk orj : Bool) (s : State), s.cfgv = true →
    let go := exec (.demod sub xs eq aq ps sk orj) s
    (s.params.capRxb < s.rxLen → go = .next (s.raise .bufferCapacity s.len.rxb)) ∧
    (s.rxLen ≤ s.params.capRxb → s.params.capBnd < s.bndLen → go = .next (s.raise .bufferCapacity s.len.bnd)) ∧
    (s.rxLen ≤ s.params.capRxb → s.bndLen ≤ s.params.capBnd → eq = true → sub = true →
      go = .next (s.raise .pilotGeometry 0#32)) ∧
    (s.rxLen ≤ s.params.capRxb → s.bndLen ≤ s.params.capBnd → (eq = true → sub = false ∧ 2 ≤ s.sizePC) →
      ∀ (j : Nat), j < s.bndLen → ¬ (xs = true ∧ j % 6 = 0) → s.rxLen < s.bndAt j + s.period →
      (∀ i, i < j → ¬ (xs = true ∧ i % 6 = 0) → s.bndAt i + s.period ≤ s.rxLen) →
      ∃ info, go = .next (s.raise .bufferRange info) ∧
        (s.bndAt j < 4294967296 → info = Word.ofNat (s.bndAt j)))

/-- 45_demodulator.md R209: with no used boundary (`K = 0`, or `XS = 1` and `K = 1`) `DEMOD` completes with an empty result
and the row width, for every legal combination of the flags other than `EQ` with `SUB`; `STATUS` does not change. -/
def Obligations.DemodOfNoBoundaryIsEmpty : Prop :=
  ∀ (sub xs eq aq ps sk orj : Bool) (s : State), s.Inv → s.cfgv = true → s.rxLen ≤ s.params.capRxb →
    s.bndLen ≤ s.params.capBnd → Instr.WellFormed (.demod sub xs eq aq ps sk orj) → ¬ (eq = true ∧ sub = true) →
    s.bndLen = 0 ∨ (xs = true ∧ s.bndLen = 1) →
    ∃ t, exec (.demod sub xs eq aq ps sk orj) s = .next t ∧ t.bufLen .sym = 0 ∧ (∀ i, t.readBuf .sym i = none) ∧
      t.readCsr 0x28 = .word (if sub || ps then s.grid.nData else s.grid.nActive) ∧ t.status = s.status ∧
      OnlyChanges [0x27, 0x28] [.sym] s t

/-- 45_demodulator.md R198, R199: between two neighbouring pilot positions the interpolated value is on the straight line in
the row position, at a pilot position it is the pilot's own, and it is held beyond the first and the last. -/
def Obligations.InterpolationIsPiecewiseLinear : Prop :=
  ∀ (ρ : Nat → ℝ) (points : List (Nat × RNum)), (points.map Prod.fst).Pairwise (· < ·) →
    (∀ c ∈ points, (interpolate points c.1).val ρ = c.2.val ρ) ∧
    (∀ (i q0 q1 : Nat) (v0 v1 : RNum) (pos : Nat), points[i]? = some (q0, v0) → points[i + 1]? = some (q1, v1) →
      q0 ≤ pos → pos ≤ q1 → (interpolate points pos).val ρ =
        v0.val ρ + (v1.val ρ - v0.val ρ) * ((pos : ℝ) - q0) / ((q1 : ℝ) - q0)) ∧
    (∀ q0 v0 pos, points.head? = some (q0, v0) → pos ≤ q0 → (interpolate points pos).val ρ = v0.val ρ) ∧
    (∀ q1 v1 pos, points.getLast? = some (q1, v1) → q1 ≤ pos → (interpolate points pos).val ρ = v1.val ρ)

/-- 45_demodulator.md R197, R200, R201: the phase estimate of a pilot is its angle less that of the pilot value and its
amplitude estimate its magnitude; every position of a row is multiplied by `exp(-j × TH)` of its interpolated phase, and with
the amplitude correction by `|PV| / AM` of its interpolated amplitude as well. So every pilot keeps its magnitude and gets the
angle of the pilot value, and with the amplitude correction becomes the pilot value itself, where it was received as anything
but 0. -/
def Obligations.EqualizationRestoresPilots : Prop :=
  ∀ (ρ : Nat → ℝ) (q : List Nat) (pv : Cplx) (h : List Cplx),
    ((phasePoints q pv h).map Prod.fst = q ∧
      ∀ c ∈ phasePoints q pv h, c.2.val ρ = ((Cplx.nth h c.1).val ρ).arg - (pv.val ρ).arg) ∧
    ((ampPoints q h).map Prod.fst = q ∧ ∀ c ∈ ampPoints q h, c.2.val ρ = ‖(Cplx.nth h c.1).val ρ‖) ∧
    (∀ aq, (equalize q pv aq h).length = h.length) ∧
    (∀ pos, pos < h.length →
      let turned := (Cplx.nth h pos).val ρ *
        Complex.exp (-(Complex.I * ((interpolate (phasePoints q pv h) pos).val ρ : ℂ)))
      (Cplx.nth (equalize q pv false h) pos).val ρ = turned ∧
      (Cplx.nth (equalize q pv true h) pos).val ρ =
        turned * (‖pv.val ρ‖ : ℂ) / ((interpolate (ampPoints q h) pos).val ρ : ℂ)) ∧
    (q.Pairwise (· < ·) → ∀ pos, pos ∈ q → pos < h.length →
      (Cplx.nth (equalize q pv false h) pos).val ρ =
        (‖(Cplx.nth h pos).val ρ‖ : ℂ) * Complex.exp ((pv.val ρ).arg * Complex.I) ∧
      ((Cplx.nth h pos).val ρ ≠ 0 → (Cplx.nth (equalize q pv true h) pos).val ρ = pv.val ρ))

/-- 45_demodulator.md R202: with a valid record, the pilot strip of a row over `A` leaves exactly the values at the data-only
indices, in ascending order. -/
def Obligations.PilotStripLeavesData : Prop :=
  ∀ (s : State) (f : Nat → Cplx), s.GridValid → strip s.pilotPos (s.setA.map f) = s.setD.map f

/-- 45_demodulator.md R205, R206, R211 (b): with an exact comparison, rejection scales the stream so that its peak magnitude
is `OUT_RADIUS` and keeps, in order, exactly the scaled samples whose magnitude lies strictly inside the band; a stream that
is empty or whose peak is 0 is not scaled. -/
def Obligations.OutlierRejectionKeepsBand : Prop :=
  ∀ (ρ : Nat → ℝ) (lt : RNum → RNum → Bool) (t : Tuning) (y : List Cplx) (mx : ℝ), ExactLt ρ lt →
    (∀ z ∈ y, ‖z.val ρ‖ ≤ mx) → y = [] ∨ (∃ z ∈ y, ‖z.val ρ‖ = mx) →
    let scaled := y.map fun z => if mx = 0 then z.val ρ else z.val ρ * (t.outRadius.val ρ : ℂ) / (mx : ℂ)
    let keep := fun z : ℂ => t.outLo.val ρ < ‖z‖ ∧ ‖z‖ < t.outHi.val ρ
    (∀ z ∈ outlier lt t y, keep (z.val ρ)) ∧
    (∃ inside : ℂ → Bool, (∀ z, inside z = true ↔ keep z) ∧
      (outlier lt t y).map (fun z => z.val ρ) = scaled.filter inside)

/-- 45_demodulator.md R212 with `AQ = 0`: a frame made by `MOD` from exactly `ND` symbols, copied to `RXB` with the six
boundaries of its slot, is recovered by `DEMOD xs, eq, ps` as `AMP` times the payload, followed by zeros. -/
def Obligations.RoundTripUpToAmplitude : Prop :=
  ∀ (ρ : Nat → ℝ) (s s1 s2 : State), s.Inv → s.cfgv = true → 0 < s.sizeND → s.payLen = s.sizeND →
    exec (.mod true) s = .next s1 → s1.err = false →
    s1.bufLen .txo ≤ s1.params.capRxb → 6 ≤ s1.params.capBnd → 5 * s.sizeND ≤ s1.params.capSym →
    s2 = { s1 with
      mem := { s1.mem with rxb := s1.mem.txo, bnd := .ofList (tabulate 6 fun k => k * s1.period) }
      len := { s1.len with rxb := s1.len.txo, bnd := 6#32 } } →
    ∃ (t : State) (f : Nat → Cplx), exec (.demod false true true false true false false) s2 = .next t ∧
      t.err = false ∧ Holds t .sym (5 * s.sizeND) (fun i => .cplx (f i)) ∧
      ∀ i, i < 5 * s.sizeND → (f i).val ρ =
        if i < s.sizeND then (s.consts.txAmplitude.val ρ : ℂ) * (s.payAt i).val ρ else 0

/-- 45_demodulator.md R212: under the same conditions `DEMOD.RT` completes and recovers the payload itself, followed by zeros. -/
def Obligations.RoundTripRecoversPayload : Prop :=
  ∀ s s1 s2 : State, s.Inv → s.cfgv = true → 0 < s.sizeND → s.payLen = s.sizeND →
    exec (.mod true) s = .next s1 → s1.err = false →
    s1.bufLen .txo ≤ s1.params.capRxb → 6 ≤ s1.params.capBnd → 5 * s.sizeND ≤ s1.params.capSym →
    s2 = { s1 with
      mem := { s1.mem with rxb := s1.mem.txo, bnd := .ofList (tabulate 6 fun k => k * s1.period) }
      len := { s1.len with rxb := s1.len.txo, bnd := 6#32 } } →
    ∃ (t : State) (f : Nat → Cplx), exec .demodRt s2 = .next t ∧
      t.err = false ∧ Holds t .sym (5 * s.sizeND) (fun i => .cplx (f i)) ∧
      ∀ (ρ : Nat → ℝ) (i : Nat), i < 5 * s.sizeND → (f i).val ρ = if i < s.sizeND then (s.payAt i).val ρ else 0
end

