-- ==== Sys2Proof/Laws/Buf.lean ====
section
/-! SUPPORT. Buffers: a read after a write, and the one form every operation keeps (20_memory.md R60, 10_state.md
R41). -/

namespace Sys2Proof.Machine

variable {α : Type}

/-! ## Reading back -/

theorem cellAt_put_same (i : Nat) (v : α) (l : List (Nat × α)) : cellAt (cellPut i v l) i = some v := by
  induction l with
  | nil => simp [cellPut, cellAt]
  | cons c l ih =>
    obtain ⟨k, w⟩ := c
    simp only [cellPut]
    split_ifs with h1 h2
    · simp [cellAt]
    · simp [cellAt]
    · simp only [cellAt, if_neg (show ¬ k = i by omega), ih]

theorem cellAt_put_other {i j : Nat} (h : j ≠ i) (v : α) (l : List (Nat × α)) :
    cellAt (cellPut i v l) j = cellAt l j := by
  induction l with
  | nil => simp [cellPut, cellAt, Ne.symm h]
  | cons c l ih =>
    obtain ⟨k, w⟩ := c
    simp only [cellPut]
    split_ifs with h1 h2
    · simp [cellAt, Ne.symm h]
    · subst h2; simp [cellAt, Ne.symm h]
    · simp only [cellAt, ih]

/-- A read after a write of the same element gives the value written. -/
@[simp] theorem Buf.get?_put_same (b : Buf α) (i : Nat) (v : α) : (b.put i v).get? i = some v :=
  cellAt_put_same i v b.cells

/-- A write leaves every other element alone. -/
theorem Buf.get?_put_other (b : Buf α) {i j : Nat} (h : j ≠ i) (v : α) : (b.put i v).get? j = b.get? j :=
  cellAt_put_other h v b.cells

theorem cellAt_cellsFrom (l : List α) : ∀ (k i : Nat),
    cellAt (cellsFrom k l) i = if k ≤ i then l[i - k]? else none := by
  induction l with
  | nil => intro k i; simp [cellsFrom, cellAt]
  | cons v l ih =>
    intro k i
    simp only [cellsFrom, cellAt, ih]
    rcases Nat.lt_trichotomy k i with h | h | h
    · rw [if_neg (by omega), if_pos (by omega), if_pos (by omega)]
      have : i - k = (i - (k + 1)) + 1 := by omega
      rw [this, List.getElem?_cons_succ]
    · subst h; simp
    · rw [if_neg (by omega), if_neg (by omega), if_neg (by omega)]

/-- A buffer filled with a sequence holds it, and nothing beyond it. -/
@[simp] theorem Buf.get?_ofList (l : List α) (i : Nat) : (Buf.ofList l).get? i = l[i]? := by
  simp [Buf.get?, Buf.ofList, cellAt_cellsFrom]

@[simp] theorem Buf.get?_empty (i : Nat) : (Buf.empty : Buf α).get? i = none := rfl

theorem cellAt_filter_below (n : Nat) (l : List (Nat × α)) (i : Nat) :
    cellAt (l.filter fun c => decide (c.1 < n)) i = if i < n then cellAt l i else none := by
  induction l with
  | nil => simp [cellAt]
  | cons c l ih =>
    obtain ⟨k, w⟩ := c
    by_cases hk : k < n
    · simp only [List.filter_cons, hk, decide_true, if_true, cellAt, ih]
      split_ifs with h1 h2 <;> first | rfl | omega
    · simp only [List.filter_cons, hk, decide_false, Bool.false_eq_true, if_false, cellAt, ih]
      split_ifs with h1 h2 <;> first | rfl | omega

/-- Truncation keeps the elements below the length and no other. -/
theorem Buf.get?_below (b : Buf α) (n i : Nat) : (b.below n).get? i = if i < n then b.get? i else none :=
  cellAt_filter_below n b.cells i

/-! ## The form is kept -/

theorem cellPut_keys (i : Nat) (v : α) (l : List (Nat × α)) :
    ∀ k ∈ (cellPut i v l).map Prod.fst, k = i ∨ k ∈ l.map Prod.fst := by
  induction l with
  | nil => simp [cellPut]
  | cons c l ih =>
    obtain ⟨k, w⟩ := c
    intro j hj
    simp only [cellPut] at hj
    split_ifs at hj with h1 h2
    · simpa using hj
    · simp only [List.map_cons, List.mem_cons] at hj ⊢
      tauto
    · simp only [List.map_cons, List.mem_cons] at hj ⊢
      rcases hj with hj | hj
      · exact .inr (.inl hj)
      · have := ih j hj; tauto

theorem cellPut_rising (i : Nat) (v : α) : ∀ (l : List (Nat × α)), (l.map Prod.fst).Pairwise (· < ·) →
    ((cellPut i v l).map Prod.fst).Pairwise (· < ·)
  | [], _ => by simp [cellPut]
  | (k, w) :: l, h => by
    simp only [List.map_cons, List.pairwise_cons] at h
    simp only [cellPut]
    split_ifs with h1 h2
    · simp only [List.map_cons, List.pairwise_cons, List.mem_cons]
      refine ⟨?_, h.1, h.2⟩
      rintro j (rfl | hj)
      · exact h1
      · exact lt_trans h1 (h.1 j hj)
    · subst h2
      simp only [List.map_cons, List.pairwise_cons]
      exact h
    · simp only [List.map_cons, List.pairwise_cons]
      refine ⟨?_, cellPut_rising i v l h.2⟩
      intro j hj
      rcases cellPut_keys i v l j hj with rfl | hj
      · omega
      · exact h.1 j hj

/-- Writing an element below the capacity keeps a buffer in its form. -/
theorem Buf.put_wf {cap : Nat} {b : Buf α} (h : b.Wf cap) {i : Nat} (hi : i < cap) (v : α) : (b.put i v).Wf cap := by
  refine ⟨cellPut_rising i v b.cells h.1, fun c hc => ?_⟩
  have : c.1 ∈ (cellPut i v b.cells).map Prod.fst := List.mem_map_of_mem hc
  rcases cellPut_keys i v b.cells c.1 this with h1 | h1
  · omega
  · obtain ⟨d, hd, hd1⟩ := List.mem_map.mp h1
    have := h.2 d hd
    omega

theorem cellsFrom_keys (l : List α) : ∀ k, (cellsFrom k l).map Prod.fst = List.range' k l.length := by
  induction l with
  | nil => intro k; rfl
  | cons v l ih => intro k; simp [cellsFrom, ih, List.range'_succ]

/-- A buffer filled with a sequence that fits is in its form. -/
theorem Buf.ofList_wf {cap : Nat} {l : List α} (h : l.length ≤ cap) : (Buf.ofList l).Wf cap := by
  have hk : ((Buf.ofList l).cells.map Prod.fst) = List.range' 0 l.length := cellsFrom_keys l 0
  refine ⟨by rw [hk]; exact List.pairwise_lt_range', fun c hc => ?_⟩
  have : c.1 ∈ (Buf.ofList l).cells.map Prod.fst := List.mem_map_of_mem hc
  rw [hk, List.mem_range'_1] at this
  omega

/-- A buffer filled with a sequence holds exactly its elements. -/
theorem Buf.ofList_filled (l : List α) : (Buf.ofList l).Filled l.length := by
  rw [Buf.Filled, List.range_eq_range']
  exact cellsFrom_keys l 0

/-- Truncation keeps a buffer in its form. -/
theorem Buf.below_wf {cap : Nat} {b : Buf α} (h : b.Wf cap) (n : Nat) : (b.below n).Wf cap := by
  refine ⟨?_, fun c hc => h.2 c (List.mem_of_mem_filter hc)⟩
  exact h.1.sublist (List.Sublist.map _ List.filter_sublist)

/-- The empty buffer is in its form. -/
theorem Buf.empty_wf (cap : Nat) : (Buf.empty : Buf α).Wf cap := ⟨by simp [Buf.empty], by simp [Buf.empty]⟩

/-- An element of a buffer in its form that holds a value lies below the capacity. -/
theorem Buf.Wf.lt_cap {cap : Nat} {b : Buf α} (h : b.Wf cap) {i : Nat} {v : α} (hv : b.get? i = some v) : i < cap := by
  have key : ∀ l : List (Nat × α), cellAt l i = some v → ∃ c ∈ l, c.1 = i := by
    intro l
    induction l with
    | nil => simp [cellAt]
    | cons c l ih =>
      obtain ⟨k, w⟩ := c
      simp only [cellAt]
      split_ifs with hk
      · intro _; exact ⟨(k, w), by simp, hk⟩
      · intro hl; obtain ⟨d, hd, hd1⟩ := ih hl; exact ⟨d, by simp [hd], hd1⟩
  obtain ⟨c, hc, rfl⟩ := key b.cells hv
  exact h.2 c hc

/-- Every element below the length of a filled buffer holds a value. -/
theorem Buf.Filled.get?_isSome {b : Buf α} {n i : Nat} (h : b.Filled n) (hi : i < n) : (b.get? i).isSome := by
  have key : ∀ l : List (Nat × α), i ∈ l.map Prod.fst → (cellAt l i).isSome := by
    intro l
    induction l with
    | nil => simp
    | cons c l ih =>
      obtain ⟨k, w⟩ := c
      simp only [cellAt, List.map_cons, List.mem_cons]
      rintro (rfl | hl)
      · simp
      · split_ifs
        · rfl
        · exact ih hl
  exact key b.cells (by rw [Buf.Filled] at h; rw [h]; exact List.mem_range.mpr hi)

/-- The memory after reset is in its form. -/
theorem reset_mem_wf : State.reset.mem.Wf State.reset.params := by
  refine ⟨?_, ?_, ?_, ?_, ?_, ?_, ?_, ?_⟩ <;> exact Buf.empty_wf _

end Sys2Proof.Machine
end

