-- ==== Sys2Proof/Laws/Flags.lean ====
section
/-! SUPPORT. The flags of `STATUS` and `CTRL`, bit by bit (10_state.md R26, R28). -/

namespace Sys2Proof.Machine

theorem setCfgv_getLsbD (w : Word) (i : Nat) : (setCfgv w).getLsbD i = (w.getLsbD i || decide (i = 0)) := by
  rw [setCfgv, BitVec.getLsbD_or]
  have : (1#32).getLsbD i = decide (i = 0) := by
    by_cases h : i < 32
    · interval_cases i <;> decide
    · rw [BitVec.getLsbD_of_ge _ _ (by omega)]; simp; omega
  rw [this]

theorem setErr_getLsbD (w : Word) (i : Nat) : (setErr w).getLsbD i = (w.getLsbD i || decide (i = 1)) := by
  rw [setErr, BitVec.getLsbD_or]
  have : (2#32).getLsbD i = decide (i = 1) := by
    by_cases h : i < 32
    · interval_cases i <;> decide
    · rw [BitVec.getLsbD_of_ge _ _ (by omega)]; simp; omega
  rw [this]

theorem writeDetf_getLsbD (w : Word) (b : Bool) (i : Nat) :
    (writeDetf w b).getLsbD i = if i = 2 then b else w.getLsbD i := by
  by_cases h : i < 32
  · cases b
    · simp only [writeDetf, Bool.false_eq_true, if_false, BitVec.getLsbD_and]
      interval_cases i <;> simp
    · simp only [writeDetf, if_true, BitVec.getLsbD_or]
      interval_cases i <;> simp
  · rw [BitVec.getLsbD_of_ge _ _ (by omega), BitVec.getLsbD_of_ge _ _ (by omega), if_neg (by omega)]

theorem ctrlStored_getLsbD (w : Word) (i : Nat) : (ctrlStored w).getLsbD i = (w.getLsbD i && decide (i = 0)) := by
  by_cases h : i < 32
  · simp only [ctrlStored, BitVec.getLsbD_and]
    interval_cases i <;> simp
  · rw [BitVec.getLsbD_of_ge _ _ (by omega), BitVec.getLsbD_of_ge _ _ (by omega)]; simp

theorem ctrlStored_reserved (w : Word) : ctrlStored w &&& 0xFFFFFFFE#32 = 0#32 := by
  rw [ctrlStored, BitVec.and_assoc]; simp

end Sys2Proof.Machine
end

