-- ==== Sys2Proof/Laws/State.lean ====
section
/-! SUPPORT. What each update of the state leaves in each field: one lemma per field per update, true by definition, so
that no proof unfolds a record update. -/

namespace Sys2Proof.Machine

variable (s : State)


/-! ## raise: fault entry (60_exceptions.md R224) -/

@[simp] theorem State.raise_status (c : Cause) (v : Word) : (s.raise c v).status = setErr s.status := rfl
@[simp] theorem State.raise_cause (c : Cause) (v : Word) : (s.raise c v).cause = c.code := rfl
@[simp] theorem State.raise_info (c : Cause) (v : Word) : (s.raise c v).info = v := rfl
@[simp] theorem State.raise_ctrl (c : Cause) (v : Word) : (s.raise c v).ctrl = s.ctrl := rfl
@[simp] theorem State.raise_grid (c : Cause) (v : Word) : (s.raise c v).grid = s.grid := rfl
@[simp] theorem State.raise_guardOvr (c : Cause) (v : Word) : (s.raise c v).guardOvr = s.guardOvr := rfl
@[simp] theorem State.raise_pilotOvr (c : Cause) (v : Word) : (s.raise c v).pilotOvr = s.pilotOvr := rfl
@[simp] theorem State.raise_consts (c : Cause) (v : Word) : (s.raise c v).consts = s.consts := rfl
@[simp] theorem State.raise_tuning (c : Cause) (v : Word) : (s.raise c v).tuning = s.tuning := rfl
@[simp] theorem State.raise_pssCorr (c : Cause) (v : Word) : (s.raise c v).pssCorr = s.pssCorr := rfl
@[simp] theorem State.raise_frameStart (c : Cause) (v : Word) : (s.raise c v).frameStart = s.frameStart := rfl
@[simp] theorem State.raise_cfoPhase (c : Cause) (v : Word) : (s.raise c v).cfoPhase = s.cfoPhase := rfl
@[simp] theorem State.raise_cfoHz (c : Cause) (v : Word) : (s.raise c v).cfoHz = s.cfoHz := rfl
@[simp] theorem State.raise_len (c : Cause) (v : Word) : (s.raise c v).len = s.len := rfl
@[simp] theorem State.raise_mem (c : Cause) (v : Word) : (s.raise c v).mem = s.mem := rfl
@[simp] theorem State.raise_pc (c : Cause) (v : Word) : (s.raise c v).pc = s.pc := rfl
@[simp] theorem State.raise_params (c : Cause) (v : Word) : (s.raise c v).params = s.params := rfl
@[simp] theorem State.raise_host (c : Cause) (v : Word) : (s.raise c v).host = s.host := rfl
@[simp] theorem State.raise_gen (c : Cause) (v : Word) : (s.raise c v).gen = s.gen := rfl

/-! ## writeGrid: a successful `CFG` (40_grid_parameters.md R112) -/

@[simp] theorem State.writeGrid_status (n g p : Nat) (l : List Nat) : (s.writeGrid n g p l).status =
    setCfgv s.status := rfl
@[simp] theorem State.writeGrid_cause (n g p : Nat) (l : List Nat) : (s.writeGrid n g p l).cause = s.cause := rfl
@[simp] theorem State.writeGrid_info (n g p : Nat) (l : List Nat) : (s.writeGrid n g p l).info = s.info := rfl
@[simp] theorem State.writeGrid_ctrl (n g p : Nat) (l : List Nat) : (s.writeGrid n g p l).ctrl = s.ctrl := rfl
@[simp] theorem State.writeGrid_grid (n g p : Nat) (l : List Nat) : (s.writeGrid n g p l).grid =
    ⟨Word.ofNat n, Word.ofNat (n / 4), Word.ofNat g, Word.ofNat p, Word.ofNat (n - g / 2 - g / 2 - p),
      Word.ofNat (n - g / 2 - g / 2), Word.ofNat p⟩ := rfl
@[simp] theorem State.writeGrid_guardOvr (n g p : Nat) (l : List Nat) : (s.writeGrid n g p l).guardOvr =
    s.guardOvr := rfl
@[simp] theorem State.writeGrid_pilotOvr (n g p : Nat) (l : List Nat) : (s.writeGrid n g p l).pilotOvr =
    s.pilotOvr := rfl
@[simp] theorem State.writeGrid_consts (n g p : Nat) (l : List Nat) : (s.writeGrid n g p l).consts = s.consts := rfl
@[simp] theorem State.writeGrid_tuning (n g p : Nat) (l : List Nat) : (s.writeGrid n g p l).tuning = s.tuning := rfl
@[simp] theorem State.writeGrid_pssCorr (n g p : Nat) (l : List Nat) : (s.writeGrid n g p l).pssCorr =
    Word.ofNat (n / 4) := rfl
@[simp] theorem State.writeGrid_frameStart (n g p : Nat) (l : List Nat) : (s.writeGrid n g p l).frameStart =
    s.frameStart := rfl
@[simp] theorem State.writeGrid_cfoPhase (n g p : Nat) (l : List Nat) : (s.writeGrid n g p l).cfoPhase =
    s.cfoPhase := rfl
@[simp] theorem State.writeGrid_cfoHz (n g p : Nat) (l : List Nat) : (s.writeGrid n g p l).cfoHz = s.cfoHz := rfl
@[simp] theorem State.writeGrid_len (n g p : Nat) (l : List Nat) : (s.writeGrid n g p l).len = s.len := rfl
@[simp] theorem State.writeGrid_mem (n g p : Nat) (l : List Nat) : (s.writeGrid n g p l).mem =
    { s.mem with pil := .ofList l } := rfl
@[simp] theorem State.writeGrid_pc (n g p : Nat) (l : List Nat) : (s.writeGrid n g p l).pc = s.pc := rfl
@[simp] theorem State.writeGrid_params (n g p : Nat) (l : List Nat) : (s.writeGrid n g p l).params = s.params := rfl
@[simp] theorem State.writeGrid_host (n g p : Nat) (l : List Nat) : (s.writeGrid n g p l).host = s.host := rfl
@[simp] theorem State.writeGrid_gen (n g p : Nat) (l : List Nat) : (s.writeGrid n g p l).gen = s.gen := rfl

/-! ## writeSeq: `ZCGEN`, `PSSGEN` (41_sync_sequence.md R121, R123) -/

@[simp] theorem State.writeSeq_status (l : List Cplx) : (s.writeSeq l).status = s.status := rfl
@[simp] theorem State.writeSeq_cause (l : List Cplx) : (s.writeSeq l).cause = s.cause := rfl
@[simp] theorem State.writeSeq_info (l : List Cplx) : (s.writeSeq l).info = s.info := rfl
@[simp] theorem State.writeSeq_ctrl (l : List Cplx) : (s.writeSeq l).ctrl = s.ctrl := rfl
@[simp] theorem State.writeSeq_grid (l : List Cplx) : (s.writeSeq l).grid = s.grid := rfl
@[simp] theorem State.writeSeq_guardOvr (l : List Cplx) : (s.writeSeq l).guardOvr = s.guardOvr := rfl
@[simp] theorem State.writeSeq_pilotOvr (l : List Cplx) : (s.writeSeq l).pilotOvr = s.pilotOvr := rfl
@[simp] theorem State.writeSeq_consts (l : List Cplx) : (s.writeSeq l).consts = s.consts := rfl
@[simp] theorem State.writeSeq_tuning (l : List Cplx) : (s.writeSeq l).tuning = s.tuning := rfl
@[simp] theorem State.writeSeq_pssCorr (l : List Cplx) : (s.writeSeq l).pssCorr = s.pssCorr := rfl
@[simp] theorem State.writeSeq_frameStart (l : List Cplx) : (s.writeSeq l).frameStart = s.frameStart := rfl
@[simp] theorem State.writeSeq_cfoPhase (l : List Cplx) : (s.writeSeq l).cfoPhase = s.cfoPhase := rfl
@[simp] theorem State.writeSeq_cfoHz (l : List Cplx) : (s.writeSeq l).cfoHz = s.cfoHz := rfl
@[simp] theorem State.writeSeq_len (l : List Cplx) : (s.writeSeq l).len =
    { s.len with seq := Word.ofNat l.length } := rfl
@[simp] theorem State.writeSeq_mem (l : List Cplx) : (s.writeSeq l).mem = { s.mem with seq := .ofList l } := rfl
@[simp] theorem State.writeSeq_pc (l : List Cplx) : (s.writeSeq l).pc = s.pc := rfl
@[simp] theorem State.writeSeq_params (l : List Cplx) : (s.writeSeq l).params = s.params := rfl
@[simp] theorem State.writeSeq_host (l : List Cplx) : (s.writeSeq l).host = s.host := rfl
@[simp] theorem State.writeSeq_gen (l : List Cplx) : (s.writeSeq l).gen = s.gen := rfl

/-! ## writeTxo: `MOD` (42_modulator.md R140) -/

@[simp] theorem State.writeTxo_status (l : List Cplx) (r k : Nat) : (s.writeTxo l r k).status = s.status := rfl
@[simp] theorem State.writeTxo_cause (l : List Cplx) (r k : Nat) : (s.writeTxo l r k).cause = s.cause := rfl
@[simp] theorem State.writeTxo_info (l : List Cplx) (r k : Nat) : (s.writeTxo l r k).info = s.info := rfl
@[simp] theorem State.writeTxo_ctrl (l : List Cplx) (r k : Nat) : (s.writeTxo l r k).ctrl = s.ctrl := rfl
@[simp] theorem State.writeTxo_grid (l : List Cplx) (r k : Nat) : (s.writeTxo l r k).grid = s.grid := rfl
@[simp] theorem State.writeTxo_guardOvr (l : List Cplx) (r k : Nat) : (s.writeTxo l r k).guardOvr = s.guardOvr := rfl
@[simp] theorem State.writeTxo_pilotOvr (l : List Cplx) (r k : Nat) : (s.writeTxo l r k).pilotOvr = s.pilotOvr := rfl
@[simp] theorem State.writeTxo_consts (l : List Cplx) (r k : Nat) : (s.writeTxo l r k).consts = s.consts := rfl
@[simp] theorem State.writeTxo_tuning (l : List Cplx) (r k : Nat) : (s.writeTxo l r k).tuning = s.tuning := rfl
@[simp] theorem State.writeTxo_pssCorr (l : List Cplx) (r k : Nat) : (s.writeTxo l r k).pssCorr = s.pssCorr := rfl
@[simp] theorem State.writeTxo_frameStart (l : List Cplx) (r k : Nat) : (s.writeTxo l r k).frameStart =
    s.frameStart := rfl
@[simp] theorem State.writeTxo_cfoPhase (l : List Cplx) (r k : Nat) : (s.writeTxo l r k).cfoPhase = s.cfoPhase := rfl
@[simp] theorem State.writeTxo_cfoHz (l : List Cplx) (r k : Nat) : (s.writeTxo l r k).cfoHz = s.cfoHz := rfl
@[simp] theorem State.writeTxo_len (l : List Cplx) (r k : Nat) : (s.writeTxo l r k).len =
    { s.len with txo := Word.ofNat l.length, txoRows := Word.ofNat r, txoCols := Word.ofNat k } := rfl
@[simp] theorem State.writeTxo_mem (l : List Cplx) (r k : Nat) : (s.writeTxo l r k).mem =
    { s.mem with txo := .ofList l } := rfl
@[simp] theorem State.writeTxo_pc (l : List Cplx) (r k : Nat) : (s.writeTxo l r k).pc = s.pc := rfl
@[simp] theorem State.writeTxo_params (l : List Cplx) (r k : Nat) : (s.writeTxo l r k).params = s.params := rfl
@[simp] theorem State.writeTxo_host (l : List Cplx) (r k : Nat) : (s.writeTxo l r k).host = s.host := rfl
@[simp] theorem State.writeTxo_gen (l : List Cplx) (r k : Nat) : (s.writeTxo l r k).gen = s.gen := rfl

/-! ## writeTiming: the timing commands (43_timing_sync.md R160) -/

@[simp] theorem State.writeTiming_status (a : List RNum) (b : List Nat) : (s.writeTiming a b).status =
    writeDetf s.status b.isEmpty := rfl
@[simp] theorem State.writeTiming_cause (a : List RNum) (b : List Nat) : (s.writeTiming a b).cause = s.cause := rfl
@[simp] theorem State.writeTiming_info (a : List RNum) (b : List Nat) : (s.writeTiming a b).info = s.info := rfl
@[simp] theorem State.writeTiming_ctrl (a : List RNum) (b : List Nat) : (s.writeTiming a b).ctrl = s.ctrl := rfl
@[simp] theorem State.writeTiming_grid (a : List RNum) (b : List Nat) : (s.writeTiming a b).grid = s.grid := rfl
@[simp] theorem State.writeTiming_guardOvr (a : List RNum) (b : List Nat) : (s.writeTiming a b).guardOvr =
    s.guardOvr := rfl
@[simp] theorem State.writeTiming_pilotOvr (a : List RNum) (b : List Nat) : (s.writeTiming a b).pilotOvr =
    s.pilotOvr := rfl
@[simp] theorem State.writeTiming_consts (a : List RNum) (b : List Nat) : (s.writeTiming a b).consts = s.consts := rfl
@[simp] theorem State.writeTiming_tuning (a : List RNum) (b : List Nat) : (s.writeTiming a b).tuning = s.tuning := rfl
@[simp] theorem State.writeTiming_pssCorr (a : List RNum) (b : List Nat) : (s.writeTiming a b).pssCorr =
    s.pssCorr := rfl
@[simp] theorem State.writeTiming_frameStart (a : List RNum) (b : List Nat) : (s.writeTiming a b).frameStart =
    s.frameStart := rfl
@[simp] theorem State.writeTiming_cfoPhase (a : List RNum) (b : List Nat) : (s.writeTiming a b).cfoPhase =
    s.cfoPhase := rfl
@[simp] theorem State.writeTiming_cfoHz (a : List RNum) (b : List Nat) : (s.writeTiming a b).cfoHz = s.cfoHz := rfl
@[simp] theorem State.writeTiming_len (a : List RNum) (b : List Nat) : (s.writeTiming a b).len =
    { s.len with scr := Word.ofNat a.length, bnd := Word.ofNat b.length } := rfl
@[simp] theorem State.writeTiming_mem (a : List RNum) (b : List Nat) : (s.writeTiming a b).mem =
    { s.mem with scr := .ofList a, bnd := .ofList b } := rfl
@[simp] theorem State.writeTiming_pc (a : List RNum) (b : List Nat) : (s.writeTiming a b).pc = s.pc := rfl
@[simp] theorem State.writeTiming_params (a : List RNum) (b : List Nat) : (s.writeTiming a b).params = s.params := rfl
@[simp] theorem State.writeTiming_host (a : List RNum) (b : List Nat) : (s.writeTiming a b).host = s.host := rfl
@[simp] theorem State.writeTiming_gen (a : List RNum) (b : List Nat) : (s.writeTiming a b).gen = s.gen := rfl

/-! ## writeFrameStart: `SYNCPSS` (43_timing_sync.md R168) -/

@[simp] theorem State.writeFrameStart_status (f : Int) : (s.writeFrameStart f).status = s.status := rfl
@[simp] theorem State.writeFrameStart_cause (f : Int) : (s.writeFrameStart f).cause = s.cause := rfl
@[simp] theorem State.writeFrameStart_info (f : Int) : (s.writeFrameStart f).info = s.info := rfl
@[simp] theorem State.writeFrameStart_ctrl (f : Int) : (s.writeFrameStart f).ctrl = s.ctrl := rfl
@[simp] theorem State.writeFrameStart_grid (f : Int) : (s.writeFrameStart f).grid = s.grid := rfl
@[simp] theorem State.writeFrameStart_guardOvr (f : Int) : (s.writeFrameStart f).guardOvr = s.guardOvr := rfl
@[simp] theorem State.writeFrameStart_pilotOvr (f : Int) : (s.writeFrameStart f).pilotOvr = s.pilotOvr := rfl
@[simp] theorem State.writeFrameStart_consts (f : Int) : (s.writeFrameStart f).consts = s.consts := rfl
@[simp] theorem State.writeFrameStart_tuning (f : Int) : (s.writeFrameStart f).tuning = s.tuning := rfl
@[simp] theorem State.writeFrameStart_pssCorr (f : Int) : (s.writeFrameStart f).pssCorr = s.pssCorr := rfl
@[simp] theorem State.writeFrameStart_frameStart (f : Int) : (s.writeFrameStart f).frameStart =
    if -2147483648 ≤ f ∧ f < 2147483648 then BitVec.ofInt 32 f else Config.freeFrameStart f := rfl
@[simp] theorem State.writeFrameStart_cfoPhase (f : Int) : (s.writeFrameStart f).cfoPhase = s.cfoPhase := rfl
@[simp] theorem State.writeFrameStart_cfoHz (f : Int) : (s.writeFrameStart f).cfoHz = s.cfoHz := rfl
@[simp] theorem State.writeFrameStart_len (f : Int) : (s.writeFrameStart f).len = s.len := rfl
@[simp] theorem State.writeFrameStart_mem (f : Int) : (s.writeFrameStart f).mem = s.mem := rfl
@[simp] theorem State.writeFrameStart_pc (f : Int) : (s.writeFrameStart f).pc = s.pc := rfl
@[simp] theorem State.writeFrameStart_params (f : Int) : (s.writeFrameStart f).params = s.params := rfl
@[simp] theorem State.writeFrameStart_host (f : Int) : (s.writeFrameStart f).host = s.host := rfl
@[simp] theorem State.writeFrameStart_gen (f : Int) : (s.writeFrameStart f).gen = s.gen := rfl

/-! ## writeCfo: `CFOEST` (44_cfo.md R181, R182) -/

@[simp] theorem State.writeCfo_status (a b : RNum) : (s.writeCfo a b).status = s.status := rfl
@[simp] theorem State.writeCfo_cause (a b : RNum) : (s.writeCfo a b).cause = s.cause := rfl
@[simp] theorem State.writeCfo_info (a b : RNum) : (s.writeCfo a b).info = s.info := rfl
@[simp] theorem State.writeCfo_ctrl (a b : RNum) : (s.writeCfo a b).ctrl = s.ctrl := rfl
@[simp] theorem State.writeCfo_grid (a b : RNum) : (s.writeCfo a b).grid = s.grid := rfl
@[simp] theorem State.writeCfo_guardOvr (a b : RNum) : (s.writeCfo a b).guardOvr = s.guardOvr := rfl
@[simp] theorem State.writeCfo_pilotOvr (a b : RNum) : (s.writeCfo a b).pilotOvr = s.pilotOvr := rfl
@[simp] theorem State.writeCfo_consts (a b : RNum) : (s.writeCfo a b).consts = s.consts := rfl
@[simp] theorem State.writeCfo_tuning (a b : RNum) : (s.writeCfo a b).tuning = s.tuning := rfl
@[simp] theorem State.writeCfo_pssCorr (a b : RNum) : (s.writeCfo a b).pssCorr = s.pssCorr := rfl
@[simp] theorem State.writeCfo_frameStart (a b : RNum) : (s.writeCfo a b).frameStart = s.frameStart := rfl
@[simp] theorem State.writeCfo_cfoPhase (a b : RNum) : (s.writeCfo a b).cfoPhase = a := rfl
@[simp] theorem State.writeCfo_cfoHz (a b : RNum) : (s.writeCfo a b).cfoHz = b := rfl
@[simp] theorem State.writeCfo_len (a b : RNum) : (s.writeCfo a b).len = s.len := rfl
@[simp] theorem State.writeCfo_mem (a b : RNum) : (s.writeCfo a b).mem = s.mem := rfl
@[simp] theorem State.writeCfo_pc (a b : RNum) : (s.writeCfo a b).pc = s.pc := rfl
@[simp] theorem State.writeCfo_params (a b : RNum) : (s.writeCfo a b).params = s.params := rfl
@[simp] theorem State.writeCfo_host (a b : RNum) : (s.writeCfo a b).host = s.host := rfl
@[simp] theorem State.writeCfo_gen (a b : RNum) : (s.writeCfo a b).gen = s.gen := rfl

/-! ## writeRxb: `CFOROT` (44_cfo.md R183) -/

@[simp] theorem State.writeRxb_status (l : List Cplx) : (s.writeRxb l).status = s.status := rfl
@[simp] theorem State.writeRxb_cause (l : List Cplx) : (s.writeRxb l).cause = s.cause := rfl
@[simp] theorem State.writeRxb_info (l : List Cplx) : (s.writeRxb l).info = s.info := rfl
@[simp] theorem State.writeRxb_ctrl (l : List Cplx) : (s.writeRxb l).ctrl = s.ctrl := rfl
@[simp] theorem State.writeRxb_grid (l : List Cplx) : (s.writeRxb l).grid = s.grid := rfl
@[simp] theorem State.writeRxb_guardOvr (l : List Cplx) : (s.writeRxb l).guardOvr = s.guardOvr := rfl
@[simp] theorem State.writeRxb_pilotOvr (l : List Cplx) : (s.writeRxb l).pilotOvr = s.pilotOvr := rfl
@[simp] theorem State.writeRxb_consts (l : List Cplx) : (s.writeRxb l).consts = s.consts := rfl
@[simp] theorem State.writeRxb_tuning (l : List Cplx) : (s.writeRxb l).tuning = s.tuning := rfl
@[simp] theorem State.writeRxb_pssCorr (l : List Cplx) : (s.writeRxb l).pssCorr = s.pssCorr := rfl
@[simp] theorem State.writeRxb_frameStart (l : List Cplx) : (s.writeRxb l).frameStart = s.frameStart := rfl
@[simp] theorem State.writeRxb_cfoPhase (l : List Cplx) : (s.writeRxb l).cfoPhase = s.cfoPhase := rfl
@[simp] theorem State.writeRxb_cfoHz (l : List Cplx) : (s.writeRxb l).cfoHz = s.cfoHz := rfl
@[simp] theorem State.writeRxb_len (l : List Cplx) : (s.writeRxb l).len = s.len := rfl
@[simp] theorem State.writeRxb_mem (l : List Cplx) : (s.writeRxb l).mem = { s.mem with rxb := .ofList l } := rfl
@[simp] theorem State.writeRxb_pc (l : List Cplx) : (s.writeRxb l).pc = s.pc := rfl
@[simp] theorem State.writeRxb_params (l : List Cplx) : (s.writeRxb l).params = s.params := rfl
@[simp] theorem State.writeRxb_host (l : List Cplx) : (s.writeRxb l).host = s.host := rfl
@[simp] theorem State.writeRxb_gen (l : List Cplx) : (s.writeRxb l).gen = s.gen := rfl

/-! ## writeSym: `DEMOD` (45_demodulator.md R207) -/

@[simp] theorem State.writeSym_status (l : List Cplx) (k : Nat) : (s.writeSym l k).status = s.status := rfl
@[simp] theorem State.writeSym_cause (l : List Cplx) (k : Nat) : (s.writeSym l k).cause = s.cause := rfl
@[simp] theorem State.writeSym_info (l : List Cplx) (k : Nat) : (s.writeSym l k).info = s.info := rfl
@[simp] theorem State.writeSym_ctrl (l : List Cplx) (k : Nat) : (s.writeSym l k).ctrl = s.ctrl := rfl
@[simp] theorem State.writeSym_grid (l : List Cplx) (k : Nat) : (s.writeSym l k).grid = s.grid := rfl
@[simp] theorem State.writeSym_guardOvr (l : List Cplx) (k : Nat) : (s.writeSym l k).guardOvr = s.guardOvr := rfl
@[simp] theorem State.writeSym_pilotOvr (l : List Cplx) (k : Nat) : (s.writeSym l k).pilotOvr = s.pilotOvr := rfl
@[simp] theorem State.writeSym_consts (l : List Cplx) (k : Nat) : (s.writeSym l k).consts = s.consts := rfl
@[simp] theorem State.writeSym_tuning (l : List Cplx) (k : Nat) : (s.writeSym l k).tuning = s.tuning := rfl
@[simp] theorem State.writeSym_pssCorr (l : List Cplx) (k : Nat) : (s.writeSym l k).pssCorr = s.pssCorr := rfl
@[simp] theorem State.writeSym_frameStart (l : List Cplx) (k : Nat) : (s.writeSym l k).frameStart =
    s.frameStart := rfl
@[simp] theorem State.writeSym_cfoPhase (l : List Cplx) (k : Nat) : (s.writeSym l k).cfoPhase = s.cfoPhase := rfl
@[simp] theorem State.writeSym_cfoHz (l : List Cplx) (k : Nat) : (s.writeSym l k).cfoHz = s.cfoHz := rfl
@[simp] theorem State.writeSym_len (l : List Cplx) (k : Nat) : (s.writeSym l k).len =
    { s.len with sym := Word.ofNat l.length, symCols := Word.ofNat k } := rfl
@[simp] theorem State.writeSym_mem (l : List Cplx) (k : Nat) : (s.writeSym l k).mem =
    { s.mem with sym := .ofList l } := rfl
@[simp] theorem State.writeSym_pc (l : List Cplx) (k : Nat) : (s.writeSym l k).pc = s.pc := rfl
@[simp] theorem State.writeSym_params (l : List Cplx) (k : Nat) : (s.writeSym l k).params = s.params := rfl
@[simp] theorem State.writeSym_host (l : List Cplx) (k : Nat) : (s.writeSym l k).host = s.host := rfl
@[simp] theorem State.writeSym_gen (l : List Cplx) (k : Nat) : (s.writeSym l k).gen = s.gen := rfl

/-! ## advance: the host taking its next action -/

@[simp] theorem State.advance_status (r : List HostEvent) : (s.advance r).status = s.status := rfl
@[simp] theorem State.advance_cause (r : List HostEvent) : (s.advance r).cause = s.cause := rfl
@[simp] theorem State.advance_info (r : List HostEvent) : (s.advance r).info = s.info := rfl
@[simp] theorem State.advance_ctrl (r : List HostEvent) : (s.advance r).ctrl = s.ctrl := rfl
@[simp] theorem State.advance_grid (r : List HostEvent) : (s.advance r).grid = s.grid := rfl
@[simp] theorem State.advance_guardOvr (r : List HostEvent) : (s.advance r).guardOvr = s.guardOvr := rfl
@[simp] theorem State.advance_pilotOvr (r : List HostEvent) : (s.advance r).pilotOvr = s.pilotOvr := rfl
@[simp] theorem State.advance_consts (r : List HostEvent) : (s.advance r).consts = s.consts := rfl
@[simp] theorem State.advance_tuning (r : List HostEvent) : (s.advance r).tuning = s.tuning := rfl
@[simp] theorem State.advance_pssCorr (r : List HostEvent) : (s.advance r).pssCorr = s.pssCorr := rfl
@[simp] theorem State.advance_frameStart (r : List HostEvent) : (s.advance r).frameStart = s.frameStart := rfl
@[simp] theorem State.advance_cfoPhase (r : List HostEvent) : (s.advance r).cfoPhase = s.cfoPhase := rfl
@[simp] theorem State.advance_cfoHz (r : List HostEvent) : (s.advance r).cfoHz = s.cfoHz := rfl
@[simp] theorem State.advance_len (r : List HostEvent) : (s.advance r).len = s.len := rfl
@[simp] theorem State.advance_mem (r : List HostEvent) : (s.advance r).mem = s.mem := rfl
@[simp] theorem State.advance_pc (r : List HostEvent) : (s.advance r).pc = s.pc := rfl
@[simp] theorem State.advance_params (r : List HostEvent) : (s.advance r).params = s.params := rfl
@[simp] theorem State.advance_host (r : List HostEvent) : (s.advance r).host = r := rfl
@[simp] theorem State.advance_gen (r : List HostEvent) : (s.advance r).gen = s.gen := rfl

/-! ## writeLength: a host write of a length register (10_state.md R36, R41) -/

@[simp] theorem State.writeLength_status (l : Lengths) (m : Memory) : (s.writeLength l m).status = s.status := rfl
@[simp] theorem State.writeLength_cause (l : Lengths) (m : Memory) : (s.writeLength l m).cause = s.cause := rfl
@[simp] theorem State.writeLength_info (l : Lengths) (m : Memory) : (s.writeLength l m).info = s.info := rfl
@[simp] theorem State.writeLength_ctrl (l : Lengths) (m : Memory) : (s.writeLength l m).ctrl = s.ctrl := rfl
@[simp] theorem State.writeLength_grid (l : Lengths) (m : Memory) : (s.writeLength l m).grid = s.grid := rfl
@[simp] theorem State.writeLength_guardOvr (l : Lengths) (m : Memory) : (s.writeLength l m).guardOvr = s.guardOvr := rfl
@[simp] theorem State.writeLength_pilotOvr (l : Lengths) (m : Memory) : (s.writeLength l m).pilotOvr = s.pilotOvr := rfl
@[simp] theorem State.writeLength_consts (l : Lengths) (m : Memory) : (s.writeLength l m).consts = s.consts := rfl
@[simp] theorem State.writeLength_tuning (l : Lengths) (m : Memory) : (s.writeLength l m).tuning = s.tuning := rfl
@[simp] theorem State.writeLength_pssCorr (l : Lengths) (m : Memory) : (s.writeLength l m).pssCorr = s.pssCorr := rfl
@[simp] theorem State.writeLength_frameStart (l : Lengths) (m : Memory) : (s.writeLength l m).frameStart = s.frameStart := rfl
@[simp] theorem State.writeLength_cfoPhase (l : Lengths) (m : Memory) : (s.writeLength l m).cfoPhase = s.cfoPhase := rfl
@[simp] theorem State.writeLength_cfoHz (l : Lengths) (m : Memory) : (s.writeLength l m).cfoHz = s.cfoHz := rfl
@[simp] theorem State.writeLength_len (l : Lengths) (m : Memory) : (s.writeLength l m).len = l := rfl
@[simp] theorem State.writeLength_mem (l : Lengths) (m : Memory) : (s.writeLength l m).mem = m := rfl
@[simp] theorem State.writeLength_pc (l : Lengths) (m : Memory) : (s.writeLength l m).pc = s.pc := rfl
@[simp] theorem State.writeLength_params (l : Lengths) (m : Memory) : (s.writeLength l m).params = s.params := rfl
@[simp] theorem State.writeLength_host (l : Lengths) (m : Memory) : (s.writeLength l m).host = s.host := rfl
@[simp] theorem State.writeLength_gen (l : Lengths) (m : Memory) : (s.writeLength l m).gen = s.gen + 1 := rfl

/-! ## hostReset: reset (70_reset_and_hazards.md R250) -/

@[simp] theorem State.hostReset_status : s.hostReset.status = State.reset.status := rfl
@[simp] theorem State.hostReset_cause : s.hostReset.cause = State.reset.cause := rfl
@[simp] theorem State.hostReset_info : s.hostReset.info = State.reset.info := rfl
@[simp] theorem State.hostReset_ctrl : s.hostReset.ctrl = State.reset.ctrl := rfl
@[simp] theorem State.hostReset_grid : s.hostReset.grid = State.reset.grid := rfl
@[simp] theorem State.hostReset_guardOvr : s.hostReset.guardOvr = State.reset.guardOvr := rfl
@[simp] theorem State.hostReset_pilotOvr : s.hostReset.pilotOvr = State.reset.pilotOvr := rfl
@[simp] theorem State.hostReset_consts : s.hostReset.consts = s.consts := rfl
@[simp] theorem State.hostReset_tuning : s.hostReset.tuning = State.reset.tuning := rfl
@[simp] theorem State.hostReset_pssCorr : s.hostReset.pssCorr = State.reset.pssCorr := rfl
@[simp] theorem State.hostReset_frameStart : s.hostReset.frameStart = State.reset.frameStart := rfl
@[simp] theorem State.hostReset_cfoPhase : s.hostReset.cfoPhase = State.reset.cfoPhase := rfl
@[simp] theorem State.hostReset_cfoHz : s.hostReset.cfoHz = State.reset.cfoHz := rfl
@[simp] theorem State.hostReset_len : s.hostReset.len = State.reset.len := rfl
@[simp] theorem State.hostReset_mem : s.hostReset.mem = State.reset.mem := rfl
@[simp] theorem State.hostReset_pc : s.hostReset.pc = s.pc := rfl
@[simp] theorem State.hostReset_params : s.hostReset.params = s.params := rfl
@[simp] theorem State.hostReset_host : s.hostReset.host = s.host := rfl
@[simp] theorem State.hostReset_gen : s.hostReset.gen = s.gen := rfl

end Sys2Proof.Machine
end

