-- ==== Sys2Proof/Laws/Ops.lean ====
section
/-! SUPPORT. The shared operations of the commands: what each goes on to do, said once (60_exceptions.md R224, R226). -/

namespace Sys2Proof.Machine

variable {s t : State} {i : Instr} {go : Outcome}

/-! ## The checks that several commands begin with -/

/-- With a record, `whenConfigured` is what follows it. -/
theorem State.whenConfigured_of (h : s.cfgv = true) : s.whenConfigured i go = go := by simp [whenConfigured, h]

/-- Without a record, `whenConfigured` raises `NotConfigured`. -/
theorem State.whenConfigured_not (h : s.cfgv = false) :
    s.whenConfigured i go = .next (s.raise .notConfigured (encode i)) := by simp [whenConfigured, h, fail]

/-- Everything `whenConfigured` can answer. -/
theorem State.whenConfigured_cases (h : s.whenConfigured i go = .next t) :
    (s.cfgv = false ∧ t = s.raise .notConfigured (encode i)) ∨ (s.cfgv = true ∧ go = .next t) := by
  rcases hc : s.cfgv with _ | _
  · rw [whenConfigured_not hc] at h
    exact .inl ⟨rfl, (Host.Outcome.next.inj h).symm⟩
  · rw [whenConfigured_of hc] at h
    exact .inr ⟨rfl, h⟩

/-- `timingChecks` passes with a record and at least one symbol period of samples within the capacity. -/
theorem State.timingChecks_of (h : s.cfgv = true) (h1 : s.rxLen ≤ s.params.capRxb) (h2 : s.period ≤ s.rxLen) :
    s.timingChecks i go = go := by
  rw [timingChecks, whenConfigured_of h, if_neg (by omega), if_neg (by omega)]

/-- Everything `timingChecks` can answer. -/
theorem State.timingChecks_cases (h : s.timingChecks i go = .next t) :
    (∃ c v, t = s.raise c v) ∨
      (s.cfgv = true ∧ s.rxLen ≤ s.params.capRxb ∧ s.period ≤ s.rxLen ∧ go = .next t) := by
  obtain ⟨-, rfl⟩ | ⟨hc, h⟩ := whenConfigured_cases h
  · exact .inl ⟨_, _, rfl⟩
  · split_ifs at h with h1 h2
    · exact .inl ⟨_, _, (Host.Outcome.next.inj h).symm⟩
    · exact .inl ⟨_, _, (Host.Outcome.next.inj h).symm⟩
    · exact .inr ⟨hc, by omega, by omega, h⟩

/-- `cfoChecks` passes with a record and samples within the capacity. -/
theorem State.cfoChecks_of (h : s.cfgv = true) (h1 : s.rxLen ≤ s.params.capRxb) : s.cfoChecks i go = go := by
  rw [cfoChecks, whenConfigured_of h, if_neg (by omega)]

/-- Everything `cfoChecks` can answer. -/
theorem State.cfoChecks_cases (h : s.cfoChecks i go = .next t) :
    (∃ c v, t = s.raise c v) ∨ (s.cfgv = true ∧ s.rxLen ≤ s.params.capRxb ∧ go = .next t) := by
  obtain ⟨-, rfl⟩ | ⟨hc, h⟩ := whenConfigured_cases h
  · exact .inl ⟨_, _, rfl⟩
  · split_ifs at h with h1
    · exact .inl ⟨_, _, (Host.Outcome.next.inj h).symm⟩
    · exact .inr ⟨hc, by omega, h⟩

/-- `whenInRange` passes when the symbol at the frame start lies in the buffer. -/
theorem State.whenInRange_of (h1 : 0 ≤ s.startOffset) (h2 : s.startOffset + (s.period : Int) ≤ (s.rxLen : Int)) :
    s.whenInRange go = go := by
  rw [whenInRange, if_neg (by omega)]

/-- Everything `whenInRange` can answer. -/
theorem State.whenInRange_cases (h : s.whenInRange go = .next t) :
    t = s.raise .bufferRange s.frameStart ∨
      (0 ≤ s.startOffset ∧ s.startOffset + (s.period : Int) ≤ (s.rxLen : Int) ∧ go = .next t) := by
  rw [whenInRange] at h
  split_ifs at h with h1
  · exact .inl (Host.Outcome.next.inj h).symm
  · exact .inr ⟨by omega, by omega, h⟩

/-! ## What `INFO` records -/

/-- A number that fits is recorded as it is (60_exceptions.md R224). -/
theorem infoOf_of_lt {n : Nat} (h : n < 4294967296) : infoOf n = Word.ofNat n := if_pos h

/-- A register's number is recorded as the register holds it. -/
@[simp] theorem infoOf_toNat (w : Word) : infoOf w.toNat = w := by
  rw [infoOf_of_lt w.isLt, Word.ofNat, BitVec.ofNat_toNat, BitVec.setWidth_eq]

/-! ## Flags after each update -/

@[simp] theorem State.raise_err (c : Cause) (v : Word) : (s.raise c v).err = true := by
  rw [State.err, raise_status, setErr_getLsbD]; simp

@[simp] theorem State.raise_cfgv (c : Cause) (v : Word) : (s.raise c v).cfgv = s.cfgv := by
  rw [State.cfgv, raise_status, setErr_getLsbD]; simp [State.cfgv]

@[simp] theorem State.raise_detf (c : Cause) (v : Word) : (s.raise c v).detf = s.detf := by
  rw [State.detf, raise_status, setErr_getLsbD]; simp [State.detf]

@[simp] theorem State.writeGrid_cfgv (n g p : Nat) (l : List Nat) : (s.writeGrid n g p l).cfgv = true := by
  rw [State.cfgv, writeGrid_status, setCfgv_getLsbD]; simp

@[simp] theorem State.writeGrid_err (n g p : Nat) (l : List Nat) : (s.writeGrid n g p l).err = s.err := by
  rw [State.err, writeGrid_status, setCfgv_getLsbD]; simp [State.err]

@[simp] theorem State.writeGrid_detf (n g p : Nat) (l : List Nat) : (s.writeGrid n g p l).detf = s.detf := by
  rw [State.detf, writeGrid_status, setCfgv_getLsbD]; simp [State.detf]

@[simp] theorem State.writeTiming_detf (a : List RNum) (b : List Nat) : (s.writeTiming a b).detf = b.isEmpty := by
  rw [State.detf, writeTiming_status, writeDetf_getLsbD]; simp

@[simp] theorem State.writeTiming_err (a : List RNum) (b : List Nat) : (s.writeTiming a b).err = s.err := by
  rw [State.err, writeTiming_status, writeDetf_getLsbD]; simp [State.err]

@[simp] theorem State.writeTiming_cfgv (a : List RNum) (b : List Nat) : (s.writeTiming a b).cfgv = s.cfgv := by
  rw [State.cfgv, writeTiming_status, writeDetf_getLsbD]; simp [State.cfgv]

@[simp] theorem State.writeSeq_err (l : List Cplx) : (s.writeSeq l).err = s.err := rfl
@[simp] theorem State.writeSeq_cfgv (l : List Cplx) : (s.writeSeq l).cfgv = s.cfgv := rfl
@[simp] theorem State.writeSeq_detf (l : List Cplx) : (s.writeSeq l).detf = s.detf := rfl

@[simp] theorem State.writeTxo_err (l : List Cplx) (r c : Nat) : (s.writeTxo l r c).err = s.err := rfl
@[simp] theorem State.writeTxo_cfgv (l : List Cplx) (r c : Nat) : (s.writeTxo l r c).cfgv = s.cfgv := rfl
@[simp] theorem State.writeTxo_detf (l : List Cplx) (r c : Nat) : (s.writeTxo l r c).detf = s.detf := rfl

@[simp] theorem State.writeCfo_err (p h : RNum) : (s.writeCfo p h).err = s.err := rfl
@[simp] theorem State.writeCfo_cfgv (p h : RNum) : (s.writeCfo p h).cfgv = s.cfgv := rfl
@[simp] theorem State.writeCfo_detf (p h : RNum) : (s.writeCfo p h).detf = s.detf := rfl

@[simp] theorem State.writeRxb_err (l : List Cplx) : (s.writeRxb l).err = s.err := rfl
@[simp] theorem State.writeRxb_cfgv (l : List Cplx) : (s.writeRxb l).cfgv = s.cfgv := rfl
@[simp] theorem State.writeRxb_detf (l : List Cplx) : (s.writeRxb l).detf = s.detf := rfl

@[simp] theorem State.writeSym_err (l : List Cplx) (c : Nat) : (s.writeSym l c).err = s.err := rfl
@[simp] theorem State.writeSym_cfgv (l : List Cplx) (c : Nat) : (s.writeSym l c).cfgv = s.cfgv := rfl
@[simp] theorem State.writeSym_detf (l : List Cplx) (c : Nat) : (s.writeSym l c).detf = s.detf := rfl

@[simp] theorem State.writeFrameStart_err (f : Int) : (s.writeFrameStart f).err = s.err := rfl
@[simp] theorem State.writeFrameStart_cfgv (f : Int) : (s.writeFrameStart f).cfgv = s.cfgv := rfl
@[simp] theorem State.writeFrameStart_detf (f : Int) : (s.writeFrameStart f).detf = s.detf := rfl

/-! ## The frame start -/

/-- `noteStart` changes `FRAME_START` at most. -/
theorem State.noteStart_eq (o : Option Int) : ∃ w, s.noteStart o = { s with frameStart := w } := by
  cases o with
  | none => exact ⟨s.frameStart, rfl⟩
  | some f => exact ⟨_, rfl⟩

/-- A frame start that fits the register is what the register then holds. -/
theorem State.writeFrameStart_toInt {f : Int} (h1 : -2147483648 ≤ f) (h2 : f < 2147483648) :
    (s.writeFrameStart f).frameStart.toInt = f := by
  simp only [writeFrameStart, if_pos (And.intro h1 h2)]
  rw [BitVec.toInt_ofInt]
  exact Int.bmod_eq_of_le (by omega) (by omega)

/-! ## Lengths that fit -/

theorem Word.toNat_ofNat_of_lt {n : Nat} (h : n < 4294967296) : (Word.ofNat n).toNat = n := by
  rw [Word.ofNat, BitVec.toNat_ofNat, Nat.mod_eq_of_lt h]

theorem Word.ofNat_toNat (w : Word) : Word.ofNat w.toNat = w := by simp [Word.ofNat]

end Sys2Proof.Machine
end

