-- ==== Sys2Proof/Laws/Commands.lean ====
section
/-! SUPPORT. Everything each command can answer: one lemma per command, guards included, so that no proof unfolds a
meaning (60_exceptions.md R226: a fault entry, or the whole effect). -/

namespace Sys2Proof.Machine

variable {s t : State}

/-- A check of `CFG` that fails, or none does and the checks of R101, R104, R107, R110 hold. -/
theorem cfgFault_none {cap n g pc : Nat} (h : cfgFault cap n g pc = none) :
    Config.fftSet.contains n = true ∧ 2 ≤ pc ∧ 1 ≤ g / 2 ∧ g / 2 < n / 2 ∧ pc ≤ cap ∧
      pilotsValid (g / 2) (n - g / 2) (n / 2) (pilotList (g / 2) (n - g / 2) (n / 2) pc) = true := by
  simp only [cfgFault] at h
  split_ifs at h with h1 h2 h3 h4 h5
  simp only [Bool.not_eq_true', Bool.not_eq_false] at h1 h5
  exact ⟨h1, by omega, by omega, by omega, by omega, h5⟩

/-- The converse: with all checks passed `CFG` has no fault. -/
theorem cfgFault_eq_none {cap n g pc : Nat} (h1 : Config.fftSet.contains n = true) (h2 : 2 ≤ pc) (h3 : 1 ≤ g / 2)
    (h4 : g / 2 < n / 2) (h5 : pc ≤ cap)
    (h6 : pilotsValid (g / 2) (n - g / 2) (n / 2) (pilotList (g / 2) (n - g / 2) (n / 2) pc) = true) :
    cfgFault cap n g pc = none := by
  simp only [cfgFault, h1, h6]
  rw [if_neg (by simp), if_neg (by omega), if_neg (by omega), if_neg (by omega), if_neg (by simp)]

theorem execCfg_cases {n : Half} {ug up : Bool} (h : execCfg n ug up s = .next t) :
    (∃ c v, t = s.raise c v) ∨
      ∃ g pc, g = s.cfgGuard n.toNat ug ∧ pc = s.cfgCount n.toNat up ∧
        cfgFault s.params.capPil n.toNat g pc = none ∧
        t = s.writeGrid n.toNat g pc (pilotList (g / 2) (n.toNat - g / 2) (n.toNat / 2) pc) := by
  simp only [execCfg] at h
  split at h
  · exact .inl ⟨_, _, (Host.Outcome.next.inj h).symm⟩
  · exact .inr ⟨_, _, rfl, rfl, ‹_›, (Host.Outcome.next.inj h).symm⟩

theorem execZcgen_cases {u : Octet} {n : Half} (h : execZcgen u n s = .next t) :
    (∃ c v, t = s.raise c v) ∨
      (n.toNat ≤ s.params.capSeq ∧ t = s.writeSeq (tabulate n.toNat (zc u.toNat n.toNat))) := by
  simp only [execZcgen] at h
  split_ifs at h
  · exact .inl ⟨_, _, (Host.Outcome.next.inj h).symm⟩
  · exact .inr ⟨by omega, (Host.Outcome.next.inj h).symm⟩

theorem execPssgen_cases {u : Octet} (h : execPssgen u s = .next t) :
    (∃ c v, t = s.raise c v) ∨ (62 ≤ s.params.capSeq ∧ t = s.writeSeq (tabulate 62 (pss62 u.toNat))) := by
  simp only [execPssgen] at h
  split_ifs at h
  · exact .inl ⟨_, _, (Host.Outcome.next.inj h).symm⟩
  · exact .inr ⟨by omega, (Host.Outcome.next.inj h).symm⟩

theorem execMod_cases {flat : Bool} (h : execMod flat s = .next t) :
    (∃ c v, t = s.raise c v) ∨
      (s.cfgv = true ∧ s.payLen ≤ s.params.capPay ∧ s.symbolCount * s.period ≤ s.params.capTxo ∧
        t = s.writeTxo s.frame (if flat then 1 else s.symbolCount)
          (if flat then s.symbolCount * s.period else s.period)) := by
  obtain ⟨-, rfl⟩ | ⟨hc, h⟩ := State.whenConfigured_cases h
  · exact .inl ⟨_, _, rfl⟩
  · by_cases h1 : s.params.capPay < s.payLen
    · rw [if_pos h1] at h
      exact .inl ⟨_, _, (Host.Outcome.next.inj h).symm⟩
    · rw [if_neg h1] at h
      by_cases h2 : s.params.capTxo < s.symbolCount * s.period
      · rw [if_pos h2] at h
        exact .inl ⟨_, _, (Host.Outcome.next.inj h).symm⟩
      · rw [if_neg h2] at h
        exact .inr ⟨hc, by omega, by omega, (Host.Outcome.next.inj h).symm⟩

theorem execSynccp_cases (h : execSynccp s = .next t) :
    (∃ c v, t = s.raise c v) ∨
      (s.cfgv = true ∧ s.rxLen ≤ s.params.capRxb ∧ s.period ≤ s.rxLen ∧
        (s.cpBoundaries s.cpScores).length ≤ s.params.capBnd ∧
        t = s.writeTiming s.cpScores (s.cpBoundaries s.cpScores)) := by
  obtain hr | ⟨hc, h1, h2, h⟩ := State.timingChecks_cases h
  · exact .inl hr
  · dsimp only at h
    split_ifs at h
    · exact .inl ⟨_, _, (Host.Outcome.next.inj h).symm⟩
    · exact .inr ⟨hc, h1, h2, by omega, (Host.Outcome.next.inj h).symm⟩

theorem execSyncpss_cases {th : Bool} (h : execSyncpss th s = .next t) :
    (∃ c v, t = s.raise c v) ∨
      (s.cfgv = true ∧ s.rxLen ≤ s.params.capRxb ∧ s.period ≤ s.rxLen ∧
        (s.pssBoundaries (s.pssStart th s.pssScores)).length ≤ s.params.capBnd ∧
        t = (s.writeTiming s.pssScores (s.pssBoundaries (s.pssStart th s.pssScores))).noteStart
          (s.pssStart th s.pssScores)) := by
  obtain hr | ⟨hc, h1, h2, h⟩ := State.timingChecks_cases h
  · exact .inl hr
  · dsimp only at h
    split_ifs at h
    · exact .inl ⟨_, _, (Host.Outcome.next.inj h).symm⟩
    · exact .inr ⟨hc, h1, h2, by omega, (Host.Outcome.next.inj h).symm⟩

theorem execCfoest_cases (h : execCfoest s = .next t) :
    (∃ c v, t = s.raise c v) ∨
      (s.cfgv = true ∧ s.rxLen ≤ s.params.capRxb ∧ 0 ≤ s.startOffset ∧
        s.startOffset + (s.period : Int) ≤ (s.rxLen : Int) ∧ t = s.writeCfo s.estPhase (s.phaseHz s.estPhase)) := by
  obtain hr | ⟨hc, h1, h⟩ := State.cfoChecks_cases h
  · exact .inl hr
  · obtain rfl | ⟨h2, h3, h⟩ := State.whenInRange_cases h
    · exact .inl ⟨_, _, rfl⟩
    · exact .inr ⟨hc, h1, h2, h3, (Host.Outcome.next.inj h).symm⟩

/-- Everything `derotateRxb` can answer (44_cfo.md R183). -/
theorem State.derotateRxb_cases (s : State) (hz : RNum) :
    (s.rxLen = 0 ∧ s.derotateRxb hz = s) ∨ (0 < s.rxLen ∧ s.derotateRxb hz = s.writeRxb (s.derotate hz)) := by
  rw [derotateRxb]
  split_ifs with h
  · exact .inl ⟨h, rfl⟩
  · exact .inr ⟨by omega, rfl⟩

/-- `derotateRxb` changes the contents of `RXB` only. -/
theorem State.derotateRxb_eq (s : State) (hz : RNum) :
    s.derotateRxb hz =
      { s with mem := { s.mem with rxb := if s.rxLen = 0 then s.mem.rxb else .ofList (s.derotate hz) } } := by
  rw [derotateRxb]
  split_ifs <;> rfl

@[simp] theorem State.writeCfo_derotate (s : State) (a b hz : RNum) : (s.writeCfo a b).derotate hz = s.derotate hz := rfl

theorem execCforot_cases (h : execCforot s = .next t) :
    (∃ c v, t = s.raise c v) ∨
      (s.cfgv = true ∧ s.rxLen ≤ s.params.capRxb ∧ t = s.derotateRxb s.cfoHz) := by
  obtain hr | ⟨hc, h1, h⟩ := State.cfoChecks_cases h
  · exact .inl hr
  · exact .inr ⟨hc, h1, (Host.Outcome.next.inj h).symm⟩

theorem execCfocorr_cases (h : execCfocorr s = .next t) :
    (∃ c v, t = s.raise c v) ∨
      (s.cfgv = true ∧ s.rxLen ≤ s.params.capRxb ∧ 0 ≤ s.startOffset ∧
        s.startOffset + (s.period : Int) ≤ (s.rxLen : Int) ∧
        t = (s.writeCfo s.estPhase (s.phaseHz s.estPhase)).derotateRxb (s.phaseHz s.estPhase)) := by
  obtain hr | ⟨hc, h1, h⟩ := State.cfoChecks_cases h
  · exact .inl hr
  · obtain rfl | ⟨h2, h3, h⟩ := State.whenInRange_cases h
    · exact .inl ⟨_, _, rfl⟩
    · exact .inr ⟨hc, h1, h2, h3, (Host.Outcome.next.inj h).symm⟩

theorem execDemod_cases {sub xs eq aq ps sk orj : Bool} (h : execDemod sub xs eq aq ps sk orj s = .next t) :
    (∃ c v, t = s.raise c v) ∨
      (s.cfgv = true ∧ s.rxLen ≤ s.params.capRxb ∧ s.bndLen ≤ s.params.capBnd ∧
        (eq = true → 2 ≤ s.rowPilots sub) ∧ s.outOfRange xs = none ∧
        ((eq && aq) = true → firstZeroAmp RNum.lt s.pilotPos (s.rawRows sub xs) = none) ∧
        ∃ y, y = s.stream (s.rowWidth sub ps) sk orj ((s.rawRows sub xs).map (s.finishRow eq aq ps)) ∧
          y.length ≤ s.params.capSym ∧ t = s.writeSym y (s.rowWidth sub ps)) := by
  obtain ⟨-, rfl⟩ | ⟨hc, h⟩ := State.whenConfigured_cases h
  · exact .inl ⟨_, _, rfl⟩
  · split_ifs at h with h1 h2 h3
    · exact .inl ⟨_, _, (Host.Outcome.next.inj h).symm⟩
    · exact .inl ⟨_, _, (Host.Outcome.next.inj h).symm⟩
    · exact .inl ⟨_, _, (Host.Outcome.next.inj h).symm⟩
    · split at h
      · exact .inl ⟨_, _, (Host.Outcome.next.inj h).symm⟩
      · rename_i ho
        simp only [State.demodRows] at h
        split at h
        · exact .inl ⟨_, _, (Host.Outcome.next.inj h).symm⟩
        · rename_i hz
          split_ifs at h
          · exact .inl ⟨_, _, (Host.Outcome.next.inj h).symm⟩
          · refine .inr ⟨hc, by omega, by omega, ?_, ho, ?_, _, rfl, by omega, (Host.Outcome.next.inj h).symm⟩
            · intro he; simp [he] at h3; omega
            · intro he; simpa [he] using hz

/-- Every command has a next state: the faults of the spec are taken (60_exceptions.md R224). -/
theorem exec_next (i : Instr) (s : State) : ∃ t, exec i s = .next t := by
  cases i <;> simp only [exec, execCfg, execZcgen, execPssgen, execMod, execSynccp, execSyncpss, execCfoest, execCforot,
    execCfocorr, execDemod, State.whenConfigured, State.timingChecks, State.cfoChecks, State.whenInRange, State.demodRows,
    State.fail]
  all_goals repeat (first | exact ⟨_, rfl⟩ | split)

end Sys2Proof.Machine
end

