-- ==== Sys2Proof/Laws/Decode.lean ====
section
/-! SUPPORT. The fields of a command word, and the word of given fields (30_encoding.md R80). -/

namespace Sys2Proof

theorem cmdWord_toNat (op fl : Octet) (imm : Half) :
    (cmdWord op fl imm).toNat = op.toNat + 256 * fl.toNat + 65536 * imm.toNat := by
  have h1 := op.isLt
  have h2 := fl.isLt
  have h3 := imm.isLt
  rw [cmdWord, BitVec.toNat_append, BitVec.toNat_append, ← Nat.shiftLeft_add_eq_or_of_lt h1,
    ← Nat.shiftLeft_add_eq_or_of_lt h2, Nat.shiftLeft_eq, Nat.shiftLeft_eq]
  omega

@[simp] theorem opField_cmdWord (op fl : Octet) (imm : Half) : opField (cmdWord op fl imm) = op := by
  apply BitVec.eq_of_toNat_eq
  have := op.isLt
  simp only [opField, BitVec.extractLsb'_toNat, cmdWord_toNat, Nat.shiftRight_zero]
  omega

@[simp] theorem flField_cmdWord (op fl : Octet) (imm : Half) : flField (cmdWord op fl imm) = fl := by
  apply BitVec.eq_of_toNat_eq
  have := op.isLt
  have := fl.isLt
  simp only [flField, BitVec.extractLsb'_toNat, cmdWord_toNat, Nat.shiftRight_eq_div_pow]
  omega

@[simp] theorem immField_cmdWord (op fl : Octet) (imm : Half) : immField (cmdWord op fl imm) = imm := by
  apply BitVec.eq_of_toNat_eq
  have := op.isLt
  have := fl.isLt
  have := imm.isLt
  simp only [immField, BitVec.extractLsb'_toNat, cmdWord_toNat, Nat.shiftRight_eq_div_pow]
  omega

/-- A word is the word of its three fields. -/
theorem cmdWord_fields (w : Word) : cmdWord (opField w) (flField w) (immField w) = w := by
  apply BitVec.eq_of_toNat_eq
  have := w.isLt
  simp only [cmdWord_toNat, opField, flField, immField, BitVec.extractLsb'_toNat, Nat.shiftRight_eq_div_pow]
  omega

theorem opField_toNat (w : Word) : (opField w).toNat = w.toNat % 256 := by
  simp [opField, BitVec.extractLsb'_toNat]

theorem flField_toNat (w : Word) : (flField w).toNat = w.toNat / 256 % 256 := by
  simp [flField, BitVec.extractLsb'_toNat, Nat.shiftRight_eq_div_pow]

theorem immField_toNat (w : Word) : (immField w).toNat = w.toNat / 65536 := by
  have := w.isLt
  simp only [immField, BitVec.extractLsb'_toNat, Nat.shiftRight_eq_div_pow]
  omega

theorem flags8_getLsbD (b7 b6 b5 b4 b3 b2 b1 b0 : Bool) (i : Nat) (h : i < 8) :
    (flags8 b7 b6 b5 b4 b3 b2 b1 b0).getLsbD i = [b0, b1, b2, b3, b4, b5, b6, b7].getD i false := by
  interval_cases i <;> revert b7 b6 b5 b4 b3 b2 b1 b0 <;> decide

/-- Flags are the flags of their bits. -/
theorem flags8_bits (f : Octet) :
    flags8 (f.getLsbD 7) (f.getLsbD 6) (f.getLsbD 5) (f.getLsbD 4) (f.getLsbD 3) (f.getLsbD 2) (f.getLsbD 1)
      (f.getLsbD 0) = f := by
  apply BitVec.eq_of_getLsbD_eq
  intro i hi
  rw [flags8_getLsbD _ _ _ _ _ _ _ _ i hi]
  interval_cases i <;> rfl

end Sys2Proof
end

