-- ==== Sys2Proof/Laws/Num.lean ====
section
/-! SUPPORT. The operations on terms agree with the real and complex numbers the terms stand for (00_scope.md R7, R10):
one lemma per operation. -/

namespace Sys2Proof

/-! ## Real terms -/

theorem RNum.rat?_eq_some {a : RNum} {q : Rat} (h : a.rat? = some q) : a = .rat q := by
  cases a <;> simp_all [RNum.rat?]

@[simp] theorem RNum.rat?_rat (q : Rat) : (RNum.rat q).rat? = some q := rfl

@[simp] theorem RNum.val_rat (ρ : Nat → ℝ) (q : Rat) : (RNum.rat q).val ρ = (q : ℝ) := rfl

@[simp] theorem RNum.val_pi (ρ : Nat → ℝ) : RNum.pi.val ρ = Real.pi := rfl

@[simp] theorem RNum.val_atom (ρ : Nat → ℝ) (k : Nat) : (RNum.atom k).val ρ = ρ k := rfl

@[simp] theorem RNum.val_zero (ρ : Nat → ℝ) : RNum.zero.val ρ = 0 := by simp [RNum.zero]

@[simp] theorem RNum.val_one (ρ : Nat → ℝ) : RNum.one.val ρ = 1 := by simp [RNum.one]

@[simp] theorem RNum.val_ofNat (ρ : Nat → ℝ) (n : Nat) : (RNum.ofNat n).val ρ = n := by simp [RNum.ofNat]

/-- The values of two terms that may be written as rational numbers. -/
theorem RNum.rat?_cases (a : RNum) : (∃ q, a = .rat q ∧ a.rat? = some q) ∨ a.rat? = none := by
  rcases h : a.rat? with _ | q
  · exact .inr rfl
  · exact .inl ⟨q, rat?_eq_some h, rfl⟩

@[simp] theorem RNum.val_plus (ρ : Nat → ℝ) (a b : RNum) : (a.plus b).val ρ = a.val ρ + b.val ρ := by
  obtain ⟨p, rfl, -⟩ | ha := rat?_cases a <;> obtain ⟨q, rfl, -⟩ | hb := rat?_cases b
  · simp [plus]
  · simp only [plus, rat?_rat, hb]; split_ifs with h <;> simp [val, h]
  · simp only [plus, rat?_rat, ha]; split_ifs with h <;> simp [val, h]
  · simp [plus, ha, hb, val]

@[simp] theorem RNum.val_minus (ρ : Nat → ℝ) (a : RNum) : a.minus.val ρ = -a.val ρ := by
  obtain ⟨p, rfl, -⟩ | ha := rat?_cases a
  · simp [minus]
  · simp [minus, ha, val]

@[simp] theorem RNum.val_sub (ρ : Nat → ℝ) (a b : RNum) : (a.sub b).val ρ = a.val ρ - b.val ρ := by
  simp [sub, sub_eq_add_neg]

@[simp] theorem RNum.val_times (ρ : Nat → ℝ) (a b : RNum) : (a.times b).val ρ = a.val ρ * b.val ρ := by
  obtain ⟨p, rfl, -⟩ | ha := rat?_cases a <;> obtain ⟨q, rfl, -⟩ | hb := rat?_cases b
  · simp [times]
  · simp only [times, rat?_rat, hb]; split_ifs with h h1 <;> simp [val, *]
  · simp only [times, rat?_rat, ha]; split_ifs with h h1 <;> simp [val, *]
  · simp [times, ha, hb, val]

@[simp] theorem RNum.val_quot (ρ : Nat → ℝ) (a b : RNum) : (a.quot b).val ρ = a.val ρ / b.val ρ := by
  obtain ⟨p, rfl, -⟩ | ha := rat?_cases a <;> obtain ⟨q, rfl, -⟩ | hb := rat?_cases b
  · simp only [quot, rat?_rat]; split_ifs with h <;> simp [val]
  · simp only [quot, rat?_rat, hb]; split_ifs with h <;> simp [val, *]
  · simp only [quot, rat?_rat, ha]; split_ifs with h <;> simp [val, *]
  · simp [quot, ha, hb, val]

/-- A square root that `ratRoot?` finds is one. -/
theorem ratRoot?_spec {q r : Rat} (h : ratRoot? q = some r) : 0 ≤ r ∧ r * r = q := by
  simp only [ratRoot?] at h
  split_ifs at h with h1
  simp only [Option.some.injEq] at h
  subst h
  exact ⟨by positivity, h1⟩

@[simp] theorem RNum.val_root (ρ : Nat → ℝ) (a : RNum) : a.root.val ρ = Real.sqrt (a.val ρ) := by
  obtain ⟨q, rfl, -⟩ | ha := rat?_cases a
  · simp only [root, rat?_rat]
    rcases h : ratRoot? q with _ | r
    · simp [val]
    · obtain ⟨h0, h1⟩ := ratRoot?_spec h
      have h2 : (q : ℝ) = (r : ℝ) * r := by rw [← h1]; push_cast; ring
      simp only [val_rat, h2]
      rw [Real.sqrt_mul_self (by exact_mod_cast h0)]
  · simp [root, ha, val]

@[simp] theorem RNum.val_cosine (ρ : Nat → ℝ) (a : RNum) : a.cosine.val ρ = Real.cos (a.val ρ) := by
  unfold cosine; split_ifs with h <;> simp [h, val]

@[simp] theorem RNum.val_sine (ρ : Nat → ℝ) (a : RNum) : a.sine.val ρ = Real.sin (a.val ρ) := by
  unfold sine; split_ifs with h <;> simp [h, val]

theorem rat_cast_of_den_one {q : Rat} (h : q.den = 1) : (q : ℝ) = (q.num : ℝ) := by
  have : (q.num : Rat) = q := Rat.coe_int_num_of_den_eq_one h
  exact_mod_cast congrArg (fun x : Rat => (x : ℝ)) this.symm

theorem rat_cast_of_den_two {q : Rat} (h : q.den = 2) : (q : ℝ) = (q.num : ℝ) / 2 := by
  have : q = (q.num : Rat) / (q.den : Rat) := (Rat.num_div_den q).symm
  rw [h] at this
  conv_lhs => rw [this]
  push_cast
  rfl

theorem rat_num_odd_of_den_two {q : Rat} (h : q.den = 2) : q.num % 2 = 1 := by
  have := q.reduced
  rw [h] at this
  have h2 : ¬ (2 : ℕ) ∣ q.num.natAbs := fun hd => by
    have h3 := Nat.dvd_gcd hd (dvd_refl 2)
    rw [Nat.Coprime] at this
    omega
  omega

@[simp] theorem RNum.val_cosPi (ρ : Nat → ℝ) (q : Rat) : (cosPi q).val ρ = Real.cos (Real.pi * q) := by
  unfold cosPi
  split_ifs with h1 h2 h3
  · obtain ⟨k, hk⟩ : ∃ k : ℤ, q.num = 2 * k := ⟨q.num / 2, by omega⟩
    rw [rat_cast_of_den_one h1, hk]
    have : Real.pi * ((2 * k : ℤ) : ℝ) = (k : ℝ) * (2 * Real.pi) := by push_cast; ring
    rw [this, Real.cos_int_mul_two_pi]; simp
  · obtain ⟨k, hk⟩ : ∃ k : ℤ, q.num = 2 * k + 1 := ⟨q.num / 2, by omega⟩
    rw [rat_cast_of_den_one h1, hk]
    have : Real.pi * ((2 * k + 1 : ℤ) : ℝ) = Real.pi + (k : ℝ) * (2 * Real.pi) := by push_cast; ring
    rw [this, Real.cos_add_int_mul_two_pi]; simp
  · have ho := rat_num_odd_of_den_two h3
    obtain ⟨k, hk⟩ : ∃ k : ℤ, q.num = 2 * k + 1 := ⟨q.num / 2, by omega⟩
    rw [rat_cast_of_den_two h3, hk]
    have : Real.pi * (((2 * k + 1 : ℤ) : ℝ) / 2) = (2 * k + 1) * Real.pi / 2 := by push_cast; ring
    rw [this]
    have := Real.cos_eq_zero_iff.mpr ⟨k, rfl⟩
    rw [this]; simp
  · simp [val, mul_comm]

@[simp] theorem RNum.val_sinPi (ρ : Nat → ℝ) (q : Rat) : (sinPi q).val ρ = Real.sin (Real.pi * q) := by
  unfold sinPi
  split_ifs with h1 h2 h3
  · rw [rat_cast_of_den_one h1, mul_comm, Real.sin_int_mul_pi]; simp
  · obtain ⟨k, hk⟩ : ∃ k : ℤ, q.num = 4 * k + 1 := ⟨q.num / 4, by omega⟩
    rw [rat_cast_of_den_two h2, hk]
    have : Real.pi * (((4 * k + 1 : ℤ) : ℝ) / 2) = Real.pi / 2 + (k : ℝ) * (2 * Real.pi) := by push_cast; ring
    rw [this, Real.sin_add_int_mul_two_pi]; simp
  · have ho := rat_num_odd_of_den_two h2
    obtain ⟨k, hk⟩ : ∃ k : ℤ, q.num = 4 * k + 3 := ⟨q.num / 4, by omega⟩
    rw [rat_cast_of_den_two h2, hk]
    have : Real.pi * (((4 * k + 3 : ℤ) : ℝ) / 2) = (Real.pi / 2 + Real.pi) + (k : ℝ) * (2 * Real.pi) := by
      push_cast; ring
    rw [this, Real.sin_add_int_mul_two_pi, Real.sin_add_pi]; simp
  · simp [val, mul_comm]

@[simp] theorem RNum.val_angle (ρ : Nat → ℝ) (x y : RNum) :
    (angle x y).val ρ = Complex.arg ⟨x.val ρ, y.val ρ⟩ := by
  obtain ⟨p, rfl, -⟩ | hx := rat?_cases x <;> obtain ⟨q, rfl, -⟩ | hy := rat?_cases y
  · simp only [angle, rat?_rat]
    split_ifs with hq hp
    · subst hq
      have : (⟨(p : ℝ), ((0 : Rat) : ℝ)⟩ : ℂ) = ((p : ℝ) : ℂ) := by apply Complex.ext <;> simp
      simp only [val_zero, val_rat, this]
      rw [Complex.arg_ofReal_of_nonneg (by exact_mod_cast hp)]
    · subst hq
      have : (⟨(p : ℝ), ((0 : Rat) : ℝ)⟩ : ℂ) = ((p : ℝ) : ℂ) := by apply Complex.ext <;> simp
      simp only [val_pi, val_rat, this]
      rw [Complex.arg_ofReal_of_neg (by exact_mod_cast not_le.mp hp)]
    · simp [val]
  all_goals simp [angle, *, val]

@[simp] theorem RNum.val_sum (ρ : Nat → ℝ) (n : Nat) (f : Nat → RNum) :
    (RNum.sum n f).val ρ = ∑ t ∈ Finset.range n, (f t).val ρ := by
  induction n with
  | zero => simp [RNum.sum]
  | succ n ih => simp [RNum.sum, ih, Finset.sum_range_succ]

/-! ## Complex terms -/

@[simp] theorem Cplx.val_re (ρ : Nat → ℝ) (z : Cplx) : (z.val ρ).re = z.re.val ρ := rfl

@[simp] theorem Cplx.val_im (ρ : Nat → ℝ) (z : Cplx) : (z.val ρ).im = z.im.val ρ := rfl

@[simp] theorem Cplx.val_zero (ρ : Nat → ℝ) : Cplx.zero.val ρ = 0 := by
  apply Complex.ext <;> simp [zero]

@[simp] theorem Cplx.val_one (ρ : Nat → ℝ) : Cplx.one.val ρ = 1 := by
  apply Complex.ext <;> simp [one]

@[simp] theorem Cplx.val_ofNum (ρ : Nat → ℝ) (a : RNum) : (Cplx.ofNum a).val ρ = (a.val ρ : ℂ) := by
  apply Complex.ext <;> simp [ofNum]

@[simp] theorem Cplx.val_plus (ρ : Nat → ℝ) (z w : Cplx) : (z.plus w).val ρ = z.val ρ + w.val ρ := by
  apply Complex.ext <;> simp [plus]

@[simp] theorem Cplx.val_times (ρ : Nat → ℝ) (z w : Cplx) : (z.times w).val ρ = z.val ρ * w.val ρ := by
  apply Complex.ext <;> simp [times]

@[simp] theorem Cplx.val_scale (ρ : Nat → ℝ) (a : RNum) (z : Cplx) : (z.scale a).val ρ = (a.val ρ : ℂ) * z.val ρ := by
  apply Complex.ext <;> simp [scale]

@[simp] theorem Cplx.val_conj (ρ : Nat → ℝ) (z : Cplx) : z.conj.val ρ = (starRingEnd ℂ) (z.val ρ) := by
  apply Complex.ext <;> simp [conj]

@[simp] theorem Cplx.val_normSq (ρ : Nat → ℝ) (z : Cplx) : z.normSq.val ρ = ‖z.val ρ‖ ^ 2 := by
  rw [← Complex.normSq_eq_norm_sq]
  simp [normSq, Complex.normSq_apply]

@[simp] theorem Cplx.val_abs (ρ : Nat → ℝ) (z : Cplx) : z.abs.val ρ = ‖z.val ρ‖ := by
  simp [abs]

@[simp] theorem Cplx.val_arg (ρ : Nat → ℝ) (z : Cplx) : z.arg.val ρ = (z.val ρ).arg := by
  simp [arg, Cplx.val]

@[simp] theorem Cplx.val_cis (ρ : Nat → ℝ) (t : RNum) :
    (cis t).val ρ = Complex.exp ((t.val ρ : ℂ) * Complex.I) := by
  apply Complex.ext
  · simp [cis, Complex.exp_ofReal_mul_I_re]
  · simp [cis, Complex.exp_ofReal_mul_I_im]

@[simp] theorem Cplx.val_cisPi (ρ : Nat → ℝ) (q : Rat) :
    (cisPi q).val ρ = Complex.exp ((Real.pi * q : ℝ) * Complex.I) := by
  apply Complex.ext
  · rw [Complex.exp_ofReal_mul_I_re]; simp [cisPi]
  · rw [Complex.exp_ofReal_mul_I_im]; simp [cisPi]

@[simp] theorem Cplx.val_sum (ρ : Nat → ℝ) (n : Nat) (f : Nat → Cplx) :
    (Cplx.sum n f).val ρ = ∑ t ∈ Finset.range n, (f t).val ρ := by
  induction n with
  | zero => simp [Cplx.sum]
  | succ n ih => simp [Cplx.sum, ih, Finset.sum_range_succ]

/-! ## Sequences -/

@[simp] theorem tabulate_length {α : Type} (n : Nat) (f : Nat → α) : (tabulate n f).length = n := by
  simp [tabulate]

theorem tabulate_getElem? {α : Type} (n : Nat) (f : Nat → α) (i : Nat) :
    (tabulate n f)[i]? = if i < n then some (f i) else none := by
  unfold tabulate
  rw [List.getElem?_map]
  split_ifs with h
  · rw [List.getElem?_range h]; rfl
  · rw [List.getElem?_eq_none (by simpa using h)]; rfl

theorem Cplx.nth_tabulate (n : Nat) (f : Nat → Cplx) {i : Nat} (h : i < n) : Cplx.nth (tabulate n f) i = f i := by
  rw [Cplx.nth, List.getD, tabulate_getElem?, if_pos h]; rfl

theorem RNum.nth_tabulate (n : Nat) (f : Nat → RNum) {i : Nat} (h : i < n) : RNum.nth (tabulate n f) i = f i := by
  rw [RNum.nth, List.getD, tabulate_getElem?, if_pos h]; rfl

/-! ## The OPEN parameters meet their constraints (00_scope.md R6) -/

theorem Config.positive_pos (ρ : Nat → ℝ) (n d : Nat) (y : RNum) : 0 < (Config.positive n d y).val ρ := by
  have h : (0 : ℝ) < ((((n + 1 : Nat) : Rat) / ((d + 1 : Nat) : Rat) : Rat) : ℝ) := by
    have : (0 : Rat) < ((n + 1 : Nat) : Rat) / ((d + 1 : Nat) : Rat) := by positivity
    exact_mod_cast this
  exact add_pos_of_pos_of_nonneg h (mul_self_nonneg _)

theorem Config.txAmplitude_pos (ρ : Nat → ℝ) : 0 < Config.txAmplitude.val ρ := Config.positive_pos ρ _ _ _

theorem Config.pilotValue_ne_zero (ρ : Nat → ℝ) : Config.pilotValue.val ρ ≠ 0 := by
  intro h
  have hm := Config.positive_pos ρ Config.pilotNumer Config.pilotDenom Config.pilotRest
  have hr := congrArg Complex.re h
  have hi := congrArg Complex.im h
  simp only [Config.pilotValue, Cplx.val, RNum.val, Complex.zero_re, Complex.zero_im, mul_eq_zero, hm.ne', false_or]
    at hr hi
  have := Real.sin_sq_add_cos_sq (Config.pilotAngle.val ρ)
  rw [hr, hi] at this
  norm_num at this

end Sys2Proof
end

