-- ==== Sys2Proof/Laws/Enclose.lean ====
section
/-! SUPPORT. The bounds of a term are bounds of the number it stands for, and a comparison they decide is exact
(00_scope.md R7). -/

namespace Sys2Proof

/-- The number `x` lies in the interval. -/
def Span.Has (i : Span) (x : ℝ) : Prop := (i.lo : ℝ) ≤ x ∧ x ≤ (i.hi : ℝ)

theorem Span.has_point (q : Rat) : Span.Has ⟨q, q⟩ (q : ℝ) := ⟨le_rfl, le_rfl⟩

theorem gridScale_pos : 0 < gridScale := by norm_num [gridScale]

theorem Span.has_round {i : Span} {x : ℝ} (h : i.Has x) : i.round.Has x := by
  have hg := gridScale_pos
  have h1 : ((⌊i.lo * gridScale⌋ : Rat) / gridScale) ≤ i.lo := by
    rw [div_le_iff₀ hg]; exact Int.floor_le _
  have h2 : i.hi ≤ ((⌈i.hi * gridScale⌉ : Rat) / gridScale) := by
    rw [le_div_iff₀ hg]; exact Int.le_ceil _
  exact ⟨le_trans (by exact_mod_cast h1) h.1, le_trans h.2 (by exact_mod_cast h2)⟩

theorem Span.has_add {i j : Span} {x y : ℝ} (hx : i.Has x) (hy : j.Has y) : (i.add j).Has (x + y) := by
  obtain ⟨a, b⟩ := hx
  obtain ⟨c, d⟩ := hy
  constructor <;> simp only [add] <;> push_cast <;> linarith

theorem Span.has_neg {i : Span} {x : ℝ} (hx : i.Has x) : i.neg.Has (-x) := by
  obtain ⟨a, b⟩ := hx
  constructor <;> simp only [neg] <;> push_cast <;> linarith

theorem Span.has_pad {i : Span} {x y : ℝ} {r : Rat} (hx : i.Has x) (h : |y - x| ≤ (r : ℝ)) : (i.pad r).Has y := by
  obtain ⟨a, b⟩ := hx
  rw [abs_le] at h
  constructor <;> simp only [pad] <;> push_cast <;> linarith [h.1, h.2]

/-- A product with one factor in an interval lies between the products with its ends. -/
theorem between_mul {a b x : ℝ} (h1 : a ≤ x) (h2 : x ≤ b) (y : ℝ) : min (a * y) (b * y) ≤ x * y ∧ x * y ≤ max (a * y) (b * y) := by
  rcases le_total 0 y with hy | hy
  · exact ⟨le_trans (min_le_left _ _) (by gcongr), le_trans (by gcongr) (le_max_right _ _)⟩
  · exact ⟨le_trans (min_le_right _ _) (mul_le_mul_of_nonpos_right h2 hy),
      le_trans (mul_le_mul_of_nonpos_right h1 hy) (le_max_left _ _)⟩

theorem Span.has_mul {i j : Span} {x y : ℝ} (hx : i.Has x) (hy : j.Has y) : (i.mul j).Has (x * y) := by
  obtain ⟨a, b⟩ := hx
  obtain ⟨c, d⟩ := hy
  apply has_round
  have h0 := between_mul a b y
  have h1 := between_mul c d (i.lo : ℝ)
  have h2 := between_mul c d (i.hi : ℝ)
  simp only [mul_comm _ (i.lo : ℝ), mul_comm _ (i.hi : ℝ)] at h1 h2
  constructor <;> simp only [] <;> push_cast
  · exact le_trans (min_le_min h1.1 h2.1) h0.1
  · exact le_trans h0.2 (max_le_max h1.2 h2.2)

theorem Span.has_inv {i j : Span} {x : ℝ} (hx : i.Has x) (h : i.inv = some j) : j.Has x⁻¹ := by
  obtain ⟨a, b⟩ := hx
  simp only [inv] at h
  split_ifs at h with hc
  cases h
  apply has_round
  rcases hc with hc | hc
  · have hc' : (0 : ℝ) < i.lo := by exact_mod_cast hc
    constructor <;> simp only [one_div] <;> push_cast <;> gcongr
    linarith
  · have hc' : (i.hi : ℝ) < 0 := by exact_mod_cast hc
    constructor <;> simp only [one_div] <;> push_cast
    · exact (inv_le_inv_of_neg hc' (by linarith)).mpr b
    · exact (inv_le_inv_of_neg (by linarith) (by linarith)).mpr a

theorem lowRoot_le {q : Rat} {x : ℝ} (h : (q : ℝ) ≤ x) : (lowRoot q : ℝ) ≤ √x := by
  simp only [lowRoot]
  split_ifs with hc
  · apply Real.le_sqrt_of_sq_le
    have : ((rootBelow q * rootBelow q : Rat) : ℝ) ≤ q := by exact_mod_cast hc.2
    push_cast at this
    nlinarith
  · simp

theorem le_highRoot {q : Rat} {x : ℝ} (h : x ≤ (q : ℝ)) : √x ≤ (highRoot q : ℝ) := by
  simp only [highRoot]
  split_ifs with hc
  · rw [Real.sqrt_le_iff]
    refine ⟨by exact_mod_cast hc.1, ?_⟩
    have : (q : ℝ) ≤ ((rootBelow q + 2 / gridScale) * (rootBelow q + 2 / gridScale) : Rat) := by exact_mod_cast hc.2
    rw [sq]
    push_cast at this ⊢
    linarith
  · push_cast
    rcases le_total x 1 with h1 | h1
    · exact le_trans (Real.sqrt_le_one.mpr h1) (le_max_left _ _)
    · refine le_trans ?_ (le_trans h (le_max_right _ _))
      rw [Real.sqrt_le_left (by linarith)]
      nlinarith

theorem Span.has_root {i : Span} {x : ℝ} (h : i.Has x) : i.root.Has (√x) := ⟨lowRoot_le h.1, le_highRoot h.2⟩

theorem cisSeries_spec (x : Rat) (n : Nat) :
    (⟨((cisSeries x n).1.1 : ℝ), ((cisSeries x n).1.2 : ℝ)⟩ : ℂ) =
        ∑ k ∈ Finset.range n, ((x : ℂ) * Complex.I) ^ k / (k.factorial : ℂ) ∧
      (⟨((cisSeries x n).2.1 : ℝ), ((cisSeries x n).2.2 : ℝ)⟩ : ℂ) = ((x : ℂ) * Complex.I) ^ n / (n.factorial : ℂ) := by
  induction n with
  | zero => constructor <;> apply Complex.ext <;> simp [cisSeries]
  | succ n ih =>
    obtain ⟨h1, h2⟩ := ih
    constructor
    · rw [Finset.sum_range_succ, ← h1, ← h2]
      apply Complex.ext <;> simp [cisSeries]
    · have h3 : ((x : ℂ) * Complex.I) ^ (n + 1) / ((n + 1).factorial : ℂ) =
          ((x : ℂ) * Complex.I) ^ n / (n.factorial : ℂ) * ((x : ℂ) * Complex.I) / ((n : ℂ) + 1) := by
        rw [pow_succ, Nat.factorial_succ]
        push_cast
        rw [mul_comm ((n : ℂ) + 1), ← div_div]
        ring
      rw [h3, ← h2]
      have h4 : ((n : ℂ) + 1) = (((n : ℝ) + 1 : ℝ) : ℂ) := by push_cast; rfl
      rw [h4, show (x : ℂ) = ((x : ℝ) : ℂ) by push_cast; rfl]
      apply Complex.ext
      · rw [Complex.div_ofReal_re]; simp [cisSeries]
      · rw [Complex.div_ofReal_im]; simp [cisSeries]

theorem cisSmall_spec (x : Rat) : (cisSmall x).1.Has (Real.cos x) ∧ (cisSmall x).2.Has (Real.sin x) := by
  simp only [cisSmall]
  split_ifs with hx
  · have hn : ‖(x : ℂ) * Complex.I‖ = |(x : ℝ)| := by
      rw [show (x : ℂ) = ((x : ℝ) : ℂ) by push_cast; rfl]
      simp
    have hb := Complex.exp_bound (x := (x : ℂ) * Complex.I) (by rw [hn]; exact_mod_cast hx) (n := 16) (by norm_num)
    rw [← (cisSeries_spec x 16).1, hn] at hb
    have he : |(x : ℝ)| ^ 16 * ((Nat.succ 16 : ℝ) * ((Nat.factorial 16 : ℝ) * (16 : ℕ))⁻¹) =
        ((|x| ^ 16 * (17 / (20922789888000 * 16)) : Rat) : ℝ) := by
      push_cast
      norm_num [Nat.factorial]
    rw [he] at hb
    have hr := le_trans (Complex.abs_re_le_norm _) hb
    have hi := le_trans (Complex.abs_im_le_norm _) hb
    rw [show (x : ℂ) = ((x : ℝ) : ℂ) by push_cast; rfl] at hr hi
    rw [Complex.sub_re, Complex.exp_ofReal_mul_I_re] at hr
    rw [Complex.sub_im, Complex.exp_ofReal_mul_I_im] at hi
    exact ⟨Span.has_round (Span.has_pad (Span.has_point _) hr), Span.has_round (Span.has_pad (Span.has_point _) hi)⟩
  · exact ⟨⟨by simpa using Real.neg_one_le_cos _, by simpa using Real.cos_le_one _⟩,
      ⟨by simpa using Real.neg_one_le_sin _, by simpa using Real.sin_le_one _⟩⟩

theorem cisHalved_spec (m : Nat) (x : Rat) :
    (cisHalved m x).1.Has (Real.cos x) ∧ (cisHalved m x).2.Has (Real.sin x) := by
  induction m generalizing x with
  | zero => exact cisSmall_spec x
  | succ m ih =>
    obtain ⟨h1, h2⟩ := ih (x / 2)
    push_cast at h1 h2
    have hx : (x : ℝ) = 2 * (x / 2) := by ring
    constructor
    · rw [hx, Real.cos_two_mul', sq, sq, sub_eq_add_neg]
      exact Span.has_add (Span.has_mul h1 h1) (Span.has_neg (Span.has_mul h2 h2))
    · rw [hx, Real.sin_two_mul, mul_assoc, two_mul, mul_comm (Real.sin _)]
      exact Span.has_add (Span.has_mul h1 h2) (Span.has_mul h1 h2)

theorem cisSpan_spec {i : Span} {x : ℝ} (h : i.Has x) :
    (cisSpan i).1.Has (Real.cos x) ∧ (cisSpan i).2.Has (Real.sin x) := by
  obtain ⟨h1, h2⟩ := cisHalved_spec (⌈|(i.lo + i.hi) / 2|⌉.toNat.log2 + 2) ((i.lo + i.hi) / 2)
  have hd : |x - (((i.lo + i.hi) / 2 : Rat) : ℝ)| ≤ (((i.hi - i.lo) / 2 : Rat) : ℝ) := by
    push_cast
    rw [abs_le]
    constructor <;> linarith [h.1, h.2]
  exact ⟨Span.has_pad h1 (le_trans (Real.abs_cos_sub_cos_le _ _) hd),
    Span.has_pad h2 (le_trans (Real.abs_sin_sub_sin_le _ _) hd)⟩

theorem piSpan_has : piSpan.Has Real.pi := by
  have h1 := Real.pi_gt_d20
  have h2 := Real.pi_lt_d20
  constructor <;> simp only [piSpan] <;> push_cast <;> linarith

theorem arg_bounds (z : ℂ) : Span.Has ⟨-4, 4⟩ z.arg := by
  have := Complex.neg_pi_lt_arg z
  have := Complex.arg_le_pi z
  have := Real.pi_lt_four
  constructor <;> push_cast <;> linarith

theorem turnBack_spec {i j : Span} {x y : ℝ} (hx : i.Has x) (hy : j.Has y) (t : Rat) :
    (turnBack i j t).1.Has (x * Real.cos t + y * Real.sin t) ∧ (turnBack i j t).2.Has (y * Real.cos t - x * Real.sin t) := by
  obtain ⟨h1, h2⟩ := cisSpan_spec (Span.has_point t)
  exact ⟨Span.has_add (Span.has_mul hx h1) (Span.has_mul hy h2),
    by rw [sub_eq_add_neg]; exact Span.has_add (Span.has_mul hy h1) (Span.has_neg (Span.has_mul hx h2))⟩

theorem angleSpan_spec {i j : Span} {x y : ℝ} (hx : i.Has x) (hy : j.Has y) :
    (angleSpan i j).Has (Complex.arg ⟨x, y⟩) := by
  simp only [angleSpan]
  generalize angleGuess i j 8 = t
  split_ifs with hc
  swap
  · exact arg_bounds _
  obtain ⟨h1, h2⟩ := turnBack_spec hx hy t
  generalize turnBack i j t = w at *
  obtain ⟨hr, hu, hl⟩ := hc
  have hr' : (0 : ℝ) < w.1.lo := by exact_mod_cast hr
  set u := x * Real.cos t + y * Real.sin t with hu0
  set v := y * Real.cos t - x * Real.sin t with hv0
  set m : Rat := max |w.2.lo| |w.2.hi| / w.1.lo with hm0
  have hu1 : 0 < u := lt_of_lt_of_le hr' h1.1
  have hv : |v| ≤ max |(w.2.lo : ℝ)| |(w.2.hi : ℝ)| := abs_le_max_abs_abs h2.1 h2.2
  have hq : |v| / u ≤ (m : ℝ) := by
    rw [hm0]; push_cast
    exact div_le_div₀ (le_trans (abs_nonneg _) hv) hv hr' h1.1
  -- the angle that is left
  set z : ℂ := ⟨u, v⟩ with hz
  have hz0 : z ≠ 0 := fun h => by have := congrArg Complex.re h; simp [hz] at this; linarith
  have hlt : |z.arg| < Real.pi / 2 := Complex.abs_arg_lt_pi_div_two_iff.mpr (.inl hu1)
  have htan : |z.arg| ≤ |v| / u := by
    have h3 := Real.le_tan (abs_nonneg z.arg) hlt
    have h4 : Real.tan |z.arg| = |v| / u := by
      rcases abs_cases z.arg with ⟨h, h'⟩ | ⟨h, h'⟩
      · have hv0 : 0 ≤ v := by simpa [hz] using Complex.arg_nonneg_iff.mp h'
        rw [h, Complex.tan_arg, abs_of_nonneg hv0]
      · have hv0 : v < 0 := by simpa [hz] using Complex.arg_neg_iff.mp h'
        rw [h, Real.tan_neg, Complex.tan_arg, abs_of_neg hv0, neg_div]
    linarith
  have ha := abs_le.mp (le_trans htan hq)
  have hpi := piSpan_has
  have hu' : ((t : ℝ) + m) < piSpan.lo := by exact_mod_cast hu
  have hl' : -(piSpan.lo : ℝ) < t - m := by exact_mod_cast hl
  have key : (⟨x, y⟩ : ℂ) = (‖z‖ : ℝ) * (Complex.cos ((t + z.arg : ℝ) : ℂ) + Complex.sin ((t + z.arg : ℝ) : ℂ) * Complex.I) := by
    rw [← Complex.ofReal_cos, ← Complex.ofReal_sin]
    have hzr : ‖z‖ * Real.cos z.arg = u := Complex.norm_mul_cos_arg z
    have hzi : ‖z‖ * Real.sin z.arg = v := Complex.norm_mul_sin_arg z
    have hcs := Real.cos_sq_add_sin_sq (t : ℝ)
    apply Complex.ext
    · simp only [Complex.mul_re, Complex.add_re, Complex.ofReal_re, Complex.ofReal_im, Complex.I_re, Complex.I_im, Complex.add_im, Complex.mul_im]
      rw [Real.cos_add]
      have : x = u * Real.cos t - v * Real.sin t := by rw [hu0, hv0]; linear_combination (-x) * hcs
      linear_combination this - Real.cos t * hzr + Real.sin t * hzi
    · simp only [Complex.mul_re, Complex.add_re, Complex.ofReal_re, Complex.ofReal_im, Complex.I_re, Complex.I_im, Complex.add_im, Complex.mul_im]
      rw [Real.sin_add]
      have : y = u * Real.sin t + v * Real.cos t := by rw [hu0, hv0]; linear_combination (-y) * hcs
      linear_combination this - Real.sin t * hzr - Real.cos t * hzi
  rw [key, Complex.arg_mul_cos_add_sin_mul_I (norm_pos_iff.mpr hz0) ⟨by linarith [hpi.1, ha.1], by linarith [hpi.1, ha.2]⟩]
  constructor <;> push_cast <;> linarith [ha.1, ha.2]

/-- The bounds of a term are bounds of the number it stands for. -/
theorem RNum.span_has (ρ : Nat → ℝ) : ∀ (a : RNum) (i : Span), a.span = some i → i.Has (a.val ρ)
  | .rat q, i, h => by cases h; exact Span.has_point q
  | .pi, i, h => by cases h; exact piSpan_has
  | .add a b, i, h => by
    simp only [span] at h
    split at h <;> cases h
    exact Span.has_add (span_has ρ a _ ‹_›) (span_has ρ b _ ‹_›)
  | .neg a, i, h => by
    simp only [span, Option.map_eq_some_iff] at h
    obtain ⟨j, hj, rfl⟩ := h
    exact Span.has_neg (span_has ρ a j hj)
  | .mul a b, i, h => by
    simp only [span] at h
    split at h <;> cases h
    exact Span.has_mul (span_has ρ a _ ‹_›) (span_has ρ b _ ‹_›)
  | .div a b, i, h => by
    simp only [span] at h
    split at h
    · simp only [Option.map_eq_some_iff] at h
      obtain ⟨k, hk, rfl⟩ := h
      rw [val, div_eq_mul_inv]
      exact Span.has_mul (span_has ρ a _ ‹_›) (Span.has_inv (span_has ρ b _ ‹_›) hk)
    · cases h
  | .sqrt a, i, h => by
    simp only [span, Option.map_eq_some_iff] at h
    obtain ⟨j, hj, rfl⟩ := h
    exact Span.has_root (span_has ρ a j hj)
  | .cos a, i, h => by
    simp only [span] at h
    split at h <;> cases h
    · exact (cisSpan_spec (span_has ρ a _ ‹_›)).1
    · exact ⟨by simpa [val] using Real.neg_one_le_cos _, by simpa [val] using Real.cos_le_one _⟩
  | .sin a, i, h => by
    simp only [span] at h
    split at h <;> cases h
    · exact (cisSpan_spec (span_has ρ a _ ‹_›)).2
    · exact ⟨by simpa [val] using Real.neg_one_le_sin _, by simpa [val] using Real.sin_le_one _⟩
  | .arg x y, i, h => by
    simp only [span] at h
    split at h <;> cases h
    · exact angleSpan_spec (span_has ρ x _ ‹_›) (span_has ρ y _ ‹_›)
    · exact arg_bounds _

/-- A comparison that the bounds decide is exact. -/
theorem RNum.ltBounds_spec (ρ : Nat → ℝ) {a b : RNum} {r : Bool} (h : a.ltBounds b = some r) :
    r = true ↔ a.val ρ < b.val ρ := by
  simp only [ltBounds] at h
  split_ifs at h with hab
  · cases h; subst hab; simp
  · split at h
    · rename_i i j hi hj
      have h1 := span_has ρ a i hi
      have h2 := span_has ρ b j hj
      split_ifs at h with h3 h4 <;> cases h
      · have : (i.hi : ℝ) < j.lo := by exact_mod_cast h3
        simp only [true_iff]
        linarith [h1.2, h2.1]
      · have : (j.hi : ℝ) ≤ i.lo := by exact_mod_cast h4
        simp only [Bool.false_eq_true, false_iff, not_lt]
        linarith [h1.1, h2.2]
    · cases h

end Sys2Proof
end

