-- ==== Sys2Proof/Laws/Frames.lean ====
section
/-! SUPPORT. What each update of the state changes, as the registers and buffers that the host reads (10_state.md R25, R37):
one lemma per update. -/

namespace Sys2Proof.Machine

variable (s : State)

theorem raise_frame (c : Cause) (v : Word) : OnlyChanges [0x00, 0x01, 0x02] [] s (s.raise c v) := by
  refine ⟨fun no hno => ?_, fun b _ i => by cases b <;> rfl, rfl, rfl, rfl, rfl⟩
  simp only [List.mem_cons, List.not_mem_nil, or_false, not_or] at hno
  simp only [State.readCsr]
  split <;> first | rfl | omega

theorem writeGrid_frame (n g p : Nat) (l : List Nat) :
    OnlyChanges [0x00, 0x04, 0x05, 0x06, 0x07, 0x08, 0x09, 0x17, 0x2A] [.pil] s (s.writeGrid n g p l) := by
  refine ⟨fun no hno => ?_, fun b hb i => by cases b <;> first | rfl | simp at hb, rfl, rfl, rfl, rfl⟩
  simp only [List.mem_cons, List.not_mem_nil, or_false, not_or] at hno
  simp only [State.readCsr]
  split <;> first | rfl | omega

theorem writeSeq_frame (l : List Cplx) : OnlyChanges [0x29] [.seq] s (s.writeSeq l) := by
  refine ⟨fun no hno => ?_, fun b hb i => by cases b <;> first | rfl | simp at hb, rfl, rfl, rfl, rfl⟩
  simp only [List.mem_cons, List.not_mem_nil, or_false] at hno
  simp only [State.readCsr]
  split <;> first | rfl | omega

theorem writeTxo_frame (l : List Cplx) (r c : Nat) : OnlyChanges [0x21, 0x22, 0x23] [.txo] s (s.writeTxo l r c) := by
  refine ⟨fun no hno => ?_, fun b hb i => by cases b <;> first | rfl | simp at hb, rfl, rfl, rfl, rfl⟩
  simp only [List.mem_cons, List.not_mem_nil, or_false, not_or] at hno
  simp only [State.readCsr]
  split <;> first | rfl | omega

theorem writeTiming_frame (a : List RNum) (l : List Nat) :
    OnlyChanges [0x00, 0x25, 0x26] [.scr, .bnd] s (s.writeTiming a l) := by
  refine ⟨fun no hno => ?_, fun b hb i => by cases b <;> first | rfl | simp at hb, rfl, rfl, rfl, rfl⟩
  simp only [List.mem_cons, List.not_mem_nil, or_false, not_or] at hno
  simp only [State.readCsr]
  split <;> first | rfl | omega

theorem noteStart_frame (o : Option Int) : OnlyChanges [0x18] [] s (s.noteStart o) := by
  obtain ⟨w, hw⟩ := s.noteStart_eq o
  rw [hw]
  refine ⟨fun no hno => ?_, fun b _ i => by cases b <;> rfl, rfl, rfl, rfl, rfl⟩
  simp only [List.mem_cons, List.not_mem_nil, or_false] at hno
  simp only [State.readCsr]
  split <;> first | rfl | omega

theorem writeCfo_frame (p h : RNum) : OnlyChanges [0x19, 0x1A] [] s (s.writeCfo p h) := by
  refine ⟨fun no hno => ?_, fun b _ i => by cases b <;> rfl, rfl, rfl, rfl, rfl⟩
  simp only [List.mem_cons, List.not_mem_nil, or_false, not_or] at hno
  simp only [State.readCsr]
  split <;> first | rfl | omega

theorem writeRxb_frame (l : List Cplx) : OnlyChanges [] [.rxb] s (s.writeRxb l) :=
  ⟨fun _ _ => rfl, fun b hb i => by cases b <;> first | rfl | simp at hb, rfl, rfl, rfl, rfl⟩

theorem derotateRxb_frame (hz : RNum) : OnlyChanges [] [.rxb] s (s.derotateRxb hz) := by
  obtain ⟨-, h⟩ | ⟨-, h⟩ := s.derotateRxb_cases hz <;> rw [h]
  · exact ⟨fun _ _ => rfl, fun _ _ _ => rfl, rfl, rfl, rfl, rfl⟩
  · exact writeRxb_frame s _

theorem writeSym_frame (l : List Cplx) (c : Nat) : OnlyChanges [0x27, 0x28] [.sym] s (s.writeSym l c) := by
  refine ⟨fun no hno => ?_, fun b hb i => by cases b <;> first | rfl | simp at hb, rfl, rfl, rfl, rfl⟩
  simp only [List.mem_cons, List.not_mem_nil, or_false, not_or] at hno
  simp only [State.readCsr]
  split <;> first | rfl | omega

/-- Changes add up. -/
theorem OnlyChanges.trans {r1 r2 : List Nat} {b1 b2 : List BufName} {s t u : State} (h1 : OnlyChanges r1 b1 s t)
    (h2 : OnlyChanges r2 b2 t u) : OnlyChanges (r1 ++ r2) (b1 ++ b2) s u := by
  obtain ⟨a1, a2, a3, a4, a5, a6⟩ := h1
  obtain ⟨c1, c2, c3, c4, c5, c6⟩ := h2
  refine ⟨fun no hno => ?_, fun b hb i => ?_, c3.trans a3, c4.trans a4, c5.trans a5, c6.trans a6⟩
  · simp only [List.mem_append, not_or] at hno
    rw [c1 no hno.2, a1 no hno.1]
  · simp only [List.mem_append, not_or] at hb
    rw [c2 b hb.2 i, a2 b hb.1 i]

/-- A frame may name more than changes. -/
theorem OnlyChanges.mono {r1 r2 : List Nat} {b1 b2 : List BufName} {s t : State} (h : OnlyChanges r1 b1 s t)
    (hr : ∀ no ∈ r1, no ∈ r2) (hb : ∀ b ∈ b1, b ∈ b2) : OnlyChanges r2 b2 s t :=
  ⟨fun no hno => h.1 no fun hn => hno (hr no hn), fun b hbn i => h.2.1 b (fun hn => hbn (hb b hn)) i, h.2.2⟩

/-! ## What the buffers hold after each update -/

variable {s}

/-- A buffer of a length within its capacity holds what its elements are. -/
theorem holds_of {t : State} {b : BufName} {n : Nat} {f : Nat → ElemValue} (h : t.bufLen b = n) (hc : n ≤ t.bufCap b)
    (he : ∀ i, i < n → t.element b i = f i) : Holds t b n f := by
  refine ⟨h, fun i => ?_⟩
  rw [State.readBuf, h]
  by_cases hi : i < n
  · rw [if_pos ⟨hi, by omega⟩, if_pos hi, he i hi]
  · rw [if_neg (fun h => hi h.1), if_neg hi]

theorem writeGrid_holds {n g p : Nat} {l : List Nat} (hl : l.length = p) (hp : p < 4294967296)
    (hc : p ≤ s.params.capPil) : Holds (s.writeGrid n g p l) .pil p (fun k => .nat (l.getD k 0)) :=
  holds_of (Word.toNat_ofNat_of_lt hp) hc fun i hi => by
    simp [State.element, State.pilAt, List.getElem?_eq_getElem (hl ▸ hi), List.getD]

theorem writeSeq_holds {l : List Cplx} (hl : l.length < 4294967296) (hc : l.length ≤ s.params.capSeq) :
    Holds (s.writeSeq l) .seq l.length (fun k => .cplx (Cplx.nth l k)) :=
  holds_of (Word.toNat_ofNat_of_lt hl) hc fun i hi => by
    simp [State.element, Cplx.nth, List.getElem?_eq_getElem hi, List.getD]

theorem writeTxo_holds {l : List Cplx} {r c : Nat} (hl : l.length < 4294967296) (hc : l.length ≤ s.params.capTxo) :
    Holds (s.writeTxo l r c) .txo l.length (fun k => .cplx (Cplx.nth l k)) :=
  holds_of (Word.toNat_ofNat_of_lt hl) hc fun i hi => by
    simp [State.element, Cplx.nth, List.getElem?_eq_getElem hi, List.getD]

theorem writeTiming_holds_scr {a : List RNum} {l : List Nat} (hl : a.length < 4294967296)
    (hc : a.length ≤ s.params.capRxb) : Holds (s.writeTiming a l) .scr a.length (fun k => .real (RNum.nth a k)) :=
  holds_of (Word.toNat_ofNat_of_lt hl) hc fun i hi => by
    simp [State.element, RNum.nth, List.getElem?_eq_getElem hi, List.getD]

theorem writeTiming_holds_bnd {a : List RNum} {l : List Nat} (hl : l.length < 4294967296)
    (hc : l.length ≤ s.params.capBnd) : Holds (s.writeTiming a l) .bnd l.length (fun k => .nat (l.getD k 0)) :=
  holds_of (Word.toNat_ofNat_of_lt hl) hc fun i hi => by
    simp [State.element, State.bndAt, List.getElem?_eq_getElem hi, List.getD]

theorem writeRxb_holds {l : List Cplx} (hl : l.length = s.rxLen) (hc : l.length ≤ s.params.capRxb) :
    Holds (s.writeRxb l) .rxb l.length (fun k => .cplx (Cplx.nth l k)) :=
  holds_of hl.symm hc fun i hi => by
    simp [State.element, State.rxbAt, Cplx.nth, List.getElem?_eq_getElem hi, List.getD]

theorem derotateRxb_holds (hz : RNum) (hc : s.rxLen ≤ s.params.capRxb) :
    Holds (s.derotateRxb hz) .rxb s.rxLen (fun n => .cplx (s.derotated hz n)) := by
  obtain ⟨h0, h⟩ | ⟨-, h⟩ := s.derotateRxb_cases hz <;> rw [h]
  · exact holds_of rfl hc fun i hi => absurd hi (by omega)
  · refine holds_of rfl hc fun i hi => ?_
    simp [State.element, State.rxbAt, State.derotate, linear, tabulate, hi]

theorem writeSym_holds {l : List Cplx} {c : Nat} (hl : l.length < 4294967296) (hc : l.length ≤ s.params.capSym) :
    Holds (s.writeSym l c) .sym l.length (fun k => .cplx (Cplx.nth l k)) :=
  holds_of (Word.toNat_ofNat_of_lt hl) hc fun i hi => by
    simp [State.element, Cplx.nth, List.getElem?_eq_getElem hi, List.getD]

/-! ## Host writes (10_state.md R24, 20_memory.md R61) -/

/-- A host write of a real register changes that register only. -/
theorem writeReal_frame (s : State) (r : RealReg) (a : RNum) :
    (s.writeReal r a).mem = s.mem ∧ (s.writeReal r a).status = s.status ∧ (s.writeReal r a).grid = s.grid ∧
      (s.writeReal r a).consts = s.consts ∧ (s.writeReal r a).params = s.params ∧ (s.writeReal r a).host = s.host := by
  cases r <;> exact ⟨rfl, rfl, rfl, rfl, rfl, rfl⟩

/-- A host write of an integer register changes no flag, no part of the record and no constant. -/
theorem writeWord_frame (s : State) (r : WordReg) (w : Word) :
    (s.writeWord r w).status = s.status ∧ (s.writeWord r w).grid = s.grid ∧ (s.writeWord r w).mem.pil = s.mem.pil ∧
      (s.writeWord r w).consts = s.consts ∧ (s.writeWord r w).params = s.params ∧ (s.writeWord r w).host = s.host := by
  cases r <;> exact ⟨rfl, rfl, rfl, rfl, rfl, rfl⟩

end Sys2Proof.Machine
end

