-- ==== Sys2Proof/Laws/Grid.lean ====
section
/-! SUPPORT. The pilot indices of a valid record (40_grid_parameters.md R105 to R107). -/

namespace Sys2Proof.Machine

/-- `increasing` says that a sequence is strictly increasing. -/
theorem increasing_iff : ∀ l : List Nat, increasing l = true ↔ l.Pairwise (· < ·)
  | [] => by simp [increasing]
  | [a] => by simp [increasing]
  | a :: b :: l => by
    rw [increasing]
    simp only [Bool.and_eq_true, decide_eq_true_eq, increasing_iff (b :: l)]
    rw [List.pairwise_cons (a := a)]
    refine ⟨?_, fun ⟨h1, h2⟩ => ⟨h1 b (by simp), h2⟩⟩
    rintro ⟨h1, h2⟩
    refine ⟨fun c hc => ?_, h2⟩
    rcases List.mem_cons.mp hc with rfl | hc
    · exact h1
    · exact lt_trans h1 ((List.pairwise_cons.mp h2).1 c hc)

/-- `pilotsValid` is the invariant of R107. -/
theorem pilotsValid_iff (lo hi c : Nat) (p : List Nat) :
    pilotsValid lo hi c p = true ↔ p.Pairwise (· < ·) ∧ ∀ k ∈ p, k ≠ c ∧ lo ≤ k ∧ k ≤ hi := by
  simp [pilotsValid, increasing_iff, and_assoc]

@[simp] theorem pilotList_length (lo hi c pc : Nat) : (pilotList lo hi c pc).length = pc := by simp [pilotList]

/-- The pilot indices that a valid record's `PIL` reads as. -/
theorem State.GridValid.pilAt_eq {s : State} (h : s.GridValid) {k : Nat} (hk : k < s.sizePC) :
    s.pilAt k = pilotIndex s.edgeLo s.edgeHi s.center s.sizePC k := by
  rw [State.pilAt, h.pil, Buf.get?_ofList, pilotList, tabulate_getElem?, if_pos hk]
  rfl

theorem State.GridValid.pilots_eq {s : State} (h : s.GridValid) :
    s.pilots = pilotList s.edgeLo s.edgeHi s.center s.sizePC := by
  unfold State.pilots pilotList tabulate
  exact List.map_congr_left fun k hk => h.pilAt_eq (by simpa using hk)

/-- The sizes of a valid record. -/
theorem State.GridValid.sizes {s : State} (h : s.GridValid) : 64 ≤ s.sizeN ∧ s.sizeN ≤ 2048 ∧ s.sizeN % 4 = 0 := by
  have := h.size
  simp only [Config.fftSet, List.contains_eq_mem, decide_eq_true_eq, List.mem_cons, List.not_mem_nil, or_false] at this
  omega

end Sys2Proof.Machine
end

