-- ==== Sys2Proof/Laws/Inv.lean ====
section
/-! SUPPORT. Two ways in which the invariant is kept. -/

namespace Sys2Proof.Machine

/-- The reserved bits of `STATUS` are 0 (10_state.md R26). -/
theorem status_reserved_iff (w : Word) : w &&& 0xFFFFFFF8#32 = 0#32 ↔ ∀ i, 3 ≤ i → w.getLsbD i = false := by
  constructor
  · intro h i hi
    have := congrArg (fun v => v.getLsbD i) h
    simp only [BitVec.getLsbD_and, BitVec.getLsbD_zero] at this
    by_cases h32 : i < 32
    · have h2 : (0xFFFFFFF8#32).getLsbD i = true := by interval_cases i <;> decide
      simpa [h2] using this
    · exact BitVec.getLsbD_of_ge _ _ (by omega)
  · intro h
    apply BitVec.eq_of_getLsbD_eq
    intro i hi
    simp only [BitVec.getLsbD_and, BitVec.getLsbD_zero]
    by_cases h3 : 3 ≤ i
    · simp [h i h3]
    · have h2 : (0xFFFFFFF8#32).getLsbD i = false := by interval_cases i <;> decide
      simp [h2]

/-- Taking a fault keeps the invariant. -/
theorem State.Inv.raise {s : State} (hs : s.Inv) (c : Cause) (v : Word) : (s.raise c v).Inv where
  caps := hs.caps
  least := hs.least
  consts := hs.consts
  mem := hs.mem
  status := by
    rw [State.raise_status, status_reserved_iff]; intro i hi
    rw [setErr_getLsbD, (status_reserved_iff _).mp hs.status i hi]; simp; omega
  ctrl := hs.ctrl
  noFault := by simp
  fault := by intro _; rw [State.raise_cause]; cases c <;> decide
  grid := by
    intro h; rw [State.raise_cfgv] at h
    have := hs.grid h
    exact ⟨this.1, this.2, this.3, this.4, this.5, this.6, this.7, this.8, this.9, this.10, this.11⟩
  gridReset := by intro h; rw [State.raise_cfgv] at h; exact hs.gridReset h
  txo := hs.txo
  scr := hs.scr
  sym := hs.sym
  seq := hs.seq
  pil := hs.pil
  shape := hs.shape

/-- A change that leaves the record, the cause and all flags but `DETF` alone keeps the invariant, if what it writes is in form. -/
theorem State.Inv.of_record {s t : State} (hs : s.Inv) (ha : t.params = s.params) (hk : t.consts = s.consts) (hm : t.mem.Wf t.params)
   (hst : ∀ i, i ≠ 2 → t.status.getLsbD i = s.status.getLsbD i) (hc : t.ctrl &&& 0xFFFFFFFE#32 = 0#32)
   (h1 : t.cause = s.cause) (h2 : t.info = s.info) (hg : t.grid = s.grid) (hp : t.mem.pil = s.mem.pil)
   (h3 : t.mem.txo.Filled t.len.txo.toNat) (h4 : t.mem.scr.Filled t.len.scr.toNat)
   (h5 : t.mem.sym.Filled t.len.sym.toNat) (h6 : t.mem.seq.Filled t.len.seq.toNat)
   (h7 : t.len.txoRows.toNat * t.len.txoCols.toNat = t.len.txo.toNat) : t.Inv where
  caps := by rw [ha]; exact hs.caps
  least := by rw [ha]; exact hs.least
  consts := by rw [hk]; exact hs.consts
  mem := hm
  status := by
    rw [status_reserved_iff]; intro i hi; rw [hst i (by omega)]; exact (status_reserved_iff _).mp hs.status i hi
  ctrl := hc
  noFault := by rw [State.err, hst 1 (by omega), h1, h2]; exact hs.noFault
  fault := by rw [State.err, hst 1 (by omega), h1]; exact hs.fault
  grid := by
    rw [State.cfgv, hst 0 (by omega)]; intro h
    have := hs.grid h
    constructor <;> simp only [State.sizeN, State.sizeCP, State.sizePC, State.sizeND, State.edgeLo, State.edgeHi, State.center, hg, ha, hp]
    exacts [this.1, this.2, this.3, this.4, this.5, this.6, this.7, this.8, this.9, this.10, this.11]
  gridReset := by rw [State.cfgv, hst 0 (by omega), hg]; exact hs.gridReset
  txo := h3
  scr := h4
  sym := h5
  seq := h6
  pil := by rw [hp, hg]; exact hs.pil
  shape := h7

end Sys2Proof.Machine
end

