-- ==== Sys2Proof/Laws/Order.lean ====
section
/-! SUPPORT. What comparisons, maxima and positions of maxima answer: for rational numbers, and for any exact comparison
(00_scope.md R7, R10). -/

namespace Sys2Proof

open Sys2Proof.Machine

/-- The machine's comparison is exact on rational numbers. -/
@[simp] theorem RNum.lt_rat (p q : Rat) : (RNum.rat p).lt (.rat q) = decide (p < q) := rfl

/-- A comparison that is computed is exact, whatever the named reals. -/
theorem RNum.quickLt_spec (ρ : Nat → ℝ) {a b : RNum} {r : Bool} (h : a.quickLt b = some r) :
    r = true ↔ a.val ρ < b.val ρ := by
  obtain ⟨p, rfl, -⟩ | ha := rat?_cases a <;> obtain ⟨q, rfl, -⟩ | hb := rat?_cases b
  · simp only [quickLt, rat?_rat, Option.some.injEq] at h; subst h; simp
  · simp only [quickLt, rat?_rat, hb] at h; exact ltBounds_spec ρ h
  · simp only [quickLt, ha] at h; exact ltBounds_spec ρ h
  · simp only [quickLt, ha] at h; exact ltBounds_spec ρ h

/-- Where the comparison is computed, that is what the machine takes. -/
theorem RNum.lt_of_quick {a b : RNum} {r : Bool} (h : a.quickLt b = some r) : a.lt b = r := by simp only [lt, h]

theorem RNum.isZero_rat (q : Rat) : (RNum.rat q).isZero RNum.lt = decide (q = 0) := by
  simp only [isZero, zero, lt_rat]
  rcases lt_trichotomy q 0 with h | h | h
  · simp [h, h.ne, not_lt.mpr h.le]
  · simp [h]
  · simp [h, h.ne', not_lt.mpr h.le]

@[simp] theorem RNum.isZero_zero : RNum.zero.isZero RNum.lt = true := by
  rw [zero, isZero_rat]; simp

/-- With an exact comparison, `isZero` says whether a number is 0. -/
theorem ExactLt.isZero {ρ : Nat → ℝ} {lt : RNum → RNum → Bool} (h : ExactLt ρ lt) (a : RNum) :
    a.isZero lt = true ↔ a.val ρ = 0 := by
  have h1 := h a .zero
  have h2 := h .zero a
  simp only [RNum.val_zero] at h1 h2
  simp only [RNum.isZero, Bool.and_eq_true, Bool.not_eq_true', ← Bool.not_eq_true, h1, h2, not_lt]
  exact ⟨fun h => le_antisymm h.2 h.1, fun h => by simp [h]⟩

/-- With an exact comparison, `allZero` says whether every score is 0. -/
theorem ExactLt.allZero {ρ : Nat → ℝ} {lt : RNum → RNum → Bool} (h : ExactLt ρ lt) (score : List RNum) :
    Sys2Proof.allZero lt score = true ↔ ∀ a ∈ score, a.val ρ = 0 := by
  simp only [Sys2Proof.allZero, List.all_eq_true, ExactLt.isZero h]

/-- There are exact comparisons. -/
theorem exactLt_exists (ρ : Nat → ℝ) : ∃ lt, ExactLt ρ lt := by
  classical
  exact ⟨fun a b => decide (a.val ρ < b.val ρ), fun a b => by simp⟩

/-- What `peakFrom` answers with an exact comparison, the values before index `i` being `pre`. -/
theorem peakFrom_spec {ρ : Nat → ℝ} {lt : RNum → RNum → Bool} (h : ExactLt ρ lt) :
    ∀ (l pre : List RNum) (best : RNum) (pos : Nat), pre[pos]? = some best →
      (∀ (j : Nat) (a : RNum), pre[j]? = some a → a.val ρ ≤ best.val ρ) → (∀ (j : Nat) (a : RNum), j < pos → pre[j]? = some a → a.val ρ < best.val ρ) →
      let r := peakFrom lt best pos pre.length l
      (pre ++ l)[r.2]? = some r.1 ∧ (∀ (j : Nat) (a : RNum), (pre ++ l)[j]? = some a → a.val ρ ≤ r.1.val ρ) ∧
        (∀ (j : Nat) (a : RNum), j < r.2 → (pre ++ l)[j]? = some a → a.val ρ < r.1.val ρ)
  | [], pre, best, pos, h1, h2, h3 => by simpa [peakFrom] using ⟨h1, h2, h3⟩
  | a :: l, pre, best, pos, h1, h2, h3 => by
    have hpos : pos < pre.length := by
      by_contra hn
      rw [List.getElem?_eq_none (by omega)] at h1
      cases h1
    have happ : pre ++ a :: l = (pre ++ [a]) ++ l := by simp
    have hlen : pre.length + 1 = (pre ++ [a]).length := by simp
    have hsplit : ∀ j b, (pre ++ [a])[j]? = some b → pre[j]? = some b ∨ (j = pre.length ∧ b = a) := by
      intro j b hj
      rcases Nat.lt_trichotomy j pre.length with hlt | heq | hgt
      · exact .inl (by rwa [List.getElem?_append_left hlt] at hj)
      · subst heq; rw [List.getElem?_concat_length] at hj; exact .inr ⟨rfl, (Option.some.inj hj).symm⟩
      · rw [List.getElem?_eq_none (by simp; omega)] at hj; cases hj
    simp only [peakFrom]
    rw [happ, hlen]
    split
    · rename_i hlt
      have hlt := (h _ _).mp hlt
      refine peakFrom_spec h l (pre ++ [a]) a pre.length (by simp) ?_ ?_
      · intro j b hj
        obtain hj | ⟨-, rfl⟩ := hsplit j b hj
        · exact le_trans (h2 j b hj) hlt.le
        · exact le_rfl
      · intro j b hj1 hj
        obtain hj | ⟨rfl, -⟩ := hsplit j b hj
        · exact lt_of_le_of_lt (h2 j b hj) hlt
        · omega
    · rename_i hlt
      have hle : a.val ρ ≤ best.val ρ := not_lt.mp fun hc => hlt ((h _ _).mpr hc)
      refine peakFrom_spec h l (pre ++ [a]) best pos (by rw [List.getElem?_append_left hpos]; exact h1) ?_ ?_
      · intro j b hj
        obtain hj | ⟨-, rfl⟩ := hsplit j b hj
        · exact h2 j b hj
        · exact hle
      · intro j b hj1 hj
        obtain hj | ⟨rfl, -⟩ := hsplit j b hj
        · exact h3 j b hj1 hj
        · omega

/-- `peak` of a non-empty sequence, with an exact comparison: an element of it, none is larger, and those before it are
smaller (00_scope.md R10, `argmax_first`). -/
theorem peak_spec {ρ : Nat → ℝ} {lt : RNum → RNum → Bool} (h : ExactLt ρ lt) {l : List RNum} (hl : l ≠ []) :
    l[(peak lt l).2]? = some (peak lt l).1 ∧ (∀ (j : Nat) (a : RNum), l[j]? = some a → a.val ρ ≤ (peak lt l).1.val ρ) ∧
      (∀ (j : Nat) (a : RNum), j < (peak lt l).2 → l[j]? = some a → a.val ρ < (peak lt l).1.val ρ) := by
  cases l with
  | nil => exact absurd rfl hl
  | cons a l =>
    have := peakFrom_spec h l [a] a 0 (by simp) (by intro j b hj; cases j <;> simp_all) (by intro j b hj; omega)
    simpa [peak] using this

/-- `peakFrom` answers an index below the length of the sequence, whatever the comparison. -/
theorem peakFrom_lt (lt : RNum → RNum → Bool) : ∀ (l : List RNum) (best : RNum) (pos i : Nat), pos < i →
    (peakFrom lt best pos i l).2 < i + l.length
  | [], _, _, _, h => by simpa [peakFrom] using h
  | a :: l, best, pos, i, h => by
    simp only [peakFrom, List.length_cons]
    split
    · have := peakFrom_lt lt l a i (i + 1) (by omega); omega
    · have := peakFrom_lt lt l best pos (i + 1) (by omega); omega

/-- The index `peak` answers lies inside a non-empty sequence, whatever the comparison. -/
theorem peak_lt (lt : RNum → RNum → Bool) {l : List RNum} (hl : l ≠ []) : (peak lt l).2 < l.length := by
  cases l with
  | nil => exact absurd rfl hl
  | cons a l => simpa [peak, Nat.add_comm] using peakFrom_lt lt l a 0 1 (by omega)

@[simp] theorem normalise_length (lt : RNum → RNum → Bool) (l : List RNum) : (normalise lt l).length = l.length := by
  simp [normalise]

end Sys2Proof
end

