-- ==== Sys2Proof/Laws/PerInstr.lean ====
section
/-! SUPPORT. A family of laws stated per instruction: the word of every command has the fixed bits of its row of
spec/opcode_table.json. -/

namespace Sys2Proof.Laws.TableRow

/-- The row's mask and match. -/
def row : Instr → Word × Word
  | .cfg _ _ _ => (0x0000FCFF#32, 0x00000001#32)
  | .zcgen _ _ => (0x000000FF#32, 0x00000002#32)
  | .pssgen _ => (0xFFFF00FF#32, 0x00000003#32)
  | .mod _ => (0xFFFFFEFF#32, 0x00000004#32)
  | .synccp => (0xFFFFFFFF#32, 0x00000005#32)
  | .syncpss _ => (0xFFFFFEFF#32, 0x00000006#32)
  | .cfoest => (0xFFFFFFFF#32, 0x00000007#32)
  | .cforot => (0xFFFFFFFF#32, 0x00000008#32)
  | .cfocorr => (0xFFFFFFFF#32, 0x00000009#32)
  | .demod _ _ _ _ _ _ _ => (0xFFFF80FF#32, 0x0000000A#32)

/-- The fixed bits of the row are those of the word. -/
def Statement (i : Instr) : Prop := encode i &&& (row i).1 = (row i).2

theorem and_cmdWord (op fl op' fl' : Octet) (imm imm' : Half) :
    cmdWord op fl imm &&& cmdWord op' fl' imm' = cmdWord (op &&& op') (fl &&& fl') (imm &&& imm') := by
  apply BitVec.eq_of_getLsbD_eq
  intro i _
  simp only [cmdWord, BitVec.getLsbD_and, BitVec.getLsbD_append]
  split_ifs <;> rfl

theorem cfg (n : Half) (ug up : Bool) : Statement (.cfg n ug up) := by
  have h : (0x0000FCFF#32 : Word) = cmdWord 0xFF#8 0xFC#8 0#16 := by decide
  simp only [Statement, encode, row, h, and_cmdWord, BitVec.and_zero]
  revert ug up; decide

theorem zcgen (u : Octet) (n : Half) : Statement (.zcgen u n) := by
  have h : (0x000000FF#32 : Word) = cmdWord 0xFF#8 0#8 0#16 := by decide
  simp only [Statement, encode, row, h, and_cmdWord, BitVec.and_zero]
  decide

theorem pssgen (u : Octet) : Statement (.pssgen u) := by
  have h : (0xFFFF00FF#32 : Word) = cmdWord 0xFF#8 0#8 0xFFFF#16 := by decide
  simp only [Statement, encode, row, h, and_cmdWord, BitVec.and_zero]
  decide

theorem mod (flat : Bool) : Statement (.mod flat) := by
  unfold Statement; revert flat; decide

theorem synccp : Statement .synccp := by unfold Statement; decide

theorem syncpss (th : Bool) : Statement (.syncpss th) := by
  unfold Statement; revert th; decide

theorem cfoest : Statement .cfoest := by unfold Statement; decide

theorem cforot : Statement .cforot := by unfold Statement; decide

theorem cfocorr : Statement .cfocorr := by unfold Statement; decide

theorem demod (sub xs eq aq ps sk orj : Bool) : Statement (.demod sub xs eq aq ps sk orj) := by
  unfold Statement; revert sub xs eq aq ps sk orj; decide

end Sys2Proof.Laws.TableRow
end

