-- ==== Sys2Proof/Laws/Silence.lean ====
section
/-! SUPPORT. What sums, correlations and scores of samples that are all 0 are, as terms (43_timing_sync.md R152, R156,
R164). -/

namespace Sys2Proof

open Sys2Proof.Machine

theorem RNum.times_zero (a : RNum) : a.times .zero = .zero := by
  obtain ⟨p, rfl, -⟩ | h := rat?_cases a
  · simp [times, zero, rat?]
  · simp [times, zero, h]

theorem RNum.zero_plus_zero : RNum.zero.plus .zero = .zero := by decide +kernel

theorem RNum.zero_sub_zero : RNum.zero.sub .zero = .zero := by decide +kernel

theorem Cplx.times_zero (z : Cplx) : z.times .zero = .zero := by
  simp only [times, zero, RNum.times_zero, RNum.zero_plus_zero, RNum.zero_sub_zero]

theorem RNum.sum_zero {n : Nat} {f : Nat → RNum} (h : ∀ t, t < n → f t = .zero) : RNum.sum n f = .zero := by
  induction n with
  | zero => rfl
  | succ n ih => rw [RNum.sum, ih (fun t ht => h t (by omega)), h n (by omega), zero_plus_zero]

theorem Cplx.sum_zero {n : Nat} {f : Nat → Cplx} (h : ∀ t, t < n → f t = .zero) : Cplx.sum n f = .zero := by
  induction n with
  | zero => rfl
  | succ n ih =>
    rw [Cplx.sum, ih (fun t ht => h t (by omega)), h n (by omega)]
    simp only [plus, zero, RNum.zero_plus_zero]

theorem peakFrom_zero {l : List RNum} (h : ∀ a ∈ l, a = .zero) (pos i : Nat) :
    peakFrom RNum.lt .zero pos i l = (.zero, pos) := by
  induction l generalizing i with
  | nil => rfl
  | cons a l ih =>
    obtain rfl := h a (by simp)
    rw [peakFrom, if_neg (by rw [RNum.zero, RNum.lt_rat]; simp)]
    exact ih (fun b hb => h b (by simp [hb])) _

/-- The maximum of zeros is 0, first attained at index 0. -/
theorem peak_zero {l : List RNum} (h : ∀ a ∈ l, a = .zero) : peak RNum.lt l = (.zero, 0) := by
  cases l with
  | nil => rfl
  | cons a l =>
    obtain rfl := h a (by simp)
    exact peakFrom_zero (fun b hb => h b (by simp [hb])) _ _

/-- Scores that are all 0 stay 0 (R156, R164). -/
theorem normalise_zero {l : List RNum} (h : ∀ a ∈ l, a = .zero) : normalise RNum.lt l = l := by
  rw [normalise, maxOf, peak_zero h]
  simp only [RNum.isZero_zero, if_true]
  exact (List.map_congr_left fun a ha => (h a ha).symm).trans (List.map_id' l)

/-- Scores that are all the term 0 are all 0. -/
theorem allZero_zero {l : List RNum} (h : ∀ a ∈ l, a = .zero) : allZero RNum.lt l = true :=
  List.all_eq_true.mpr fun a ha => by rw [h a ha]; exact RNum.isZero_zero

/-- No boundary is accepted when every score is 0 (R156). -/
theorem cpBoundaries_allZero {lt : RNum → RNum → Bool} {l : List RNum} (h : allZero lt l = true) (thA thF : RNum)
    (m p : Nat) : cpBoundaries lt thA thF m p l = [] := by rw [cpBoundaries, if_pos h]

/-- There is no first offset when every score is 0 (R164). -/
theorem firstAbove_allZero {lt : RNum → RNum → Bool} {l : List RNum} (h : allZero lt l = true) (th : RNum) :
    firstAbove lt th l = none := by rw [firstAbove, if_pos h]

/-- Every form of the correlation with samples that are all 0 is 0 (R152). -/
theorem corr_zero {n : Nat} {a b : Nat → Cplx} (h : ∀ t, t < n → b t = .zero) (normalized mode : Bool) :
    corr RNum.lt n a b normalized mode = .zero := by
  have hdot : dot n a b = .zero := Cplx.sum_zero fun t ht => by rw [h t ht, Cplx.times_zero]
  have hre : ∀ f : Nat → RNum, dotR n f (fun t => (b t).re) = .zero := fun f => RNum.sum_zero fun t ht => by
    simp only [h t ht]; exact RNum.times_zero _
  have him : ∀ f : Nat → RNum, dotR n f (fun t => (b t).im) = .zero := fun f => RNum.sum_zero fun t ht => by
    simp only [h t ht]; exact RNum.times_zero _
  have hn : Machine.norm n b = .zero := by
    have : RNum.sum n (fun t => (b t).normSq) = .zero := RNum.sum_zero fun t ht => by
      simp only [h t ht]; decide +kernel
    rw [Machine.norm, this]; decide +kernel
  have hr : normR n (fun t => (b t).re) = .zero := by
    have := hre fun t => (b t).re
    rw [dotR] at this; rw [normR, this]; decide +kernel
  have hi : normR n (fun t => (b t).im) = .zero := by
    have := him fun t => (b t).im
    rw [dotR] at this; rw [normR, this]; decide +kernel
  cases normalized <;> cases mode <;>
    simp [corr, hdot, corrR, hre, him, hr, hi, hn, quotient, RNum.isZero_zero] <;> rfl

end Sys2Proof
end

