-- ==== Sys2Proof/Laws/Step.lean ====
section
/-! SUPPORT. Everything a step can do, one lemma per action of the host (20_memory.md R61, 30_encoding.md R89,
70_reset_and_hazards.md R250). -/

namespace Sys2Proof.Machine

variable {s t : State} {rest : List HostEvent}

/-- A step with an action to take is that action. -/
theorem step_cons {e : HostEvent} (h : s.host = e :: rest) : step s = hostStep e (s.advance rest) := by
  simp only [step, h]

/-- A step with nothing to do. -/
theorem step_nil (h : s.host = []) : step s = .next s := by simp only [step, h]

/-- The state in which a command issued from `s` runs. -/
def State.issued (s : State) (rest : List HostEvent) : State :=
  { s with host := rest, pc := s.pc + 1 }

/-- Issuing a command word. -/
theorem step_cmd {w : Word} (h : s.host = .cmd w :: rest) : step s = issue w (s.issued rest) := step_cons h

/-- While `ERR = 1` a command does nothing (60_exceptions.md R225). -/
theorem issue_of_err {w : Word} (h : s.err = true) : issue w s = .next s := by simp only [issue, h, if_true]

/-- An illegal word (30_encoding.md R84). -/
theorem issue_of_illegal {w : Word} {e : DecodeError} (h : s.err = false) (hd : decode w = .error e) :
    issue w s = .next (s.raise .illegalCommand w) := by
  simp only [issue, h, hd, State.fail, Bool.false_eq_true, if_false]

/-- A legal word (30_encoding.md R89). -/
theorem issue_of_legal {w : Word} {i : Instr} (h : s.err = false) (hd : decode w = .ok i) : issue w s = exec i s := by
  simp only [issue, h, hd, Bool.false_eq_true, if_false]

/-- Everything `issue` can answer. -/
theorem issue_cases {w : Word} (h : issue w s = .next t) :
    (s.err = true ∧ t = s) ∨ (s.err = false ∧ (∃ e, decode w = .error e) ∧ t = s.raise .illegalCommand w) ∨
      (s.err = false ∧ ∃ i, decode w = .ok i ∧ exec i s = .next t) := by
  rcases he : s.err with _ | _
  · rcases hd : decode w with e | i
    · rw [issue_of_illegal he hd] at h
      exact .inr (.inl ⟨rfl, ⟨e, rfl⟩, (Host.Outcome.next.inj h).symm⟩)
    · rw [issue_of_legal he hd] at h
      exact .inr (.inr ⟨rfl, i, rfl, h⟩)
  · rw [issue_of_err he] at h
    exact .inl ⟨rfl, (Host.Outcome.next.inj h).symm⟩

/-- Everything a host write of a register can do (10_state.md R24). -/
theorem writeCsr_cases (s : State) (no : Nat) (v : CsrValue) :
    (writable no = .ignored ∧ s.writeCsr no v = s) ∨
      (∃ r, writable no = .word r ∧ s.writeCsr no v = s.writeWord r (wordStored v)) ∨
      ∃ r, writable no = .real r ∧ s.writeCsr no v = s.writeReal r (realStored v) := by
  rcases hw : writable no with r | r | _
  · exact .inr (.inl ⟨r, rfl, by rw [State.writeCsr, hw]⟩)
  · exact .inr (.inr ⟨r, rfl, by rw [State.writeCsr, hw]⟩)
  · exact .inl ⟨rfl, by rw [State.writeCsr, hw]⟩

/-- Everything a host write of an element can do (20_memory.md R61). -/
theorem writeBuf_cases (s : State) (b : BufName) (i : Nat) (v : ElemValue) :
    ((s.bufCap b ≤ i ∨ b ∉ [.pay, .rxb, .bnd]) ∧ s.writeBuf b i v = s) ∨ i < s.bufCap b ∧
      ((b = .pay ∧ s.writeBuf b i v = { s with mem := { s.mem with pay := s.mem.pay.put i (cplxStored v) } }) ∨
        (b = .rxb ∧ s.writeBuf b i v = { s with mem := { s.mem with rxb := s.mem.rxb.put i (cplxStored v) } }) ∨
        b = .bnd ∧ s.writeBuf b i v = { s with mem := { s.mem with bnd := s.mem.bnd.put i (natStored v) } }) := by
  by_cases hi : i < s.bufCap b
  · cases b <;> simp only [State.writeBuf, if_pos hi] <;> simp [hi]
  · exact .inl ⟨.inl (by omega), if_neg hi⟩

/-- A read finds a value exactly below the length and the capacity (20_memory.md R60, R61). -/
theorem readBuf_isSome (s : State) (b : BufName) (i : Nat) :
    (s.readBuf b i).isSome = true ↔ i < s.bufLen b ∧ i < s.bufCap b := by
  rw [State.readBuf]; split <;> simp [*]

/-- Everything a step can do. -/
theorem step_cases (h : step s = .next t) :
    (s.host = [] ∧ t = s) ∨
      (∃ w rest, s.host = .cmd w :: rest ∧ issue w (s.issued rest) = .next t) ∨
      (∃ rest, (∃ no, s.host = .readCsr no :: rest) ∧ t = s.advance rest) ∨
      (∃ no v rest, s.host = .writeCsr no v :: rest ∧ t = (s.advance rest).writeCsr no v) ∨
      (∃ b i rest, s.host = .readBuf b i :: rest ∧ (s.readBuf b i).isSome = true ∧ t = s.advance rest) ∨
      (∃ b i v rest, s.host = .writeBuf b i v :: rest ∧ t = (s.advance rest).writeBuf b i v) ∨
      ∃ rest, s.host = .reset :: rest ∧ t = (s.advance rest).hostReset := by
  rcases hh : s.host with _ | ⟨e, rest⟩
  · rw [step_nil hh] at h
    exact .inl ⟨rfl, (Host.Outcome.next.inj h).symm⟩
  · rw [step_cons hh] at h
    cases e with
    | cmd w => exact .inr (.inl ⟨w, rest, rfl, h⟩)
    | readCsr no => exact .inr (.inr (.inl ⟨rest, ⟨no, rfl⟩, (Host.Outcome.next.inj h).symm⟩))
    | writeCsr no v => exact .inr (.inr (.inr (.inl ⟨no, v, rest, rfl, (Host.Outcome.next.inj h).symm⟩)))
    | readBuf b i =>
      simp only [hostStep] at h
      split_ifs at h with hi
      exact .inr (.inr (.inr (.inr (.inl ⟨b, i, rest, rfl, hi, (Host.Outcome.next.inj h).symm⟩))))
    | writeBuf b i v => exact .inr (.inr (.inr (.inr (.inr (.inl ⟨b, i, v, rest, rfl, (Host.Outcome.next.inj h).symm⟩)))))
    | reset => exact .inr (.inr (.inr (.inr (.inr (.inr ⟨rest, rfl, (Host.Outcome.next.inj h).symm⟩)))))

end Sys2Proof.Machine
end

