-- ==== Sys2Proof/Tests/Slice0.lean ====
section
/-! SUPPORT. The model's own tests, each with the rule or vector of spec/ its expected result comes from, and for every
statement that has hypotheses a state and operands that meet them. -/

namespace Sys2Proof.Tests

open Sys2Proof.Machine

/-! ## States -/

/-- The parameter values of 95_test_vectors.md (its conventions), with small capacities. -/
def base : State :=
  { State.reset with
    params := ⟨100, 1000, 1000, 10, 1000, 63, 204⟩
    consts := ⟨⟨.rat 1, .rat 1⟩, .rat 1, 25#32, .rat 15000⟩ }

/-- The state of an outcome. -/
def out (o : Outcome) : State :=
  match o with
  | .next t => t
  | _ => base

theorem exec_out (i : Instr) (s : State) : exec i s = .next (out (exec i s)) := by
  obtain ⟨t, h⟩ := exec_next i s
  rw [h]; rfl

/-- `base` after `CFG 64`, as 95_test_vectors.md V1 and 40_grid_parameters.md R113 give the record. -/
def c64 : State := base.writeGrid 64 27 6 [13, 20, 28, 35, 43, 51]

/-- `s` with `n` samples 0 in `RXB`. -/
def quiet (n : Nat) (s : State) : State :=
  { s with
    mem := { s.mem with rxb := .ofList (List.replicate n Cplx.zero) }
    len := { s.len with rxb := Word.ofNat n } }

/-- `s` with the given boundary list. -/
def bounded (l : List Nat) (s : State) : State :=
  { s with mem := { s.mem with bnd := .ofList l }, len := { s.len with bnd := Word.ofNat l.length } }

/-- `s` with other capacities. -/
def sized (p : Params) (s : State) : State := { s with params := p }

/-- `s` with the given actions of the host to come. -/
def hosted (l : List HostEvent) (s : State) : State := { s with host := l }

/-- `c64` with 80 samples 0 and one boundary at 0. -/
def q64 : State := bounded [0] (quiet 80 c64)

/-! ## WellFormed (30_encoding.md R84) -/

theorem test_wf_zcgen_zero_length : ¬ Instr.WellFormed (.zcgen 25#8 0#16) := by decide

theorem test_wf_demod_aq_without_eq : ¬ Instr.WellFormed (.demod false false false true false false false) := by decide

theorem test_wf_demod_ps_with_sub : ¬ Instr.WellFormed (.demod true false false false true false false) := by decide

/-! ## Decode: words written out from 30_encoding.md R80 to R83 -/

/-- `imm` = 64, reserved 000000, `UP` = 1, `UG` = 1, `op` = 0x01. -/
theorem test_decode_cfg : decode 0b0000000001000000_000000_1_1_00000001#32 = .ok (.cfg 64#16 true true) := by decide

/-- `imm` = 63, `fl` = 25, `op` = 0x02. -/
theorem test_decode_zcgen : decode 0b0000000000111111_00011001_00000010#32 = .ok (.zcgen 25#8 63#16) := by decide

/-- `imm` = 0, `fl` = 29, `op` = 0x03. -/
theorem test_decode_pssgen : decode 0b0000000000000000_00011101_00000011#32 = .ok (.pssgen 29#8) := by decide

/-- `imm` = 0, reserved, `FLAT` = 1, `op` = 0x04. -/
theorem test_decode_mod : decode 0b0000000000000000_0000000_1_00000100#32 = .ok (.mod true) := by decide

theorem test_decode_synccp : decode 0b0000000000000000_00000000_00000101#32 = .ok .synccp := by decide

/-- `TH` = 1, `op` = 0x06. -/
theorem test_decode_syncpss : decode 0b0000000000000000_0000000_1_00000110#32 = .ok (.syncpss true) := by decide

theorem test_decode_cfoest : decode 0b0000000000000000_00000000_00000111#32 = .ok .cfoest := by decide

theorem test_decode_cforot : decode 0b0000000000000000_00000000_00001000#32 = .ok .cforot := by decide

theorem test_decode_cfocorr : decode 0b0000000000000000_00000000_00001001#32 = .ok .cfocorr := by decide

/-- Reserved 0, `OR` = 1, `SK` = 0, `PS` = 0, `AQ` = 1, `EQ` = 1, `XS` = 0, `SUB` = 0, `op` = 0x0A. -/
theorem test_decode_demod :
    decode 0b0000000000000000_0_1_0_0_1_1_0_0_00001010#32 = .ok (.demod false false true true false false true) := by decide

/-- One illegal word for each reason of 30_encoding.md R84. -/
theorem test_decode_illegal :
    decode 0x00000000#32 = .error (.unknownOpcode 0x00#8) ∧ decode 0x0000000B#32 = .error (.unknownOpcode 0x0B#8) ∧
      decode 0x00400401#32 = .error .reservedFlag ∧ decode 0x00000206#32 = .error .reservedFlag ∧
      decode 0x0000800A#32 = .error .reservedFlag ∧ decode 0x00001902#32 = .error .zeroLength ∧
      decode 0x00011903#32 = .error .unusedImm ∧ decode 0x0000080A#32 = .error .aqWithoutEq ∧
      decode 0x0000110A#32 = .error .psWithSub := by decide

/-- The examples of 30_encoding.md R86. -/
theorem test_text :
    (Instr.cfg 64#16 true true).text = "CFG 64, ug, up" ∧ (Instr.syncpss true).text = "SYNCPSS freq" ∧
      (Instr.demod false true true true true false false).text = "DEMOD xs, eq, aq, ps" := by decide

/-! ## One command -/

/-- 95_test_vectors.md V2, from the reset state itself. -/
theorem test_cfg_128 :
    (out (exec (.cfg 128#16 false false) State.reset)).mem.pil =
      .ofList [27, 33, 40, 47, 53, 60, 67, 74, 80, 87, 94, 101] := by decide +kernel

/-- 95_test_vectors.md V1 and 40_grid_parameters.md R112. -/
theorem test_cfg_64 : out (exec (.cfg 64#16 false false) base) = c64 := by decide +kernel

/-- 95_test_vectors.md V10. -/
theorem test_zcgen :
    (out (exec (.zcgen 1#8 4#16) base)).mem.seq =
      .ofList [⟨.rat 1, .rat 0⟩, ⟨.rat 0, .rat (-1)⟩, ⟨.rat 0, .rat 1⟩, ⟨.rat (-1), .rat 0⟩] := by decide +kernel

/-- 95_test_vectors.md V12: elements 0 and 61 are 1. -/
theorem test_pssgen :
    (out (exec (.pssgen 25#8) base)).mem.seq.get? 0 = some Cplx.one ∧
      (out (exec (.pssgen 25#8) base)).mem.seq.get? 61 = some Cplx.one := by decide +kernel

/-- 95_test_vectors.md V21. -/
theorem test_mod_shape :
    ((out (exec (.mod true) c64)).len.txo, (out (exec (.mod true) c64)).len.txoRows,
      (out (exec (.mod false) c64)).len.txoCols) = (480#32, 1#32, 80#32) := by decide +kernel

/-- 95_test_vectors.md V23. -/
theorem test_mod_unconfigured : out (exec (.mod false) base) = base.raise .notConfigured 0x00000004#32 := by
  decide +kernel

/-- 95_test_vectors.md V30: `LEN_RXB` = 79. -/
theorem test_synccp_short : out (exec .synccp (quiet 79 c64)) = (quiet 79 c64).raise .bufferTooShort 79#32 := by
  decide +kernel

/-- 95_test_vectors.md V38: `LEN_RXB` = 79. -/
theorem test_syncpss_short :
    out (exec (.syncpss true) (quiet 79 c64)) = (quiet 79 c64).raise .bufferTooShort 79#32 := by decide +kernel

/-- 95_test_vectors.md V39: `FRAME_START` = -1. -/
theorem test_cfoest_range :
    (out (exec .cfoest { quiet 80 c64 with frameStart := 0xFFFFFFFF#32 })).info = 0xFFFFFFFF#32 := by decide +kernel

/-- 44_cfo.md R183 with `CFO_HZ` = 0: every factor is 1. -/
theorem test_cforot_zero_offset :
    (out (exec .cforot
      { c64 with
        mem := { c64.mem with rxb := .ofList [⟨.rat 2, .rat 3⟩, ⟨.rat 5, .rat 7⟩] }
        len := { c64.len with rxb := 2#32 } })).mem.rxb = .ofList [⟨.rat 2, .rat 3⟩, ⟨.rat 5, .rat 7⟩] := by decide +kernel

/-- 44_cfo.md R183 and 95_test_vectors.md V39: with `LEN_RXB = 0` nothing changes, not even an element above the length. -/
theorem test_cforot_empty :
    let s := { quiet 80 c64 with len := (quiet 0 c64).len }
    out (exec .cforot s) = s := by decide +kernel

/-- 44_cfo.md R186: a frame start whose symbol ends one sample past the buffer. -/
theorem test_cfocorr_range :
    (out (exec .cfocorr { quiet 80 c64 with frameStart := 1#32 })).cause = 6#32 := by decide +kernel

/-- 95_test_vectors.md V49: zero samples, `EQ`, `AQ`, `PS`. -/
theorem test_demod_divide_by_zero :
    out (exec (.demod false false true true true false false) q64) = q64.raise .divideByZero 0#32 := by decide +kernel

/-- 95_test_vectors.md V49: `SUB` with `EQ`. -/
theorem test_demod_geometry :
    out (exec (.demod true false true false false false false) q64) = q64.raise .pilotGeometry 0#32 := by decide +kernel

/-! ## Parts of commands -/

/-- 95_test_vectors.md V24. -/
theorem test_corr :
    let a := Cplx.nth [⟨.rat 1, .rat 0⟩, ⟨.rat 0, .rat 1⟩]
    let b := Cplx.nth [⟨.rat 0, .rat 1⟩, ⟨.rat (-1), .rat 0⟩]
    corr RNum.lt 2 a b false false = ⟨.rat 0, .rat 2⟩ ∧ corr RNum.lt 2 a b true true = Cplx.zero ∧
      corr RNum.lt 2 (Cplx.nth []) b true false = Cplx.zero := by decide +kernel

/-- 43_timing_sync.md R157, R158: `P` = 2; a first score of 98/100 lets the last window be scanned. -/
theorem test_windows :
    cpBoundaries RNum.lt (.rat (9 / 10)) (.rat (97 / 100)) 6 2
        [.rat (98 / 100), .rat 1, .rat (1 / 2), .rat (8 / 10), .rat 1, .rat 1] = [1, 4] ∧
      cpBoundaries RNum.lt (.rat (9 / 10)) (.rat (97 / 100)) 6 2
        [.rat (97 / 100), .rat 1, .rat (1 / 2), .rat (8 / 10), .rat 1, .rat 1] = [1] := by decide +kernel

/-- 43_timing_sync.md R156, R164, 92_eei_decisions.md D47: scores that are all 0 accept nothing, with negative thresholds too. -/
theorem test_all_zero :
    cpBoundaries RNum.lt (.rat (-1)) (.rat (-1)) 4 2 (List.replicate 4 .zero) = [] ∧
      firstAbove RNum.lt (.rat (-1)) (List.replicate 4 .zero) = none ∧
      firstAbove RNum.lt (.rat (-1)) [.zero, .one] = some 0 := by decide +kernel

/-- 95_test_vectors.md V37: `f` = -4, `M` = 480, `P` = 80, and `f` = 7 of V36. -/
theorem test_progression :
    progression (-4) 480 80 = [76, 156, 236, 316, 396] ∧ progression 7 480 80 = [7, 87, 167, 247, 327] := by
  decide +kernel

/-- 95_test_vectors.md V46: `y = [6, 2, 0.1, 4, 2j]` leaves `[1, 1j]`. -/
theorem test_outlier :
    outlier RNum.lt base.tuning [⟨.rat 6, .rat 0⟩, ⟨.rat 2, .rat 0⟩, ⟨.rat (1 / 10), .rat 0⟩, ⟨.rat 4, .rat 0⟩,
      ⟨.rat 0, .rat 2⟩] = [Cplx.one, ⟨.rat 0, .rat 1⟩] := by decide +kernel

/-- 45_demodulator.md R198: halfway between 1 at position 2 and 5 at position 4, and held before and after. -/
theorem test_interpolate :
    interpolate [(2, .rat 1), (4, .rat 5)] 3 = .rat 3 ∧ interpolate [(2, .rat 1), (4, .rat 5)] 0 = .rat 1 ∧
      interpolate [(2, .rat 1), (4, .rat 5)] 9 = .rat 5 := by decide +kernel

/-- 00_scope.md R7: √2 < 3/2, cos(π/3) < 3/4 and arg(1 + j) < 4/5 are decided. -/
theorem test_comparisons :
    (RNum.sqrt (.rat 2)).lt (.rat (3 / 2)) = true ∧ (RNum.cosPi (1 / 3)).lt (.rat (3 / 4)) = true ∧
      (RNum.rat (4 / 5)).lt (RNum.angle .one .one) = false := by decide +kernel

/-! ## A step -/

/-- 95_test_vectors.md P4: `MOD` without a record, then `CFG 64` is refused. -/
theorem test_fault_is_sticky :
    let s1 := out (step (hosted [.cmd 0x00000004#32, .cmd 0x00400001#32] base))
    let s2 := out (step s1)
    (s1.status, s1.cause, s1.info) = (2#32, 3#32, 4#32) ∧ (s2.status, s2.cause, s2.grid.fftSize, s2.pc) = (2#32, 3#32, 0#32, 2) := by
  decide +kernel

/-- The command placed by `withFetchWord` is the one the next step runs. -/
theorem test_fetch :
    (out (step (State.reset.withFetchWord 32 0x00640001))).info = 100#32 ∧
      decodeTableWord 32 0x003F1902 = some (.zcgen 25#8 63#16) := by decide +kernel

/-- 20_memory.md R61: a write at the capacity is ignored, whatever the value; 10_state.md R24: so is a write to a read-only
register. -/
theorem test_ignored_writes :
    c64.writeBuf .pay 100 (.nat 7) = c64 ∧ c64.writeBuf .txo 0 (.cplx .one) = c64 ∧ c64.writeCsr 0x04 (.real .one) = c64 := by
  decide +kernel

/-- 20_memory.md R64: an element that nothing wrote reads the same in the state after a read. -/
theorem test_read_twice :
    let s := hosted [.readBuf .rxb 0, .readBuf .rxb 0] { c64 with len := { c64.len with rxb := 1#32 } }
    (out (step s)).readBuf .rxb 0 = s.readBuf .rxb 0 := rfl

/-- 42_modulator.md R143: an empty payload is one block, with an empty data-only set too (70_reset_and_hazards.md R262). -/
theorem test_empty_payload : (base.writeGrid 64 62 2 [31, 33]).blockCount = 1 ∧
    (base.writeGrid 64 62 2 [31, 33]).sizeND = 0 := by decide +kernel

/-! ## States that meet the hypotheses of the statements -/

theorem c64_valid : c64.GridValid := by constructor <;> decide +kernel

theorem base_consts : base.consts.Allowed where
  pilot ρ := by
    intro h
    have := congrArg Complex.re h
    simp [base] at this
  amplitude ρ := by simp [base]
  root := by decide
  spacing := rfl

theorem c64_inv : c64.Inv where
  caps := by decide
  least := by decide
  consts := base_consts
  mem := by decide +kernel
  status := by decide
  ctrl := by decide
  noFault := by decide
  fault := by decide
  grid := fun _ => c64_valid
  gridReset := by decide
  txo := by rfl
  scr := by rfl
  sym := by rfl
  seq := by rfl
  pil := by rfl
  shape := by decide

theorem quiet_inv : (quiet 80 c64).Inv := by
  refine c64_inv.of_record rfl rfl ?_ (fun _ _ => rfl) c64_inv.ctrl rfl rfl rfl rfl rfl rfl rfl rfl rfl
  decide +kernel

theorem q64_inv : q64.Inv := by
  refine c64_inv.of_record rfl rfl ?_ (fun _ _ => rfl) c64_inv.ctrl rfl rfl rfl rfl rfl rfl rfl rfl rfl
  decide +kernel

theorem witness_ResetEventRestoresResetState : (hosted [.reset] c64).host = .reset :: [] := rfl

theorem witness_StepRunsDecodedCommand :
    ((hosted [.cmd 0x00001903#32] (c64.raise .bufferRange 5#32)).host = .cmd 0x00001903#32 :: [] ∧
      (hosted [.cmd 0x00001903#32] (c64.raise .bufferRange 5#32)).err = true) ∧
    ((hosted [.cmd 0x00001903#32] c64).host = .cmd 0x00001903#32 :: [] ∧ c64.err = false ∧
      decode 0x00001903#32 = .ok (.pssgen 25#8) ∧ decode 0x00000000#32 = .error (.unknownOpcode 0x00#8)) := by decide

theorem witness_ComparisonIsExact :
    (RNum.sqrt (.rat 2)).ltBounds (.rat 2) = some true ∧ [RNum.rat 1, .rat 3, .rat 3][1]? = some (.rat 3) ∧
      (∀ b ∈ [RNum.rat 1, .rat 3, .rat 3], b.val Config.atomValue ≤ (RNum.rat 3).val Config.atomValue) ∧
      ∀ (j : Nat) (b : RNum), j < 1 → [RNum.rat 1, .rat 3, .rat 3][j]? = some b →
        b.val Config.atomValue < (RNum.rat 3).val Config.atomValue := by
  refine ⟨by decide +kernel, rfl, by simp, ?_⟩
  intro j b hj hb
  obtain rfl : j = 0 := by omega
  obtain rfl : RNum.rat 1 = b := by simpa using hb
  simp

theorem witness_UnconfiguredCommandsRaise : base.cfgv = false := by decide

theorem witness_DecodeOfEncodeIsIdentity :
    Instr.WellFormed (.zcgen 0#8 1#16) ∧ Instr.WellFormed (.demod false true true true true true true) := by decide

theorem witness_EncodeOfDecodeIsIdentity : decode 0xFFFFFF02#32 = .ok (.zcgen 0xFF#8 0xFFFF#16) := by decide

theorem step_pssgen : ∃ t, step (hosted [.cmd 0x00001903#32] c64) = .next t := by
  rw [step_cmd (rest := []) rfl, issue_of_legal (i := .pssgen 25#8) (by decide) (by decide)]
  exact exec_next _ _

theorem witness_EveryStepKeepsInvariant :
    (hosted [.cmd 0x00001903#32] c64).Inv ∧ ∃ t, step (hosted [.cmd 0x00001903#32] c64) = .next t :=
  ⟨c64_inv.of_record rfl rfl c64_inv.mem (fun _ _ => rfl) c64_inv.ctrl rfl rfl rfl rfl rfl rfl rfl rfl rfl, step_pssgen⟩

theorem witness_ConstantsNeverChange : ∃ t, step (hosted [.cmd 0x00001903#32] c64) = .next t := step_pssgen

theorem witness_RecordChangesOnlyByCfg :
    (∃ t, step (hosted [.cmd 0x00001903#32] c64) = .next t) ∧
      (∀ rest, (hosted [.cmd 0x00001903#32] c64).host ≠ .reset :: rest) ∧
      ∀ w rest n ug up, (hosted [.cmd 0x00001903#32] c64).host = .cmd w :: rest → decode w ≠ .ok (.cfg n ug up) := by
  refine ⟨step_pssgen, fun rest h => by simp [hosted] at h, fun w rest n ug up h => ?_⟩
  obtain rfl : 0x00001903#32 = w := by simpa [hosted] using (List.cons.inj h).1
  rw [show decode 0x00001903#32 = .ok (.pssgen 25#8) by decide]
  simp

theorem witness_OnlyResetClearsErrAndCfgv :
    let s := hosted [.reset] (c64.raise .bufferRange 5#32)
    step s = .next (s.advance []).hostReset ∧ (s.err = true ∧ (s.advance []).hostReset.err = false) ∧
      (s.cfgv = true ∧ (s.advance []).hostReset.cfgv = false) :=
  ⟨rfl, by decide, by decide⟩

theorem witness_OnlyTimingCommandsWriteDetf :
    let s := hosted [.reset] (c64.writeTiming [] [])
    step s = .next (s.advance []).hostReset ∧ (s.advance []).hostReset.detf ≠ s.detf := ⟨rfl, by decide⟩

/-- The last element that holds a value, the first that does not, and an index at the capacity below the length. -/
theorem witness_HostReadsHaveNoEffect :
    (hosted [.readCsr 0x2A] c64).host = .readCsr 0x2A :: [] ∧
      ((hosted [.readBuf .pil 5] c64).host = .readBuf .pil 5 :: [] ∧ 5 < c64.bufLen .pil ∧ 5 < c64.bufCap .pil) ∧
      ((hosted [.readBuf .pil 6] c64).host = .readBuf .pil 6 :: [] ∧ c64.bufLen .pil ≤ 6) ∧
      ((hosted [.readBuf .bnd 10] c64).host = .readBuf .bnd 10 :: [] ∧ c64.bufCap .bnd ≤ 10) := by decide

theorem witness_HostWritesRegisters :
    (hosted [.writeCsr 0x03 (.word 7#32)] c64).host = .writeCsr 0x03 (.word 7#32) :: [] ∧
      (0x03 ∈ [0x03, 0x0A, 0x0B, 0x17, 0x18, 0x20, 0x24, 0x26] ∧ 0x26 ∈ [0x03, 0x0A, 0x0B, 0x17, 0x18, 0x20, 0x24, 0x26]) ∧
      (hosted [.writeCsr 0x10 (.real .one)] c64).host = .writeCsr 0x10 (.real .one) :: [] ∧
      (0x10 ∈ [0x10, 0x11, 0x12, 0x13, 0x14, 0x15, 0x16, 0x1A] ∧ 0x1A ∈ [0x10, 0x11, 0x12, 0x13, 0x14, 0x15, 0x16, 0x1A]) ∧
      (hosted [.writeCsr 0x00 (.word 7#32)] c64).host = .writeCsr 0x00 (.word 7#32) :: [] ∧
      ∀ no ∈ [0x00, 0x02, 0x0F, 0x19, 0x1B, 0x27, 0x2B],
        no ∉ [0x03, 0x0A, 0x0B, 0x10, 0x11, 0x12, 0x13, 0x14, 0x15, 0x16, 0x17, 0x18, 0x1A, 0x20, 0x24, 0x26] := by
  decide

/-- The last element and the first index above it of each host-writable buffer, and a buffer of the engine. -/
theorem witness_HostWritesSamples :
    (hosted [.writeBuf .rxb 999 (.cplx .one)] c64).host = .writeBuf .rxb 999 (.cplx .one) :: [] ∧
      999 < c64.params.capRxb ∧ c64.params.capRxb ≤ 1000 ∧
      (hosted [.writeBuf .pay 99 (.cplx .one)] c64).host = .writeBuf .pay 99 (.cplx .one) :: [] ∧
      99 < c64.params.capPay ∧ c64.params.capPay ≤ 100 ∧
      (hosted [.writeBuf .bnd 9 (.nat 5)] c64).host = .writeBuf .bnd 9 (.nat 5) :: [] ∧
      9 < c64.params.capBnd ∧ c64.params.capBnd ≤ 10 ∧
      (hosted [.writeBuf .pil 0 (.nat 5)] c64).host = .writeBuf .pil 0 (.nat 5) :: [] ∧
      BufName.pil ∈ [BufName.txo, .scr, .sym, .seq, .pil] := by decide

/-- The defaults of size 64, and the explicit values of 95_test_vectors.md V3. -/
theorem witness_CfgWritesRecord :
    (∃ (g pc : Nat) (p : Nat → Nat), g = 27 ∧ pc = 64 / 10 ∧ 2 ≤ pc ∧ 1 ≤ g / 2 ∧ g / 2 < 64 / 2 ∧
      pc ≤ base.params.capPil ∧
      (∀ k, p k = if k = pc - 1 then 64 - g / 2 else
        let x := g / 2 + k * (64 - g / 2 - g / 2) / (pc - 1)
        if x = 64 / 2 then 64 / 2 + 1 else x) ∧
      (∀ k, k + 1 < pc → p k < p (k + 1)) ∧ ∀ k, k < pc → p k ≠ 64 / 2 ∧ g / 2 ≤ p k ∧ p k ≤ 64 - g / 2) ∧
    (∃ (g pc : Nat) (p : Nat → Nat), g = (10#32).toNat ∧ pc = (4#32).toNat ∧ 2 ≤ pc ∧ 1 ≤ g / 2 ∧ g / 2 < 64 / 2 ∧
      pc ≤ base.params.capPil ∧
      (∀ k, p k = if k = pc - 1 then 64 - g / 2 else
        let x := g / 2 + k * (64 - g / 2 - g / 2) / (pc - 1)
        if x = 64 / 2 then 64 / 2 + 1 else x) ∧
      (∀ k, k + 1 < pc → p k < p (k + 1)) ∧ ∀ k, k < pc → p k ≠ 64 / 2 ∧ g / 2 ≤ p k ∧ p k ≤ 64 - g / 2) := by
  refine ⟨⟨27, 6, _, rfl, rfl, by decide, by decide, by decide, by decide, fun k => rfl, ?_, ?_⟩,
    ⟨10, 4, _, rfl, rfl, by decide, by decide, by decide, by decide, fun k => rfl, ?_, ?_⟩⟩
  · intro k hk
    have : k < 5 := by omega
    interval_cases k <;> decide
  · decide
  · intro k hk
    have : k < 3 := by omega
    interval_cases k <;> decide
  · decide

theorem witness_CfgRejectsUnknownSize :
    (63#16).toNat ∉ [64, 128, 256, 512, 1024, 2048] ∧ (65#16).toNat ∉ [64, 128, 256, 512, 1024, 2048] ∧
      (100#16).toNat ∉ [64, 128, 256, 512, 1024, 2048] := by decide

/-- Each clause at its boundary: counts 1 and 2, guard lengths 1, 2, 63 and 64, a capacity one below the count, and 204 pilots
on the 51 indices 13 .. 63 of size 64, the first two of which are 13. -/
theorem witness_CfgChecksInOrder :
    (64#16).toNat ∈ [64, 128, 256, 512, 1024, 2048] ∧
      ({ base with pilotOvr := 1#32 }).cfgCount 64 true < 2 ∧
      (2 ≤ ({ base with pilotOvr := 2#32 }).cfgCount 64 true ∧ ({ base with guardOvr := 1#32 }).cfgGuard 64 true / 2 < 1 ∧
        64 / 2 ≤ ({ base with guardOvr := 64#32 }).cfgGuard 64 true / 2) ∧
      (1 ≤ ({ base with guardOvr := 2#32 }).cfgGuard 64 true / 2 ∧
        ({ base with guardOvr := 63#32 }).cfgGuard 64 true / 2 < 64 / 2 ∧
        (sized ⟨0, 0, 0, 0, 0, 63, 5⟩ base).params.capPil < base.cfgCount 64 false) ∧
      (let pc := ({ base with pilotOvr := 204#32 }).cfgCount 64 true
       pc ≤ base.params.capPil ∧ 0 + 1 < pc ∧ 13 + 1 * (64 - 13 - 13) / (pc - 1) ≤ 13 + 0 * (64 - 13 - 13) / (pc - 1)) := by
  decide

theorem witness_CfgDefaultGeometries : 204 ≤ base.params.capPil := by decide

theorem witness_PilotIndicesOfValidRecord : c64.GridValid := c64_valid

theorem witness_ActiveCarrierSets : c64.GridValid := c64_valid

theorem witness_PilotRowPositions : c64.GridValid := c64_valid

theorem witness_ZcgenWritesSequence : base.params.capSeq < (64#16).toNat ∧ (63#16).toNat ≤ base.params.capSeq := by decide

theorem witness_ZadoffChuSamples : 0 < 4 ∧ (1 * 0 * (0 + 1)) % (2 * 4) = (1 * 7 * (7 + 1)) % (2 * 4) := by decide

theorem witness_PssgenWritesSequence :
    (sized ⟨0, 0, 0, 0, 0, 61, 0⟩ base).params.capSeq < 62 ∧ 62 ≤ (sized ⟨0, 0, 0, 0, 0, 62, 0⟩ base).params.capSeq := by
  decide

theorem witness_SyncRowPlacement :
    31 ≤ 32 ∧ (32 - 31 ≤ 1 ∧ 31 ≤ 32 - 1) ∧ (32 + 1 ≤ 33 ∧ 63 ≤ 32 + 31) ∧ (0 < 32 - 31 ∧ 32 + 31 < 64) := by decide

theorem witness_TransformsAreInverse : 0 < c64.sizeN := by decide

theorem witness_ModWritesFrame :
    c64.Inv ∧ c64.cfgv = true ∧ 5 = 5 * ((c64.blockCount + 4) / 5) ∧ 6 = 5 + 5 / 5 ∧ c64.payLen ≤ c64.params.capPay ∧
      6 * c64.period ≤ c64.params.capTxo ∧ c64.payLen = 0 ∧ 0 < c64.sizeND ∧
      0 < ({ c64 with len := { c64.len with pay := 1#32 } }).payLen :=
  ⟨c64_inv, by decide +kernel⟩

theorem witness_GridRowsHoldPayloadAndPilots :
    c64.GridValid ∧ 6 % 6 = 0 ∧ 5 % 6 ≠ 0 ∧ c64.setD[31]? = some 50 ∧ 5 < c64.sizePC ∧ 12 < c64.edgeLo ∧
      c64.edgeHi < 52 :=
  ⟨c64_valid, by decide +kernel⟩

theorem exec_mod_c64 : exec (.mod true) c64 = .next (c64.writeTxo c64.frame 1 (c64.symbolCount * c64.period)) := by
  show execMod true c64 = _
  rw [execMod, State.whenConfigured_of (by decide), if_neg (by decide), if_neg (by decide)]
  rfl

theorem witness_CyclicPrefixRepeatsTail :
    ∃ t, c64.Inv ∧ c64.cfgv = true ∧ exec (.mod true) c64 = .next t ∧ t.err = false ∧ 15 < c64.sizeCP ∧
      (5 + 1) * c64.period ≤ t.bufLen .txo := by
  refine ⟨_, c64_inv, by decide, exec_mod_c64, by decide, by decide, ?_⟩
  show _ ≤ (Word.ofNat c64.frame.length).toNat
  rw [show c64.frame.length = 480 by simp [State.frame]; decide]
  decide

theorem witness_BodySpectrumIsGridRow : c64.GridValid ∧ 63 < c64.sizeN := ⟨c64_valid, by decide⟩

theorem witness_ModCapacityFaults :
    c64.cfgv = true ∧ (sized ⟨0, 479, 0, 0, 0, 0, 0⟩ { c64 with len := { c64.len with pay := 1#32 } }).params.capPay <
        ({ c64 with len := { c64.len with pay := 1#32 } }).payLen ∧
      (c64.payLen ≤ 0 ∧ 5 = 5 * ((c64.blockCount + 4) / 5) ∧
        (sized ⟨0, 479, 0, 0, 0, 0, 0⟩ c64).params.capTxo < (5 + 5 / 5) * c64.period) := by decide +kernel

theorem witness_CorrelationValues : ∃ lt, ExactLt (fun _ => 0) lt := exactLt_exists _

theorem witness_ScoresAreNormalised :
    (∃ lt, ExactLt (fun _ => 0) lt) ∧ (∀ a ∈ [RNum.rat 0], a.val (fun _ => 0) = 0) ∧
      (∀ a ∈ [RNum.rat 0, RNum.rat 2], 0 ≤ a.val (fun _ => 0)) ∧ ∃ a ∈ [RNum.rat 0, RNum.rat 2], 0 < a.val (fun _ => 0) :=
  ⟨exactLt_exists _, by simp, by simp, by simp⟩

theorem witness_AcceptedBoundaries :
    (∃ lt, ExactLt (fun _ => 0) lt) ∧ 0 < 2 ∧ 2 ≤ 4 ∧ [RNum.one, .zero, .zero, .one].length = 4 :=
  ⟨exactLt_exists _, by decide⟩

theorem witness_CpBoundariesAscendInBuffer : 0 < 2 ∧ 2 ≤ 2 ∧ [RNum.one, RNum.zero].length = 2 := by decide

/-- 80 samples, 1 at the offsets `l` and else 0, the synchronization root 0 (with which the reference starts with the rational
number 31/32), no offset correction, and a `BND` of capacity `n`. -/
def pulse (l : List Nat) (n : Nat) : State :=
  { quiet 80 c64 with
    mem := { c64.mem with rxb := .ofList (tabulate 80 fun i => if i ∈ l then Cplx.one else .zero) }
    params := { c64.params with capBnd := n }
    consts := { c64.consts with syncRoot := 0#32 }
    pssCorr := 0#32 }

theorem pulse_rxbAt (l : List Nat) (n : Nat) {i : Nat} (h : i < 80) (hl : i ∉ l) : (pulse l n).rxbAt i = Cplx.zero := by
  show ((Buf.ofList (tabulate 80 _)).get? i).getD _ = _
  rw [Buf.get?_ofList, tabulate_getElem?, if_pos h, if_neg hl]
  rfl

/-- The invariant does not depend on the samples, the tuning, the root, `PSS_CORR` and the capacity of `BND`. -/
theorem sampled_inv {t : State} {n : Nat} (hp : t.params = { c64.params with capBnd := n }) (hn : n < 2 ^ 31) (hm : t.mem.Wf t.params)
    (h : ∃ x w, t.mem = { c64.mem with rxb := x } ∧ t.len = { c64.len with rxb := w }) (h1 : t.status = c64.status)
    (h2 : t.cause = c64.cause) (h3 : t.info = c64.info) (h4 : t.grid = c64.grid) (h5 : t.ctrl = c64.ctrl)
    (h6 : t.consts.Allowed) : t.Inv := by
  obtain ⟨x, w, hx, hw⟩ := h
  have hc : t.cfgv = c64.cfgv := by rw [State.cfgv, h1]; rfl
  have he : t.err = c64.err := by rw [State.err, h1]; rfl
  have hv := c64_valid
  exact {
    caps := by
      obtain ⟨a1, a2, a3, -, a5, a6, a7⟩ := c64_inv.caps
      rw [hp]; exact ⟨a1, a2, a3, hn, a5, a6, a7⟩
    least := by rw [hp]; exact c64_inv.least
    consts := h6
    mem := hm
    status := by rw [h1]; exact c64_inv.status
    ctrl := by rw [h5]; exact c64_inv.ctrl
    noFault := by rw [he, h2, h3]; exact c64_inv.noFault
    fault := by rw [he, h2]; exact c64_inv.fault
    grid := fun _ => by
      constructor <;> simp only [State.sizeN, State.sizeCP, State.sizePC, State.sizeND, State.edgeLo, State.edgeHi,
        State.center, h4, hp, hx]
      exacts [hv.1, hv.2, hv.3, hv.4, hv.5, hv.6, hv.7, hv.8, hv.9, hv.10, hv.11]
    gridReset := by rw [hc, h4]; exact c64_inv.gridReset
    txo := by rw [hx, hw]; exact c64_inv.txo
    scr := by rw [hx, hw]; exact c64_inv.scr
    sym := by rw [hx, hw]; exact c64_inv.sym
    seq := by rw [hx, hw]; exact c64_inv.seq
    pil := by rw [hx, h4]; exact c64_inv.pil
    shape := by rw [hw]; exact c64_inv.shape }

theorem pulse_inv (l : List Nat) (n : Nat) (hn : n < 2 ^ 31) (hm : (pulse l n).mem.Wf (pulse l n).params) :
    (pulse l n).Inv :=
  sampled_inv (n := n) rfl hn hm ⟨_, _, rfl, rfl⟩ rfl rfl rfl rfl rfl
    ⟨c64_inv.consts.pilot, c64_inv.consts.amplitude, show (0#32).toNat < 256 by decide, rfl⟩

/-- Samples 1 at 0 and 64 with the reset thresholds: a boundary list of one element, with a `BND` of 0 and of 10 elements. -/
theorem witness_SynccpWritesScoresAndBoundaries :
    ((pulse [0, 64] 0).Inv ∧ (pulse [0, 64] 10).Inv) ∧
    (∀ n ∈ [0, 10], (pulse [0, 64] n).cfgv = true ∧ (pulse [0, 64] n).rxLen ≤ (pulse [0, 64] n).params.capRxb ∧
      (pulse [0, 64] n).period ≤ (pulse [0, 64] n).rxLen ∧ (pulse [0, 64] n).cpScores = (pulse [0, 64] 0).cpScores) ∧
    (pulse [0, 64] 0).cpBoundaries (pulse [0, 64] 0).cpScores = [0] := by
  refine ⟨⟨pulse_inv _ 0 (by decide) (by decide +kernel), pulse_inv _ 10 (by decide) (by decide +kernel)⟩, ?_,
    by decide +kernel⟩
  simp only [List.forall_mem_cons, List.not_mem_nil, false_implies, implies_true, and_true]
  exact ⟨⟨by decide, by decide, by decide⟩, ⟨by decide, by decide, by decide, rfl⟩⟩

theorem witness_TimingLengthFaults :
    c64.cfgv = true ∧ (quiet 1001 c64).params.capRxb < (quiet 1001 c64).rxLen ∧
      ((quiet 79 c64).rxLen ≤ (quiet 79 c64).params.capRxb ∧ (quiet 79 c64).rxLen < (quiet 79 c64).period) := by
  decide +kernel

/-- Negative thresholds included. -/
theorem witness_SilenceIsNoFrame :
    let s := { quiet 80 c64 with
      tuning := { c64.tuning with thCpAccept := .rat (-1), thPssTime := .rat (-1), thPssFreq := .rat (-1) } }
    s.Inv ∧ s.cfgv = true ∧ s.rxLen ≤ s.params.capRxb ∧ s.period ≤ s.rxLen ∧
      ∀ i, i < s.rxLen → s.rxbAt i = Cplx.zero := by
  refine ⟨sampled_inv (n := 10) rfl (by decide) (by decide +kernel) ⟨_, _, rfl, rfl⟩ rfl rfl rfl rfl rfl c64_inv.consts,
    by decide, by decide, by decide, fun i hi => ?_⟩
  have hi : i < 80 := hi
  show ((Buf.ofList (List.replicate 80 Cplx.zero)).get? i).getD _ = _
  rw [Buf.get?_ofList, List.getElem?_replicate, if_pos hi]
  rfl

theorem witness_ProgressionFromFrameStart : 0 < c64.period := by decide

/-- The raw scores of `pulse [0]`: 31/32 at 0, else 0. -/
theorem pulse_pssRaw (i : Nat) (h : i < 17) :
    pssRaw RNum.lt (pulse [0] 0).rxbAt 64 (pulse [0] 0).reference false i = if i = 0 then .rat (31 / 32) else .zero := by
  split_ifs with h0
  · subst h0; decide +kernel
  · have hw : ∀ t, t < 64 → window (pulse [0] 0).rxbAt i t = Cplx.zero := fun t ht =>
      pulse_rxbAt [0] 0 (by omega) (by simp; omega)
    rw [pssRaw, corr_zero hw]; decide +kernel

theorem pulse_pssScores : (pulse [0] 0).pssScores = .one :: List.replicate 16 .zero := by
  have hraw : tabulate 17 (pssRaw RNum.lt (pulse [0] 0).rxbAt 64 (pulse [0] 0).reference false) =
      tabulate 17 fun i => if i = 0 then .rat (31 / 32) else .zero :=
    List.map_congr_left fun i hi => pulse_pssRaw i (List.mem_range.mp hi)
  have hlen : (pulse [0] 0).rxLen + 1 - (pulse [0] 0).sizeN = 17 := by decide
  have hn : (pulse [0] 0).sizeN = 64 := by decide
  have hm : (pulse [0] 0).corrCplx = false := by decide
  rw [State.pssScores, pssScores, hlen, hn, hm, hraw]
  decide +kernel

/-- A sample 1 at 0 with the reset thresholds: the first offset is 0 and the list has one element, with a `BND` of 0 and of 10
elements. -/
theorem witness_SyncpssWritesScoresAndBoundaries :
    ((pulse [0] 0).Inv ∧ (pulse [0] 10).Inv) ∧
    (∀ n ∈ [0, 10], (pulse [0] n).cfgv = true ∧ (pulse [0] n).rxLen ≤ (pulse [0] n).params.capRxb ∧
      (pulse [0] n).period ≤ (pulse [0] n).rxLen ∧ (pulse [0] n).pssScores = (pulse [0] 0).pssScores) ∧
    (∃ a ∈ (pulse [0] 0).pssScores, a.val Config.atomValue ≠ 0) ∧
    ((pulse [0] 0).pssScores.findIdx? fun a => RNum.lt (pulse [0] 0).tuning.thPssTime a) = some 0 ∧
    (pulse [0] 0).pssBoundaries ((pulse [0] 0).pssStart false (pulse [0] 0).pssScores) = [0] := by
  refine ⟨⟨pulse_inv _ 0 (by decide) (by decide +kernel), pulse_inv _ 10 (by decide) (by decide +kernel)⟩, ?_, ?_, ?_, ?_⟩
  · simp only [List.forall_mem_cons, List.not_mem_nil, false_implies, implies_true, and_true]
    exact ⟨⟨by decide, by decide, by decide⟩, ⟨by decide, by decide, by decide, rfl⟩⟩
  · rw [pulse_pssScores]
    exact ⟨.one, by simp, by simp⟩
  · rw [pulse_pssScores]
    decide +kernel
  · rw [pulse_pssScores]
    decide +kernel

/-- The last frame start that fits. -/
theorem witness_CfoestEstimatesOffset :
    let s := quiet 80 c64
    s.cfgv = true ∧ s.rxLen ≤ s.params.capRxb ∧ 0 ≤ s.frameStart.toInt ∧
      s.frameStart.toInt + (s.period : Int) ≤ (s.rxLen : Int) := by decide

/-- Both clauses: samples, and an empty buffer. -/
theorem witness_CforotDerotatesBuffer :
    (∀ n ∈ [0, 80], (quiet n c64).cfgv = true ∧ (quiet n c64).rxLen = n) ∧ 80 ≤ c64.params.capRxb := by decide

theorem witness_CfocorrIsEstimateThenDerotate :
    let s := quiet 80 c64
    s.cfgv = true ∧ s.rxLen ≤ s.params.capRxb ∧ 0 ≤ s.frameStart.toInt ∧
      s.frameStart.toInt + (s.period : Int) ≤ (s.rxLen : Int) := by decide

theorem witness_CfoFaults :
    c64.cfgv = true ∧ (quiet 1001 c64).params.capRxb < (quiet 1001 c64).rxLen ∧
      (quiet 80 c64).rxLen ≤ (quiet 80 c64).params.capRxb ∧ (0xFFFFFFFF#32).toInt < 0 ∧
      ((quiet 80 c64).rxLen : Int) < (1#32).toInt + ((quiet 80 c64).period : Int) := by decide +kernel

/-- A symbol whose body is the reference. -/
def refState : State :=
  { c64 with
    mem := { c64.mem with rxb := .ofList (tabulate 80 fun n => syncRef 25 64 (n - 16)) }
    len := { c64.len with rxb := 80#32 } }

theorem witness_ZeroOffsetEstimatesZero :
    ∃ t, refState.cfgv = true ∧ exec .cfoest refState = .next t ∧ t.err = false ∧ (0 : ℝ) < 1 ∧
      ∀ i, i < refState.sizeN →
        (refState.rxbAt (refState.frameStart.toInt.toNat + refState.sizeCP + i)).val (fun _ => 0) =
          ((1 : ℝ) : ℂ) * (syncRef refState.consts.syncRoot.toNat refState.sizeN i).val (fun _ => 0) := by
  refine ⟨refState.writeCfo refState.estPhase (refState.phaseHz refState.estPhase), by decide, ?_, by decide, one_pos, ?_⟩
  · show execCfoest refState = _
    rw [execCfoest, State.cfoChecks_of (by decide) (by decide), State.whenInRange_of (by decide) (by decide)]
  · intro i hi
    have hi : i < 64 := hi
    have h : refState.rxbAt (16 + i) = syncRef 25 64 i := by
      simp only [State.rxbAt, refState, Buf.get?_ofList, tabulate_getElem?]
      rw [if_pos (by omega)]
      simp
    show (refState.rxbAt (16 + i)).val _ = _ * (syncRef 25 64 i).val _
    rw [h]; simp

theorem witness_DemodExtractsCarriers :
    q64.Inv ∧ q64.cfgv = true ∧ q64.rxLen ≤ q64.params.capRxb ∧ q64.bndLen ≤ q64.params.capBnd ∧
      tabulate q64.bndLen q64.bndAt = [0] ∧ (∀ b ∈ [0], b + q64.period ≤ q64.rxLen) ∧
      [0].length * q64.setA.length ≤ q64.params.capSym ∧ q64.setA[37]? = some 51 ∧
      ((tabulate (bounded [9, 0] q64).bndLen (bounded [9, 0] q64).bndAt).zipIdx.filter fun b =>
        decide (b.2 % 6 ≠ 0)).map Prod.fst = [0] :=
  ⟨q64_inv, by decide +kernel⟩

theorem witness_DemodWritesStream :
    let rows := [q64.setA.map (q64.received 0)]
    q64.Inv ∧ q64.cfgv = true ∧ q64.rxLen ≤ q64.params.capRxb ∧ q64.bndLen ≤ q64.params.capBnd ∧
      (Instr.WellFormed (.demod false false true true true false false) ∧ ¬ (true = true ∧ false = true)) ∧
      tabulate q64.bndLen q64.bndAt = [0] ∧ (∀ b ∈ [0], b + q64.period ≤ q64.rxLen) ∧
      (∃ h, rows[0]? = some h ∧ 0 < h.length ∧ interpolate (ampPoints q64.pilotPos h) 0 = .zero) ∧
      (sized ⟨0, 0, 1000, 10, 37, 0, 204⟩ q64).params.capSym < (rows.flatten.drop 0).length ∧
      (rows.flatten.drop 0).length ≤ q64.params.capSym := by
  refine ⟨q64_inv, by decide, by decide, by decide, by decide, by decide, by decide,
    ⟨q64.setA.map (q64.received 0), rfl, by decide +kernel, by decide +kernel⟩, by decide +kernel, by decide +kernel⟩

theorem witness_DemodFaultsInOrder :
    c64.cfgv = true ∧ (quiet 1001 c64).params.capRxb < (quiet 1001 c64).rxLen ∧
      (bounded [0, 0, 0, 0, 0, 0, 0, 0, 0, 0, 0] c64).params.capBnd < (bounded [0, 0, 0, 0, 0, 0, 0, 0, 0, 0, 0] c64).bndLen ∧
      (false = false ∧ 2 ≤ c64.sizePC) ∧
      (let s := bounded [0, 1] (quiet 80 c64)
       s.rxLen ≤ s.params.capRxb ∧ s.bndLen ≤ s.params.capBnd ∧ 1 < s.bndLen ∧ ¬ (true = true ∧ 1 % 6 = 0) ∧
         s.rxLen < s.bndAt 1 + s.period ∧ s.bndAt 0 + s.period ≤ s.rxLen) := by decide +kernel

theorem witness_DemodOfNoBoundaryIsEmpty :
    (quiet 80 c64).Inv ∧ (quiet 80 c64).cfgv = true ∧ (quiet 80 c64).rxLen ≤ (quiet 80 c64).params.capRxb ∧
      (quiet 80 c64).bndLen ≤ (quiet 80 c64).params.capBnd ∧
      Instr.WellFormed (.demod false true true true true true true) ∧ ¬ (true = true ∧ false = true) ∧
      (quiet 80 c64).bndLen = 0 ∧ (q64.Inv ∧ true = true ∧ q64.bndLen = 1) :=
  ⟨quiet_inv, by decide, by decide, by decide, by decide, by decide, by decide, q64_inv, rfl, by decide⟩

theorem witness_InterpolationIsPiecewiseLinear :
    let points := [(0, RNum.rat 1), (7, RNum.rat 5)]
    (points.map Prod.fst).Pairwise (· < ·) ∧ points[0]? = some (0, .rat 1) ∧ points[0 + 1]? = some (7, .rat 5) ∧
      points.head? = some (0, .rat 1) ∧ points.getLast? = some (7, .rat 5) := by decide +kernel

theorem witness_EqualizationRestoresPilots :
    [0, 2].Pairwise (· < ·) ∧ 2 ∈ [0, 2] ∧ 2 < [Cplx.one, Cplx.one, Cplx.one].length ∧
      (Cplx.nth [Cplx.one, Cplx.one, Cplx.one] 2).val (fun _ => 0) ≠ 0 := by
  refine ⟨by decide, by decide, by decide, ?_⟩
  simp [Cplx.nth]

theorem witness_PilotStripLeavesData : c64.GridValid := c64_valid

theorem witness_OutlierRejectionKeepsBand :
    (∃ lt, ExactLt (fun _ => 0) lt) ∧ (∀ z ∈ [Cplx.one, Cplx.zero], ‖z.val (fun _ => 0)‖ ≤ 1) ∧
      (∃ z ∈ [Cplx.one, Cplx.zero], ‖z.val (fun _ => 0)‖ = 1) ∧ ∃ z ∈ [Cplx.zero], ‖z.val (fun _ => 0)‖ = 0 :=
  ⟨exactLt_exists _, by simp, by simp, by simp⟩

/-- A payload of exactly `ND` symbols. -/
def paid : State := { c64 with len := { c64.len with pay := 32#32 } }

theorem witness_RoundTripUpToAmplitude :
    ∃ s1, paid.Inv ∧ paid.cfgv = true ∧ 0 < paid.sizeND ∧ paid.payLen = paid.sizeND ∧ exec (.mod true) paid = .next s1 ∧
      s1.err = false ∧ s1.bufLen .txo ≤ s1.params.capRxb ∧ 6 ≤ s1.params.capBnd ∧
      5 * paid.sizeND ≤ s1.params.capSym := by
  refine ⟨paid.writeTxo paid.frame 1 (paid.symbolCount * paid.period), ?_, by decide, by decide, by decide, ?_, by decide,
    ?_, by decide, by decide⟩
  · exact c64_inv.of_record rfl rfl c64_inv.mem (fun _ _ => rfl) c64_inv.ctrl rfl rfl rfl rfl rfl rfl rfl rfl rfl
  · show execMod true paid = _
    rw [execMod, State.whenConfigured_of (by decide), if_neg (by decide), if_neg (by decide)]
    rfl
  · show (Word.ofNat paid.frame.length).toNat ≤ _
    rw [show paid.frame.length = 480 by simp [State.frame]; decide]
    decide

theorem witness_RoundTripRecoversPayload :
    ∃ s1, paid.Inv ∧ paid.cfgv = true ∧ 0 < paid.sizeND ∧ paid.payLen = paid.sizeND ∧ exec (.mod true) paid = .next s1 ∧
      s1.err = false ∧ s1.bufLen .txo ≤ s1.params.capRxb ∧ 6 ≤ s1.params.capBnd ∧
      5 * paid.sizeND ≤ s1.params.capSym :=
  witness_RoundTripUpToAmplitude

end Sys2Proof.Tests
end

section
/-! PROOFS. The machine's comparison is exact, computed or not, and `peak` with an exact comparison is `argmax_first`
(00_scope.md R7, R10). -/

namespace Sys2Proof.Machine

open Sys2Proof

/-- Where the comparison is not computed, the machine takes the order of the real numbers. -/
theorem lt_of_quick_none {a b : RNum} (h : a.quickLt b = none) :
    a.lt b = true ↔ a.val Config.atomValue < b.val Config.atomValue := by
  simp only [RNum.lt, h, decide_eq_true_eq]

/-- The comparison the commands make is exact (00_scope.md R7). -/
theorem exactLt_lt : ExactLt Config.atomValue RNum.lt := by
  intro a b
  cases h : a.quickLt b with
  | none => exact lt_of_quick_none h
  | some r => rw [RNum.lt_of_quick h]; exact RNum.quickLt_spec _ h

/-- The converse of `peak_spec`: with an exact comparison, `peak` answers the element that no other exceeds and that exceeds
all before it. There is only one such index, since of two the earlier would be below the later. -/
theorem peak_eq_of_first_max {ρ : Nat → ℝ} {lt : RNum → RNum → Bool} (h : ExactLt ρ lt) {l : List RNum} {i : Nat}
    {a : RNum} (hi : l[i]? = some a) (hmax : ∀ b ∈ l, b.val ρ ≤ a.val ρ)
    (hfirst : ∀ (j : Nat) (b : RNum), j < i → l[j]? = some b → b.val ρ < a.val ρ) : peak lt l = (a, i) := by
  have hl : l ≠ [] := List.ne_nil_of_mem (List.mem_of_getElem? hi)
  obtain ⟨hk, hkmax, hkfirst⟩ := peak_spec h hl
  have hki : (peak lt l).2 = i := by
    rcases Nat.lt_trichotomy (peak lt l).2 i with hlt | heq | hgt
    · exact absurd (hkmax i a hi) (not_le.mpr (hfirst _ _ hlt hk))
    · exact heq
    · exact absurd (hmax _ (List.mem_of_getElem? hk)) (not_le.mpr (hkfirst i a hgt hi))
  have hka : (peak lt l).1 = a := by
    rw [hki, hi] at hk
    exact (Option.some.inj hk).symm
  exact Prod.ext hka hki

/-- Settles O6: the bounds path by `RNum.ltBounds_spec`, the other paths by the cases of `RNum.lt`, and the position of the
maximum by its uniqueness. -/
theorem comparisonIsExact : Obligations.ComparisonIsExact :=
  ⟨exactLt_lt, fun ρ _ _ _ h => RNum.ltBounds_spec ρ h, fun _ _ _ => peak_eq_of_first_max exactLt_lt⟩

end Sys2Proof.Machine
end

section
/-! PROOFS. Everything a command word, a host write and a step can do, each said once as what it may write
(60_exceptions.md R224 to R226, 10_state.md R24, 20_memory.md R61). -/

namespace Sys2Proof.Machine

open Sys2Proof

variable {s t : State}

/-! ## What a command word can leave -/

/-- What issuing the word `w` can leave of `s`: `s` itself (refused while `ERR = 1`, 60_exceptions.md R225), a fault entry, or
what one command writes once its checks have passed, with the bounds those checks give. Only `CFG` writes the record and only
`SYNCCP` and `SYNCPSS` write `DETF`. -/
inductive CommandEffect (w : Word) (s : State) : State → Prop
  | refused : CommandEffect w s s
  | fault (c : Cause) (v : Word) : CommandEffect w s (s.raise c v)
  | grid {n : Half} {ug up : Bool} {g pc : Nat} (hd : decode w = .ok (.cfg n ug up))
      (hf : cfgFault s.params.capPil n.toNat g pc = none) :
      CommandEffect w s (s.writeGrid n.toNat g pc (pilotList (g / 2) (n.toNat - g / 2) (n.toNat / 2) pc))
  | seq {l : List Cplx} (hl : l.length ≤ s.params.capSeq) : CommandEffect w s (s.writeSeq l)
  | txo {l : List Cplx} {rows cols : Nat} (hc : s.cfgv = true) (hl : l.length ≤ s.params.capTxo)
      (hcols : rows = 1 ∨ cols = s.period) (hs : rows * cols = l.length) : CommandEffect w s (s.writeTxo l rows cols)
  | timing {scores : List RNum} {bounds : List Nat} {start : Option Int}
      (hd : decode w = .ok .synccp ∨ ∃ th, decode w = .ok (.syncpss th)) (hc : s.cfgv = true)
      (hs : 0 < s.sizeN → scores.length ≤ s.params.capRxb) (hb : bounds.length ≤ s.params.capBnd) :
      CommandEffect w s ((s.writeTiming scores bounds).noteStart start)
  | estimate (phase hz : RNum) : CommandEffect w s (s.writeCfo phase hz)
  | rotate (hz : RNum) (hr : s.rxLen ≤ s.params.capRxb) : CommandEffect w s (s.derotateRxb hz)
  | correct (phase hz : RNum) (hr : s.rxLen ≤ s.params.capRxb) :
      CommandEffect w s ((s.writeCfo phase hz).derotateRxb hz)
  | sym {l : List Cplx} {cols : Nat} (hl : l.length ≤ s.params.capSym) : CommandEffect w s (s.writeSym l cols)

/-- The frame has one sample for each position of each symbol period (42_modulator.md R140). -/
theorem frame_length (s : State) : s.frame.length = s.symbolCount * s.period := by simp [State.frame]

/-- `SYNCCP` scores every sample (43_timing_sync.md R154). -/
theorem cpScores_length (s : State) : s.cpScores.length = s.rxLen := by simp [State.cpScores, cpScores]

/-- `SYNCPSS` scores the offsets `0 .. M-N` (43_timing_sync.md R163). -/
theorem pssScores_length (s : State) : s.pssScores.length = s.rxLen + 1 - s.sizeN := by simp [State.pssScores, pssScores]

/-- The effect of a legal word is that of the command it decodes to. -/
theorem exec_effect {w : Word} {i : Instr} (hd : decode w = .ok i) (h : exec i s = .next t) : CommandEffect w s t := by
  cases i with
  | cfg n ug up =>
    obtain ⟨c, v, rfl⟩ | ⟨g, pc, -, -, hf, rfl⟩ := execCfg_cases h
    · exact .fault c v
    · exact .grid hd hf
  | zcgen u n =>
    obtain ⟨c, v, rfl⟩ | ⟨hl, rfl⟩ := execZcgen_cases h
    · exact .fault c v
    · exact .seq (by simpa using hl)
  | pssgen u =>
    obtain ⟨c, v, rfl⟩ | ⟨hl, rfl⟩ := execPssgen_cases h
    · exact .fault c v
    · exact .seq (by simpa using hl)
  | mod flat =>
    obtain ⟨c, v, rfl⟩ | ⟨hc, -, hl, rfl⟩ := execMod_cases h
    · exact .fault c v
    · exact .txo hc (by rwa [frame_length]) (by cases flat <;> simp) (by cases flat <;> simp [frame_length])
  | synccp =>
    obtain ⟨c, v, rfl⟩ | ⟨hc, hm, -, hb, rfl⟩ := execSynccp_cases h
    · exact .fault c v
    · exact .timing (start := none) (.inl hd) hc (fun _ => by rwa [cpScores_length]) hb
  | syncpss th =>
    obtain ⟨c, v, rfl⟩ | ⟨hc, hm, -, hb, rfl⟩ := execSyncpss_cases h
    · exact .fault c v
    · exact .timing (.inr ⟨th, hd⟩) hc (fun hn => by rw [pssScores_length]; omega) hb
  | cfoest =>
    obtain ⟨c, v, rfl⟩ | ⟨-, -, -, -, rfl⟩ := execCfoest_cases h
    · exact .fault c v
    · exact .estimate _ _
  | cforot =>
    obtain ⟨c, v, rfl⟩ | ⟨-, hr, rfl⟩ := execCforot_cases h
    · exact .fault c v
    · exact .rotate _ hr
  | cfocorr =>
    obtain ⟨c, v, rfl⟩ | ⟨-, hr, -, -, rfl⟩ := execCfocorr_cases h
    · exact .fault c v
    · exact .correct _ _ hr
  | demod sub xs eq aq ps sk orj =>
    obtain ⟨c, v, rfl⟩ | ⟨-, -, -, -, -, -, y, -, hl, rfl⟩ := execDemod_cases h
    · exact .fault c v
    · exact .sym hl

/-- Everything issuing a word can leave. -/
theorem issue_effect {w : Word} (h : issue w s = .next t) : CommandEffect w s t := by
  obtain ⟨-, rfl⟩ | ⟨-, -, rfl⟩ | ⟨-, i, hd, h⟩ := issue_cases h
  · exact .refused
  · exact .fault _ _
  · exact exec_effect hd h

/-! ## What a host write can leave -/

/-- What the host's writes leave alone of what the invariant speaks of: `t` has the read-only registers (10_state.md R25) and
the buffers of `s` that only the engine writes, and the writable buffers and `CTRL` keep their form. -/
structure HostEffect (s t : State) : Prop where
  status : t.status = s.status := by rfl
  cause : t.cause = s.cause := by rfl
  info : t.info = s.info := by rfl
  grid : t.grid = s.grid := by rfl
  consts : t.consts = s.consts := by rfl
  params : t.params = s.params := by rfl
  txo : t.mem.txo = s.mem.txo := by rfl
  scr : t.mem.scr = s.mem.scr := by rfl
  sym : t.mem.sym = s.mem.sym := by rfl
  seq : t.mem.seq = s.mem.seq := by rfl
  pil : t.mem.pil = s.mem.pil := by rfl
  lenTxo : t.len.txo = s.len.txo := by rfl
  txoRows : t.len.txoRows = s.len.txoRows := by rfl
  txoCols : t.len.txoCols = s.len.txoCols := by rfl
  lenScr : t.len.scr = s.len.scr := by rfl
  lenSym : t.len.sym = s.len.sym := by rfl
  lenSeq : t.len.seq = s.len.seq := by rfl
  mem : s.mem.Wf s.params → t.mem.Wf t.params
  ctrl : s.ctrl &&& 0xFFFFFFFE#32 = 0#32 → t.ctrl &&& 0xFFFFFFFE#32 = 0#32

theorem HostEffect.refl (s : State) : HostEffect s s := { mem := id, ctrl := id }

theorem writeWord_effect (s : State) (r : WordReg) (w : Word) : HostEffect s (s.writeWord r w) := by
  have hctrl := ctrlStored_reserved w
  have hmem : s.mem.Wf s.params → (s.writeWord r w).mem.Wf s.params := by
    rintro ⟨pay, txo, rxb, scr, bnd, rest⟩
    cases r
    case lenPay => exact ⟨Buf.below_wf pay _, txo, rxb, scr, bnd, rest⟩
    case lenRxb => exact ⟨pay, txo, Buf.below_wf rxb _, scr, bnd, rest⟩
    case lenBnd => exact ⟨pay, txo, rxb, scr, Buf.below_wf bnd _, rest⟩
    all_goals exact ⟨pay, txo, rxb, scr, bnd, rest⟩
  cases r
  case ctrl => exact { mem := hmem, ctrl := fun _ => hctrl }
  all_goals exact { mem := hmem, ctrl := id }

theorem writeReal_effect (s : State) (r : RealReg) (a : RNum) : HostEffect s (s.writeReal r a) := by
  cases r <;> exact { mem := id, ctrl := id }

theorem writeCsr_effect (s : State) (no : Nat) (v : CsrValue) : HostEffect s (s.writeCsr no v) := by
  obtain ⟨-, h⟩ | ⟨r, -, h⟩ | ⟨r, -, h⟩ := writeCsr_cases s no v <;> rw [h]
  · exact .refl s
  · exact writeWord_effect s r _
  · exact writeReal_effect s r _

/-- A change of the elements of the writable buffers. -/
theorem HostEffect.of_mem {pay rxb : Buf Cplx} {bnd : Buf Nat}
    (hp : s.mem.pay.Wf s.params.capPay → pay.Wf s.params.capPay)
    (hr : s.mem.rxb.Wf s.params.capRxb → rxb.Wf s.params.capRxb)
    (hb : s.mem.bnd.Wf s.params.capBnd → bnd.Wf s.params.capBnd) :
    HostEffect s { s with mem := { s.mem with pay := pay, rxb := rxb, bnd := bnd } } :=
  { mem := fun ⟨h1, h2, h3, h4, h5, h6⟩ => ⟨hp h1, h2, hr h3, h4, hb h5, h6⟩, ctrl := id }

theorem writeBuf_effect (s : State) (b : BufName) (i : Nat) (v : ElemValue) : HostEffect s (s.writeBuf b i v) := by
  obtain ⟨-, h⟩ | ⟨hi, ⟨rfl, h⟩ | ⟨rfl, h⟩ | ⟨rfl, h⟩⟩ := writeBuf_cases s b i v <;> rw [h]
  · exact .refl s
  · exact .of_mem (Buf.put_wf · hi _) id id
  · exact .of_mem id (Buf.put_wf · hi _) id
  · exact .of_mem id id (Buf.put_wf · hi _)

/-! ## What a step can leave -/

/-- Everything a step can leave: the effect of a command word, reset, or that of the host's other actions. -/
theorem step_effect (h : step s = .next t) :
    (∃ w rest, s.host = .cmd w :: rest ∧ CommandEffect w (s.issued rest) t) ∨
      (∃ rest, s.host = .reset :: rest ∧ t = (s.advance rest).hostReset) ∨
      ∃ rest, HostEffect (s.advance rest) t := by
  obtain ⟨-, rfl⟩ | ⟨w, rest, hw, h⟩ | ⟨rest, -, rfl⟩ | ⟨no, v, rest, -, rfl⟩ | ⟨b, i, rest, -, -, rfl⟩ |
    ⟨b, i, v, rest, -, rfl⟩ | ⟨rest, hr, rfl⟩ := step_cases h
  · exact .inr (.inr ⟨t.host, .refl t⟩)
  · exact .inl ⟨w, rest, hw, issue_effect h⟩
  · exact .inr (.inr ⟨rest, .refl _⟩)
  · exact .inr (.inr ⟨rest, writeCsr_effect _ no v⟩)
  · exact .inr (.inr ⟨rest, .refl _⟩)
  · exact .inr (.inr ⟨rest, writeBuf_effect _ b i v⟩)
  · exact .inr (.inl ⟨rest, hr, rfl⟩)

end Sys2Proof.Machine
end

section
/-! PROOFS. What no step changes, and what only `CFG`, reset and the timing commands change (10_state.md R23, R29, R31). -/

namespace Sys2Proof.Machine

open Sys2Proof

variable {s t : State} {w : Word}

/-! ## What a command word leaves unchanged -/

/-- `FRAME_START` is no part of the record, of the constants or of `STATUS`. -/
theorem noteStart_keeps (s : State) (o : Option Int) :
    (s.noteStart o).status = s.status ∧ (s.noteStart o).consts = s.consts ∧ (s.noteStart o).params = s.params ∧
      (s.noteStart o).grid = s.grid ∧ (s.noteStart o).mem = s.mem ∧ (s.noteStart o).len = s.len := by
  cases o <;> exact ⟨rfl, rfl, rfl, rfl, rfl, rfl⟩

/-- De-rotation changes no register and no buffer but `RXB` (44_cfo.md R183). -/
theorem derotateRxb_keeps (s : State) (hz : RNum) :
    (s.derotateRxb hz).status = s.status ∧ (s.derotateRxb hz).consts = s.consts ∧ (s.derotateRxb hz).params = s.params ∧
      (s.derotateRxb hz).grid = s.grid ∧ (s.derotateRxb hz).mem.pil = s.mem.pil := by
  rw [s.derotateRxb_eq]
  exact ⟨rfl, rfl, rfl, rfl, rfl⟩

/-- No command writes a constant of the hardware or a capacity (10_state.md R31). -/
theorem CommandEffect.constants (h : CommandEffect w s t) : t.consts = s.consts ∧ t.params = s.params := by
  cases h with
  | timing =>
    obtain ⟨-, hc, hp, -⟩ := noteStart_keeps (s.writeTiming _ _) _
    exact ⟨hc, hp⟩
  | rotate hz =>
    obtain ⟨-, hc, hp, -⟩ := derotateRxb_keeps s hz
    exact ⟨hc, hp⟩
  | correct phase hz =>
    obtain ⟨-, hc, hp, -⟩ := derotateRxb_keeps (s.writeCfo phase hz) hz
    exact ⟨hc, hp⟩
  | _ => exact ⟨rfl, rfl⟩

/-- No command but `CFG` writes the record (10_state.md R29). -/
theorem CommandEffect.record (h : CommandEffect w s t) (hw : ∀ n ug up, decode w ≠ .ok (.cfg n ug up)) :
    t.grid = s.grid ∧ t.mem.pil = s.mem.pil := by
  cases h with
  | grid hd => exact absurd hd (hw _ _ _)
  | timing =>
    obtain ⟨-, -, -, hg, hm, -⟩ := noteStart_keeps (s.writeTiming _ _) _
    exact ⟨hg, by rw [hm]; rfl⟩
  | rotate hz =>
    obtain ⟨-, -, -, hg, hp⟩ := derotateRxb_keeps s hz
    exact ⟨hg, hp⟩
  | correct phase hz =>
    obtain ⟨-, -, -, hg, hp⟩ := derotateRxb_keeps (s.writeCfo phase hz) hz
    exact ⟨hg, hp⟩
  | _ => exact ⟨rfl, rfl⟩

/-- No command clears a bit of `STATUS` but bit 2, `DETF` (10_state.md R23). -/
theorem CommandEffect.status_kept (h : CommandEffect w s t) {i : Nat} (hi : i ≠ 2) (hs : s.status.getLsbD i = true) :
    t.status.getLsbD i = true := by
  cases h with
  | fault => rw [State.raise_status, setErr_getLsbD, hs, Bool.true_or]
  | grid => rw [State.writeGrid_status, setCfgv_getLsbD, hs, Bool.true_or]
  | timing =>
    obtain ⟨hst, -⟩ := noteStart_keeps (s.writeTiming _ _) _
    rw [hst, State.writeTiming_status, writeDetf_getLsbD, if_neg hi, hs]
  | rotate hz => rwa [(derotateRxb_keeps s hz).1]
  | correct phase hz => rwa [(derotateRxb_keeps (s.writeCfo phase hz) hz).1]
  | _ => exact hs

/-- No command but `SYNCCP` and `SYNCPSS` writes `DETF` (10_state.md R23). -/
theorem CommandEffect.detf (h : CommandEffect w s t) :
    t.detf = s.detf ∨ decode w = .ok .synccp ∨ ∃ th, decode w = .ok (.syncpss th) := by
  cases h with
  | fault c v => exact .inl (State.raise_detf c v)
  | grid => exact .inl (State.writeGrid_detf _ _ _ _)
  | timing hd => exact .inr hd
  | rotate hz => exact .inl (by rw [State.detf, (derotateRxb_keeps s hz).1, State.detf])
  | correct phase hz => exact .inl (by rw [State.detf, (derotateRxb_keeps (s.writeCfo phase hz) hz).1]; rfl)
  | _ => exact .inl rfl

/-! ## What a step leaves unchanged -/

/-- No step writes a constant of the hardware or a capacity: reset too keeps them (10_state.md R31). -/
theorem step_constants (h : step s = .next t) : t.consts = s.consts ∧ t.params = s.params := by
  obtain ⟨w, rest, -, he⟩ | ⟨rest, -, rfl⟩ | ⟨rest, he⟩ := step_effect h
  · exact he.constants
  · exact ⟨rfl, rfl⟩
  · exact ⟨he.consts, he.params⟩

/-- Settles O13: the four registers and the capacities are read from fields that no step writes. -/
theorem constantsNeverChange : Obligations.ConstantsNeverChange := by
  intro s t h
  obtain ⟨hc, hp⟩ := step_constants h
  simp only [State.readCsr, hc, hp, and_self]

/-- Settles O14, by the three kinds of step: of the command words only those of `CFG` write the record, and the host's other
actions cannot. -/
theorem recordChangesOnlyByCfg : Obligations.RecordChangesOnlyByCfg := by
  intro s t h hreset hcfg
  have hpv : t.consts.pilotValue = s.consts.pilotValue := by rw [(step_constants h).1]
  obtain ⟨w, rest, hw, he⟩ | ⟨rest, hr, -⟩ | ⟨rest, he⟩ := step_effect h
  · obtain ⟨hg, hp⟩ := he.record fun n ug up => hcfg w rest n ug up hw
    exact ⟨hg, hp, hpv⟩
  · exact absurd hr (hreset rest)
  · exact ⟨he.grid, he.pil, hpv⟩

/-- A step other than reset clears no bit of `STATUS` but `DETF`. -/
theorem step_status_kept (h : step s = .next t) (hreset : ¬ ∃ rest, s.host = .reset :: rest) {i : Nat} (hi : i ≠ 2)
    (hs : s.status.getLsbD i = true) : t.status.getLsbD i = true := by
  obtain ⟨w, rest, -, he⟩ | ⟨rest, hr, -⟩ | ⟨rest, he⟩ := step_effect h
  · exact he.status_kept hi hs
  · exact absurd ⟨rest, hr⟩ hreset
  · rwa [he.status]

/-- Settles O15: `CFGV` and `ERR` are bits 0 and 1 of `STATUS`. -/
theorem onlyResetClearsErrAndCfgv : Obligations.OnlyResetClearsErrAndCfgv := by
  intro s t h hclear
  by_contra hreset
  rcases hclear with ⟨hs, ht⟩ | ⟨hs, ht⟩
  · have hkept : t.err = true := step_status_kept h hreset (by decide) hs
    simp [hkept] at ht
  · have hkept : t.cfgv = true := step_status_kept h hreset (by decide) hs
    simp [hkept] at ht

/-- Settles O16, by the three kinds of step. -/
theorem onlyTimingCommandsWriteDetf : Obligations.OnlyTimingCommandsWriteDetf := by
  intro s t h hne
  obtain ⟨w, rest, hw, he⟩ | ⟨rest, hr, -⟩ | ⟨rest, he⟩ := step_effect h
  · obtain hkept | hd := he.detf
    · exact absurd hkept hne
    · exact .inr ⟨w, rest, hw, hd⟩
  · exact .inl ⟨rest, hr⟩
  · exact absurd (congrArg (·.getLsbD 2) he.status) hne

end Sys2Proof.Machine
end

section
/-! PROOFS. Every step keeps the invariant: one lemma for each effect a step can have (10_state.md R26 to R41). -/

namespace Sys2Proof.Machine

open Sys2Proof

variable {s t : State}

/-! ## What the engine writes is in form -/

/-- A length within a capacity is what a register written with it holds. -/
theorem toNat_ofNat_of_le_cap {n cap : Nat} (h : n ≤ cap) (hc : cap < 2 ^ 31) : (Word.ofNat n).toNat = n :=
  Word.toNat_ofNat_of_lt (by omega)

/-- A sequence that fits its buffer fills it up to the length written (10_state.md R36, R41). -/
theorem filled_ofNat {α : Type} {l : List α} {cap : Nat} (h : l.length ≤ cap) (hc : cap < 2 ^ 31) :
    (Buf.ofList l).Filled (Word.ofNat l.length).toNat := by
  rw [toNat_ofNat_of_le_cap h hc]
  exact Buf.ofList_filled l

/-! ## The record (40_grid_parameters.md R100 to R112) -/

/-- The record that `CFG` writes after its checks is valid. -/
theorem writeGrid_valid (hcap : s.params.capPil < 2 ^ 31) {n g pc : Nat}
    (hf : cfgFault s.params.capPil n g pc = none) :
    (s.writeGrid n g pc (pilotList (g / 2) (n - g / 2) (n / 2) pc)).GridValid := by
  obtain ⟨hsize, hcount, hlow, hedge, hroom, hvalid⟩ := cfgFault_none hf
  have hn : n ≤ 2048 := by
    simp only [Config.fftSet, List.contains_eq_mem, decide_eq_true_eq, List.mem_cons, List.not_mem_nil, or_false] at hsize
    omega
  have toNat_eq {m : Nat} (h : m < 4294967296) : (Word.ofNat m).toNat = m := Word.toNat_ofNat_of_lt h
  constructor <;>
    simp only [State.sizeN, State.sizeCP, State.sizePC, State.sizeND, State.edgeLo, State.edgeHi, State.center,
      State.writeGrid_grid, State.writeGrid_params, State.writeGrid_mem, toNat_eq (show n < _ by omega),
      toNat_eq (show n / 4 < _ by omega), toNat_eq (show g < _ by omega), toNat_eq (show pc < _ by omega),
      toNat_eq (show n - g / 2 - g / 2 < _ by omega), toNat_eq (show n - g / 2 - g / 2 - pc < _ by omega)]
  exacts [hsize, hcount, hlow, hedge, hroom, hvalid]

/-- A successful `CFG` keeps the invariant. -/
theorem State.Inv.writeGrid (hs : s.Inv) {n g pc : Nat} (hf : cfgFault s.params.capPil n g pc = none) :
    (s.writeGrid n g pc (pilotList (g / 2) (n - g / 2) (n / 2) pc)).Inv where
  caps := hs.caps
  least := hs.least
  consts := hs.consts
  mem := by
    obtain ⟨-, -, -, -, hroom, -⟩ := cfgFault_none hf
    obtain ⟨pay, txo, rxb, scr, bnd, sym, seq, -⟩ := hs.mem
    exact ⟨pay, txo, rxb, scr, bnd, sym, seq, Buf.ofList_wf (by simpa using hroom)⟩
  status := by
    rw [State.writeGrid_status, status_reserved_iff]
    intro i hi
    rw [setCfgv_getLsbD, (status_reserved_iff _).mp hs.status i hi, Bool.false_or]
    exact decide_eq_false (by omega)
  ctrl := hs.ctrl
  noFault := by rw [State.writeGrid_err]; exact hs.noFault
  fault := by rw [State.writeGrid_err]; exact hs.fault
  grid := by
    obtain ⟨-, -, -, -, -, -, hcap⟩ := hs.caps
    exact fun _ => writeGrid_valid hcap hf
  gridReset := by simp
  txo := hs.txo
  scr := hs.scr
  sym := hs.sym
  seq := hs.seq
  pil := by
    obtain ⟨-, -, -, -, -, -, hcap⟩ := hs.caps
    obtain ⟨-, -, -, -, hroom, -⟩ := cfgFault_none hf
    have hfill := filled_ofNat (l := pilotList (g / 2) (n - g / 2) (n / 2) pc) (by simpa using hroom) hcap
    rwa [pilotList_length] at hfill
  shape := hs.shape

/-! ## The other commands -/

/-- `ZCGEN` and `PSSGEN` keep the invariant. -/
theorem State.Inv.writeSeq (hs : s.Inv) {l : List Cplx} (hl : l.length ≤ s.params.capSeq) : (s.writeSeq l).Inv := by
  obtain ⟨-, -, -, -, -, hcap, -⟩ := hs.caps
  obtain ⟨pay, txo, rxb, scr, bnd, sym, -, pil⟩ := hs.mem
  exact hs.of_record rfl rfl ⟨pay, txo, rxb, scr, bnd, sym, Buf.ofList_wf hl, pil⟩ (fun _ _ => rfl) hs.ctrl rfl rfl rfl rfl
    hs.txo hs.scr hs.sym (filled_ofNat hl hcap) hs.shape

/-- A symbol period of a valid record has at most `2048 + 512` samples, and at least one. -/
theorem State.GridValid.period_bounds (h : s.GridValid) : 0 < s.period ∧ s.period ≤ 2560 := by
  have hcp := h.cp
  obtain ⟨hlow, hhigh, -⟩ := h.sizes
  rw [State.period]
  omega

/-- The shape of a frame is what its registers hold: neither factor exceeds the length of the frame (42_modulator.md R140). -/
theorem shape_ofNat {rows cols len : Nat} (hlen : len < 2 ^ 31) (hs : rows * cols = len)
    (hcols : rows = 1 ∨ 0 < cols ∧ cols ≤ 2560) :
    (Word.ofNat rows).toNat * (Word.ofNat cols).toNat = (Word.ofNat len).toNat := by
  have hbounds : rows < 4294967296 ∧ cols < 4294967296 := by
    obtain rfl | ⟨hpos, hle⟩ := hcols
    · omega
    · have := Nat.le_mul_of_pos_right rows hpos
      omega
  rw [Word.toNat_ofNat_of_lt hbounds.1, Word.toNat_ofNat_of_lt hbounds.2, Word.toNat_ofNat_of_lt (by omega), hs]

/-- `MOD` keeps the invariant. -/
theorem State.Inv.writeTxo (hs : s.Inv) {l : List Cplx} {rows cols : Nat} (hc : s.cfgv = true)
    (hl : l.length ≤ s.params.capTxo) (hcols : rows = 1 ∨ cols = s.period) (hlen : rows * cols = l.length) :
    (s.writeTxo l rows cols).Inv := by
  obtain ⟨-, hcap, -⟩ := hs.caps
  obtain ⟨pay, -, rest⟩ := hs.mem
  have hshape : rows = 1 ∨ 0 < cols ∧ cols ≤ 2560 := by
    have hperiod := (hs.grid hc).period_bounds
    exact hcols.imp_right fun h => by rwa [h]
  exact hs.of_record rfl rfl ⟨pay, Buf.ofList_wf hl, rest⟩ (fun _ _ => rfl) hs.ctrl rfl rfl rfl rfl
    (filled_ofNat hl hcap) hs.scr hs.sym hs.seq (shape_ofNat (by omega) hlen hshape)

/-- The timing commands' scores, boundaries and `DETF` keep the invariant. -/
theorem State.Inv.writeTiming (hs : s.Inv) {scores : List RNum} {bounds : List Nat}
    (hl : scores.length ≤ s.params.capRxb) (hb : bounds.length ≤ s.params.capBnd) : (s.writeTiming scores bounds).Inv := by
  obtain ⟨-, -, hcap, -⟩ := hs.caps
  obtain ⟨pay, txo, rxb, -, -, rest⟩ := hs.mem
  have hstatus : ∀ i, i ≠ 2 → (s.writeTiming scores bounds).status.getLsbD i = s.status.getLsbD i := fun i hi => by
    rw [State.writeTiming_status, writeDetf_getLsbD, if_neg hi]
  exact hs.of_record rfl rfl ⟨pay, txo, rxb, Buf.ofList_wf hl, Buf.ofList_wf hb, rest⟩ hstatus hs.ctrl rfl rfl rfl rfl
    hs.txo (filled_ofNat hl hcap) hs.sym hs.seq hs.shape

/-- The frame start is no part of the invariant. -/
theorem State.Inv.noteStart (hs : s.Inv) (o : Option Int) : (s.noteStart o).Inv := by
  obtain ⟨w, h⟩ := s.noteStart_eq o
  rw [h]
  exact hs.of_record rfl rfl hs.mem (fun _ _ => rfl) hs.ctrl rfl rfl rfl rfl hs.txo hs.scr hs.sym hs.seq hs.shape

/-- The estimated offset is no part of the invariant. -/
theorem State.Inv.writeCfo (hs : s.Inv) (phase hz : RNum) : (s.writeCfo phase hz).Inv :=
  hs.of_record rfl rfl hs.mem (fun _ _ => rfl) hs.ctrl rfl rfl rfl rfl hs.txo hs.scr hs.sym hs.seq hs.shape

/-- De-rotation keeps the invariant. -/
theorem State.Inv.derotateRxb (hs : s.Inv) (hz : RNum) (hr : s.rxLen ≤ s.params.capRxb) : (s.derotateRxb hz).Inv := by
  obtain ⟨-, h⟩ | ⟨-, h⟩ := s.derotateRxb_cases hz <;> rw [h]
  · exact hs
  · obtain ⟨pay, txo, -, rest⟩ := hs.mem
    have hwf : (Buf.ofList (s.derotate hz)).Wf s.params.capRxb := Buf.ofList_wf (by simpa [State.derotate, linear] using hr)
    exact hs.of_record rfl rfl ⟨pay, txo, hwf, rest⟩ (fun _ _ => rfl) hs.ctrl rfl rfl rfl rfl hs.txo hs.scr hs.sym hs.seq
      hs.shape

/-- `DEMOD` keeps the invariant. -/
theorem State.Inv.writeSym (hs : s.Inv) {l : List Cplx} (cols : Nat) (hl : l.length ≤ s.params.capSym) :
    (s.writeSym l cols).Inv := by
  obtain ⟨-, -, -, -, hcap, -⟩ := hs.caps
  obtain ⟨pay, txo, rxb, scr, bnd, -, rest⟩ := hs.mem
  exact hs.of_record rfl rfl ⟨pay, txo, rxb, scr, bnd, Buf.ofList_wf hl, rest⟩ (fun _ _ => rfl) hs.ctrl rfl rfl rfl rfl
    hs.txo hs.scr (filled_ofNat hl hcap) hs.seq hs.shape

/-- Whatever a command word does keeps the invariant. -/
theorem CommandEffect.inv {w : Word} (h : CommandEffect w s t) (hs : s.Inv) : t.Inv := by
  cases h with
  | refused => exact hs
  | fault c v => exact hs.raise c v
  | grid _ hf => exact hs.writeGrid hf
  | seq hl => exact hs.writeSeq hl
  | txo hc hl hcols hlen => exact hs.writeTxo hc hl hcols hlen
  | timing _ hc hl hb =>
    have hpos : 0 < s.sizeN := by have := (hs.grid hc).sizes; omega
    exact (hs.writeTiming (hl hpos) hb).noteStart _
  | estimate phase hz => exact hs.writeCfo phase hz
  | rotate hz hr => exact hs.derotateRxb hz hr
  | correct phase hz hr => exact (hs.writeCfo phase hz).derotateRxb hz hr
  | sym hl => exact hs.writeSym _ hl

/-! ## The host's side -/

/-- The host's list and the command index are no part of the invariant. -/
theorem State.Inv.reschedule (hs : s.Inv) (rest : List HostEvent) (n : Nat) : { s with host := rest, pc := n }.Inv :=
  hs.of_record rfl rfl hs.mem (fun _ _ => rfl) hs.ctrl rfl rfl rfl rfl hs.txo hs.scr hs.sym hs.seq hs.shape

/-- The host cannot break the invariant: what it may write has no part in it beyond its form (20_memory.md R61). -/
theorem HostEffect.inv (h : HostEffect s t) (hs : s.Inv) : t.Inv := by
  refine hs.of_record h.params h.consts (h.mem hs.mem) (fun i _ => by rw [h.status]) (h.ctrl hs.ctrl) h.cause h.info h.grid
    h.pil ?_ ?_ ?_ ?_ ?_
  · rw [h.txo, h.lenTxo]; exact hs.txo
  · rw [h.scr, h.lenScr]; exact hs.scr
  · rw [h.sym, h.lenSym]; exact hs.sym
  · rw [h.seq, h.lenSeq]; exact hs.seq
  · rw [h.txoRows, h.txoCols, h.lenTxo]; exact hs.shape

/-- Reset establishes the invariant anew; the parameters are what they were (70_reset_and_hazards.md R250). -/
theorem State.Inv.hostReset (hs : s.Inv) : s.hostReset.Inv where
  caps := hs.caps
  least := hs.least
  consts := hs.consts
  mem := ⟨Buf.empty_wf _, Buf.empty_wf _, Buf.empty_wf _, Buf.empty_wf _, Buf.empty_wf _, Buf.empty_wf _, Buf.empty_wf _,
    Buf.empty_wf _⟩
  status := BitVec.zero_and
  ctrl := BitVec.zero_and
  noFault := fun _ => ⟨rfl, rfl⟩
  fault := fun h => absurd (show (0#32).getLsbD 1 = true from h) (by decide)
  grid := fun h => absurd (show (0#32).getLsbD 0 = true from h) (by decide)
  gridReset := fun _ => rfl
  txo := rfl
  scr := rfl
  sym := rfl
  seq := rfl
  pil := rfl
  shape := rfl

/-- Settles O12: the host's next action taken, each of the three kinds of step keeps the invariant. -/
theorem everyStepKeepsInvariant : Obligations.EveryStepKeepsInvariant := by
  intro s t hs h
  obtain ⟨w, rest, -, he⟩ | ⟨rest, -, rfl⟩ | ⟨rest, he⟩ := step_effect h
  · exact he.inv (hs.reschedule rest (s.pc + 1))
  · exact (hs.reschedule rest s.pc).hostReset
  · exact he.inv (hs.reschedule rest s.pc)

end Sys2Proof.Machine
end

section
/-! PROOFS. The pilot indices of a valid record (10_state.md R38, 40_grid_parameters.md R105 to R107). -/

namespace Sys2Proof.Machine

open Sys2Proof

variable {s : State}

/-- The first pilot index is the low edge: it lies below the center, so it is not nudged. -/
theorem pilotIndex_zero {lo hi c pc : Nat} (hc : lo < c) (hpc : 2 ≤ pc) : pilotIndex lo hi c pc 0 = lo := by
  rw [pilotIndex, if_neg (by omega), pilotSpaced, Nat.zero_mul, Nat.zero_div, Nat.add_zero, nudge, if_neg (by omega)]

/-- The last pilot index is the high edge (R106 (b)). -/
theorem pilotIndex_last {lo hi c pc k : Nat} (hk : k + 1 = pc) : pilotIndex lo hi c pc k = hi := if_pos hk

/-- The length of `PIL` is the pilot count. -/
theorem State.GridValid.bufLen_pil (h : s.GridValid) : s.bufLen .pil = s.sizePC := by
  rw [State.bufLen, h.lenPil, State.sizePC]

theorem State.GridValid.readBuf_pil (h : s.GridValid) {k : Nat} (hk : k < s.sizePC) :
    s.readBuf .pil k = some (.nat (s.pilAt k)) := by
  have hroom : s.sizePC ≤ s.bufCap .pil := h.room
  rw [State.readBuf, h.bufLen_pil, if_pos (by omega), State.element]

theorem State.GridValid.readBuf_pil_none (h : s.GridValid) {k : Nat} (hk : s.sizePC ≤ k) : s.readBuf .pil k = none := by
  rw [State.readBuf, h.bufLen_pil, if_neg (by omega)]

/-- `PIL[0 .. PC-1]` satisfies the invariant of R107. -/
theorem State.GridValid.pilots_valid (h : s.GridValid) :
    s.pilots.Pairwise (· < ·) ∧ ∀ k ∈ s.pilots, k ≠ s.center ∧ s.edgeLo ≤ k ∧ k ≤ s.edgeHi := by
  rw [h.pilots_eq]
  exact (pilotsValid_iff _ _ _ _).mp h.valid

theorem State.pilots_getElem? (s : State) {k : Nat} (hk : k < s.sizePC) : s.pilots[k]? = some (s.pilAt k) := by
  rw [State.pilots, tabulate_getElem?, if_pos hk]

/-- Settles O24: the list of pilot indices is valid as `CFG` checked it, and its ends are the edges. -/
theorem pilotIndicesOfValidRecord : Obligations.PilotIndicesOfValidRecord := by
  intro s h
  obtain ⟨hrising, hrange⟩ := h.pilots_valid
  have hcount := h.count
  refine ⟨h.bufLen_pil, fun k => h.readBuf_pil_none, fun k hk => ?_, fun j k hjk hk => ?_, ?_, ?_⟩
  · obtain ⟨hcenter, hlo, hhi⟩ := hrange _ (List.mem_of_getElem? (s.pilots_getElem? hk))
    exact ⟨h.readBuf_pil hk, hlo, hhi, hcenter⟩
  · obtain ⟨hj', hj⟩ := List.getElem?_eq_some_iff.mp (s.pilots_getElem? (hjk.trans hk))
    obtain ⟨hk', hk⟩ := List.getElem?_eq_some_iff.mp (s.pilots_getElem? hk)
    rw [← hj, ← hk]
    exact List.pairwise_iff_getElem.mp hrising j k hj' hk' hjk
  · rw [h.pilAt_eq (by omega), pilotIndex_zero h.edge hcount]
  · rw [h.pilAt_eq (by omega), pilotIndex_last (by omega)]

end Sys2Proof.Machine
end

section
/-! PROOFS. What every register and buffer reads as after reset (70_reset_and_hazards.md R251, 10_state.md R40). -/

namespace Sys2Proof.Machine

open Sys2Proof

/-- Every buffer has length 0 after reset. -/
theorem reset_bufLen (b : BufName) : State.reset.bufLen b = 0 := by cases b <;> rfl

theorem reset_readBuf (b : BufName) (i : Nat) : State.reset.readBuf b i = none := by
  rw [State.readBuf, reset_bufLen, if_neg (by omega)]

/-- Every register after reset but the constants, the tuning registers and the two of the frequency offset. -/
theorem reset_readCsr_zero {no : Nat} (h : ¬ (0x0C ≤ no ∧ no ≤ 0x16)) (hp : no ≠ 0x19) (hz : no ≠ 0x1A) :
    State.reset.readCsr no = .word 0#32 := by
  unfold State.readCsr
  split <;> first | rfl | omega

/-- Settles O1: the registers with a value of their own one by one, the others together. -/
theorem resetRegistersAndBuffers : Obligations.ResetRegistersAndBuffers :=
  ⟨rfl, rfl, rfl, rfl, rfl, rfl, rfl, rfl, rfl, rfl, rfl, rfl, rfl, fun _ => reset_readCsr_zero, reset_readBuf⟩

end Sys2Proof.Machine
end

section
/-! PROOFS. The host's writes of registers: which number is which register, what is read back, and what the write does to the
buffers (10_state.md R24, R25, R28, R41). -/

namespace Sys2Proof.Machine

open Sys2Proof

variable {s : State}

/-! ## The register map, for a host write -/

/-- The number of an integer register that the host may write (R25). -/
def WordReg.no : WordReg → Nat
  | .ctrl => 0x03
  | .guardOvr => 0x0A
  | .pilotOvr => 0x0B
  | .pssCorr => 0x17
  | .frameStart => 0x18
  | .lenPay => 0x20
  | .lenRxb => 0x24
  | .lenBnd => 0x26

/-- The number of a real register that the host may write (R25). -/
def RealReg.no : RealReg → Nat
  | .thCpAccept => 0x10
  | .thCpFirst => 0x11
  | .thPssTime => 0x12
  | .thPssFreq => 0x13
  | .outRadius => 0x14
  | .outLo => 0x15
  | .outHi => 0x16
  | .cfoHz => 0x1A

theorem writable_wordNo (r : WordReg) : writable r.no = .word r := by cases r <;> rfl

theorem writable_realNo (r : RealReg) : writable r.no = .real r := by cases r <;> rfl

theorem no_of_writable_word {no : Nat} {r : WordReg} (h : writable no = .word r) : no = r.no := by
  unfold writable at h
  split at h <;> cases h <;> rfl

theorem no_of_writable_real {no : Nat} {r : RealReg} (h : writable no = .real r) : no = r.no := by
  unfold writable at h
  split at h <;> cases h <;> rfl

/-- The writable integer registers as the spec lists them. -/
theorem exists_wordReg {no : Nat} (h : no ∈ [0x03, 0x0A, 0x0B, 0x17, 0x18, 0x20, 0x24, 0x26]) : ∃ r : WordReg, r.no = no := by
  obtain ⟨r, -, hr⟩ := List.mem_map.mp (show no ∈ List.map WordReg.no
    [.ctrl, .guardOvr, .pilotOvr, .pssCorr, .frameStart, .lenPay, .lenRxb, .lenBnd] from h)
  exact ⟨r, hr⟩

/-- The writable real registers as the spec lists them. -/
theorem exists_realReg {no : Nat} (h : no ∈ [0x10, 0x11, 0x12, 0x13, 0x14, 0x15, 0x16, 0x1A]) : ∃ r : RealReg, r.no = no := by
  obtain ⟨r, -, hr⟩ := List.mem_map.mp (show no ∈ List.map RealReg.no
    [.thCpAccept, .thCpFirst, .thPssTime, .thPssFreq, .outRadius, .outLo, .outHi, .cfoHz] from h)
  exact ⟨r, hr⟩

/-- A number that is no writable register's ignores writes. -/
theorem writable_ignored {no : Nat} (hw : ∀ r : WordReg, no ≠ r.no) (hr : ∀ r : RealReg, no ≠ r.no) :
    writable no = .ignored := by
  cases h : writable no with
  | word r => exact absurd (no_of_writable_word h) (hw r)
  | real r => exact absurd (no_of_writable_real h) (hr r)
  | ignored => rfl

/-! ## What a write changes -/

/-- A written integer register reads back, `CTRL` with its reserved bits 0 (R28). -/
theorem readCsr_writeWord_same (s : State) (r : WordReg) (w : Word) :
    (s.writeWord r w).readCsr r.no = .word (if r.no = 0x03 then w &&& 1#32 else w) := by
  cases r <;> rfl

theorem readCsr_writeWord_other (s : State) {r : WordReg} {n : Nat} (h : n ≠ r.no) (w : Word) :
    (s.writeWord r w).readCsr n = s.readCsr n := by
  unfold State.readCsr
  split <;> cases r <;> first | rfl | exact absurd rfl h

/-- A written real register reads back. -/
theorem readCsr_writeReal_same (s : State) (r : RealReg) (a : RNum) : (s.writeReal r a).readCsr r.no = .real a := by
  cases r <;> rfl

theorem readCsr_writeReal_other (s : State) {r : RealReg} {n : Nat} (h : n ≠ r.no) (a : RNum) :
    (s.writeReal r a).readCsr n = s.readCsr n := by
  unfold State.readCsr
  split <;> cases r <;> first | rfl | exact absurd rfl h

/-- What a host write of an integer register does to the buffers: a length write truncates its own (R41). -/
theorem writeWord_mem (s : State) (r : WordReg) (w : Word) :
    (s.writeWord r w).mem =
      { s.mem with
        pay := if r.no = 0x20 then s.mem.pay.below w.toNat else s.mem.pay
        rxb := if r.no = 0x24 then s.mem.rxb.below w.toNat else s.mem.rxb
        bnd := if r.no = 0x26 then s.mem.bnd.below w.toNat else s.mem.bnd } := by
  cases r <;> rfl

/-- Reading a buffer that was truncated or not. -/
theorem Buf.get?_ite_below {α : Type} (p : Prop) [Decidable p] (b : Buf α) (n i : Nat) :
    (if p then b.below n else b).get? i = if p ∧ n ≤ i then none else b.get? i := by
  by_cases hp : p
  · simp only [hp, if_true, true_and, Buf.get?_below, ← not_lt, ite_not]
  · simp only [hp, if_false, false_and]

/-! ## The step of a host write -/

theorem step_writeCsr {rest : List HostEvent} {no : Nat} {v : CsrValue} (h : s.host = .writeCsr no v :: rest) :
    step s = .next ((s.advance rest).writeCsr no v) :=
  step_cons h

theorem writeCsr_wordNo (s : State) (r : WordReg) (w : Word) : s.writeCsr r.no (.word w) = s.writeWord r w := by
  rw [State.writeCsr, writable_wordNo]; rfl

theorem writeCsr_realNo (s : State) (r : RealReg) (a : RNum) : s.writeCsr r.no (.real a) = s.writeReal r a := by
  rw [State.writeCsr, writable_realNo]; rfl

/-- Whatever the value, a host write changes no register but the one written (R24). -/
theorem readCsr_writeCsr_other (s : State) {no n : Nat} (h : n ≠ no) (v : CsrValue) :
    (s.writeCsr no v).readCsr n = s.readCsr n := by
  obtain ⟨-, hs⟩ | ⟨r, hr, hs⟩ | ⟨r, hr, hs⟩ := writeCsr_cases s no v <;> rw [hs]
  · exact readCsr_writeWord_other s (no_of_writable_word hr ▸ h) _
  · exact readCsr_writeReal_other s (no_of_writable_real hr ▸ h) _

/-- Settles O18: the register written is an integer one, a real one or none, and each kind of write reads back as its own
lemma says. -/
theorem hostWritesRegisters : Obligations.HostWritesRegisters := by
  intro s rest no
  refine ⟨fun w h hno => ?_, fun a h hno => ?_, fun v h hno => ?_, fun v h => ?_⟩
  · obtain ⟨r, rfl⟩ := exists_wordReg hno
    refine ⟨(s.advance rest).writeWord r w, by rw [step_writeCsr h, writeCsr_wordNo], readCsr_writeWord_same _ r w,
      fun n hn => readCsr_writeWord_other _ hn w, ?_⟩
    rw [writeWord_mem]
    exact ⟨Buf.get?_ite_below _ _ _, Buf.get?_ite_below _ _ _, Buf.get?_ite_below _ _ _, rfl⟩
  · obtain ⟨r, rfl⟩ := exists_realReg hno
    have hmem := (writeReal_frame (s.advance rest) r a).1
    exact ⟨(s.advance rest).writeReal r a, by rw [step_writeCsr h, writeCsr_realNo], readCsr_writeReal_same _ r a,
      fun n hn => readCsr_writeReal_other _ hn a, hmem⟩
  · have hignored : writable no = .ignored :=
      writable_ignored (fun r hr => hno (by cases r <;> simp [hr, WordReg.no]))
        fun r hr => hno (by cases r <;> simp [hr, RealReg.no])
    exact ⟨s.advance rest, by rw [step_writeCsr h, State.writeCsr, hignored], rfl, fun _ => rfl⟩
  · exact ⟨_, step_writeCsr h, fun n hn => readCsr_writeCsr_other _ hn v⟩

end Sys2Proof.Machine
end

section
/-! PROOFS. The host's reads, and its writes of buffer elements: which actions leave the machine as it was, which read stops
it, and the one element that a write replaces (20_memory.md R60, R61, R64, 10_state.md R41). -/

namespace Sys2Proof.Machine

open Sys2Proof

variable {s : State} {rest : List HostEvent} {b : BufName} {i : Nat}

/-! ## Reading -/

/-- Taking the next action off the host's list is no change that a read can see. -/
theorem readCsr_advance (s : State) (rest : List HostEvent) (n : Nat) : (s.advance rest).readCsr n = s.readCsr n := rfl

theorem readBuf_advance (s : State) (rest : List HostEvent) (b : BufName) (i : Nat) :
    (s.advance rest).readBuf b i = s.readBuf b i := by
  cases b <;> rfl

theorem step_readCsr {no : Nat} (h : s.host = .readCsr no :: rest) : step s = .next (s.advance rest) :=
  step_cons h

/-- A read of an element completes where there is a value, and is the fault of log 9 elsewhere. -/
theorem step_readBuf (h : s.host = .readBuf b i :: rest) :
    step s = if i < s.bufLen b ∧ i < s.bufCap b then .next (s.advance rest) else .fault (.noValue b i) := by
  rw [step_cons h, hostStep, readBuf_advance]
  simp only [readBuf_isSome]

/-- Settles O17: a read that completes only advances the host, and an element read completes exactly below the length and the
capacity. -/
theorem hostReadsHaveNoEffect : Obligations.HostReadsHaveNoEffect := by
  intro s rest
  refine ⟨fun no h => ?_, fun b i h => ⟨fun hlen hcap => ?_, fun hout => ?_⟩⟩
  · exact ⟨_, step_readCsr h, readCsr_advance s rest, s.advance_mem rest, readBuf_advance s rest⟩
  · exact ⟨s.advance rest, by rw [step_readBuf h, if_pos ⟨hlen, hcap⟩], readCsr_advance s rest, s.advance_mem rest,
      readBuf_advance s rest⟩
  · rw [step_readBuf h, if_neg (by omega)]

/-! ## Writing an element -/

/-- Reading a buffer of which one element was written. -/
theorem Buf.get?_put {α : Type} (b : Buf α) (i : Nat) (v : α) (j : Nat) :
    (b.put i v).get? j = if j = i then some v else b.get? j := by
  split
  next h => rw [h, Buf.get?_put_same]
  next h => exact Buf.get?_put_other b h v

theorem step_writeBuf {v : ElemValue} (h : s.host = .writeBuf b i v :: rest) :
    step s = .next ((s.advance rest).writeBuf b i v) :=
  step_cons h

/-- No write of an element changes a register (R61). -/
theorem readCsr_writeBuf (s : State) (b : BufName) (i : Nat) (v : ElemValue) (n : Nat) :
    (s.writeBuf b i v).readCsr n = s.readCsr n := by
  obtain ⟨-, h⟩ | ⟨-, ⟨-, h⟩ | ⟨-, h⟩ | ⟨-, h⟩⟩ := writeBuf_cases s b i v <;> rw [h] <;> rfl

/-- What a host write of an element does to the buffers: a host-writable one stores it below its capacity, and every other
stays as it is (R61). -/
theorem writeBuf_mem (s : State) (b : BufName) (i : Nat) (v : ElemValue) :
    (s.writeBuf b i v).mem =
      { s.mem with
        pay := if b = .pay ∧ i < s.params.capPay then s.mem.pay.put i (cplxStored v) else s.mem.pay
        rxb := if b = .rxb ∧ i < s.params.capRxb then s.mem.rxb.put i (cplxStored v) else s.mem.rxb
        bnd := if b = .bnd ∧ i < s.params.capBnd then s.mem.bnd.put i (natStored v) else s.mem.bnd } := by
  obtain ⟨hout, h⟩ | ⟨hi, ⟨rfl, h⟩ | ⟨rfl, h⟩ | ⟨rfl, h⟩⟩ := writeBuf_cases s b i v <;> rw [h]
  · rw [if_neg, if_neg, if_neg] <;> rintro ⟨rfl, hi⟩ <;> exact absurd hi (by simpa [State.bufCap] using hout)
  · simp [show i < s.params.capPay from hi]
  · simp [show i < s.params.capRxb from hi]
  · simp [show i < s.params.capBnd from hi]

/-- Settles O19: the buffers after the write are those of `writeBuf_mem`, one clause for each that stores it and one for each
way it is ignored. -/
theorem hostWritesSamples : Obligations.HostWritesSamples := by
  intro s rest b i v h
  refine ⟨_, step_writeBuf h, readCsr_writeBuf _ b i v, ?_⟩
  simp only [writeBuf_mem, State.advance_mem, State.advance_params]
  refine ⟨?_, ?_, ?_, ?_, ?_, ?_, ?_⟩
  · rintro z rfl rfl hi
    simp [hi, cplxStored, Buf.get?_put]
  · rintro z rfl rfl hi
    simp [hi, cplxStored, Buf.get?_put]
  · rintro n rfl rfl hi
    simp [hi, natStored, Buf.get?_put]
  · intro hb
    have hpay : b ≠ .pay := by rintro rfl; simp at hb
    have hrxb : b ≠ .rxb := by rintro rfl; simp at hb
    have hbnd : b ≠ .bnd := by rintro rfl; simp at hb
    simp [hpay, hrxb, hbnd]
  · rintro rfl hi
    simp [hi.not_gt]
  · rintro rfl hi
    simp [hi.not_gt]
  · rintro rfl hi
    simp [hi.not_gt]

end Sys2Proof.Machine
end

section
/-! PROOFS. Command words: which fields make a legal word and which command they stand for, said once; from it, which words are
legal, and that decoding and encoding undo each other (30_encoding.md R80 to R87). -/

namespace Sys2Proof

variable {op fl : Octet} {imm : Half} {w : Word} {i : Instr}

/-! ## Flag bits -/

theorem ushiftRight_eq_zero_iff (f : Octet) (k : Nat) : f >>> k = 0#8 ↔ f.toNat < 2 ^ k := by
  rw [← BitVec.toNat_inj, BitVec.toNat_ushiftRight, Nat.shiftRight_eq_div_pow]
  exact Nat.div_eq_zero_iff_lt (Nat.two_pow_pos k)

/-- Flags that fit in `k` bits have no bit set at `k` or above. -/
theorem getLsbD_of_ushiftRight_eq_zero {k j : Nat} (h : fl >>> k = 0#8) (hj : k ≤ j) : fl.getLsbD j = false :=
  Nat.testBit_lt_two_pow (((ushiftRight_eq_zero_iff fl k).mp h).trans_le (Nat.pow_le_pow_right (by omega) hj))

theorem getLsbD_seven_eq_false_iff (f : Octet) : f.getLsbD 7 = false ↔ f.toNat < 128 :=
  BitVec.msb_eq_getLsbD_last f ▸ BitVec.msb_eq_false_iff_two_mul_lt.trans (by omega)

/-- Flags of which only bit 0 can be set (30_encoding.md R83). -/
theorem flags8_of_one_bit (h : fl >>> 1 = 0#8) : flags8 false false false false false false false (fl.getLsbD 0) = fl := by
  conv_rhs => rw [← flags8_bits fl]
  simp only [getLsbD_of_ushiftRight_eq_zero h, Nat.reduceLeDiff]

/-- Flags of which only bits 0 and 1 can be set (R83). -/
theorem flags8_of_two_bits (h : fl >>> 2 = 0#8) :
    flags8 false false false false false false (fl.getLsbD 1) (fl.getLsbD 0) = fl := by
  conv_rhs => rw [← flags8_bits fl]
  simp only [getLsbD_of_ushiftRight_eq_zero h, Nat.reduceLeDiff]

/-! ## `DEMOD`: the command of seven flag bits -/

/-- The `DEMOD` command of the flags `f` (30_encoding.md R83). -/
def demodOfFlags (f : Octet) : Instr :=
  .demod (f.getLsbD 0) (f.getLsbD 1) (f.getLsbD 2) (f.getLsbD 3) (f.getLsbD 4) (f.getLsbD 5) (f.getLsbD 6)

theorem demodOfFlags_flags8 (sub xs eq aq ps sk orj : Bool) :
    demodOfFlags (flags8 false orj sk ps aq eq xs sub) = .demod sub xs eq aq ps sk orj := by
  simp only [demodOfFlags, flags8_getLsbD, Nat.reduceLT]
  rfl

theorem encode_demodOfFlags (h : fl.getLsbD 7 = false) : encode (demodOfFlags fl) = cmdWord 0x0A#8 fl 0#16 := by
  conv_rhs => rw [← flags8_bits fl, h]
  rfl

/-- The flag pairs of R84 and 45_demodulator.md R191. -/
theorem demodOfFlags_wellFormed (f : Octet) :
    (demodOfFlags f).WellFormed ↔
      (f.getLsbD 3 = true → f.getLsbD 2 = true) ∧ ¬ (f.getLsbD 4 = true ∧ f.getLsbD 0 = true) := by
  simp only [Instr.WellFormed, demodOfFlags, Instr.wellFormed]
  cases f.getLsbD 3 <;> cases f.getLsbD 4 <;> simp

/-! ## What each form of command accepts -/

theorem plainForm_eq_ok {k : Nat} {j : Instr} :
    plainForm k (cmdWord op fl imm) i = .ok j ↔ fl >>> k = 0#8 ∧ imm = 0#16 ∧ i = j := by
  simp only [plainForm, flField_cmdWord, immField_cmdWord]
  split_ifs <;> simp_all

theorem plainForm_zero_eq_ok {j : Instr} :
    plainForm 0 (cmdWord op fl imm) i = .ok j ↔ fl = 0#8 ∧ imm = 0#16 ∧ i = j := by
  rw [plainForm_eq_ok, BitVec.ushiftRight_zero]

theorem decodeCfg_eq_ok :
    decodeCfg (cmdWord op fl imm) = .ok i ↔ fl >>> 2 = 0#8 ∧ .cfg imm (fl.getLsbD 0) (fl.getLsbD 1) = i := by
  simp only [decodeCfg, flField_cmdWord, immField_cmdWord]
  split_ifs <;> simp_all

theorem decodeZcgen_eq_ok : decodeZcgen (cmdWord op fl imm) = .ok i ↔ imm ≠ 0#16 ∧ .zcgen fl imm = i := by
  simp only [decodeZcgen, flField_cmdWord, immField_cmdWord]
  split_ifs <;> simp_all

theorem decodePssgen_eq_ok : decodePssgen (cmdWord op fl imm) = .ok i ↔ imm = 0#16 ∧ .pssgen fl = i := by
  simp only [decodePssgen, flField_cmdWord, immField_cmdWord]
  split_ifs <;> simp_all

theorem decodeDemod_eq_ok :
    decodeDemod (cmdWord op fl imm) = .ok i ↔
      fl.getLsbD 7 = false ∧ imm = 0#16 ∧ (demodOfFlags fl).WellFormed ∧ demodOfFlags fl = i := by
  rw [demodOfFlags_wellFormed]
  simp only [decodeDemod, flField_cmdWord, immField_cmdWord, demodOfFlags]
  split_ifs <;> simp_all

/-! ## The fields of legal words, and their commands -/

/-- `LegalForm op fl imm i`: the word of these fields is legal (30_encoding.md R84) and stands for the command `i`; one
constructor per row of R81. -/
inductive LegalForm : Octet → Octet → Half → Instr → Prop
  | cfg {fl : Octet} {imm : Half} (hfl : fl >>> 2 = 0#8) :
      LegalForm 0x01#8 fl imm (.cfg imm (fl.getLsbD 0) (fl.getLsbD 1))
  | zcgen {fl : Octet} {imm : Half} (himm : imm ≠ 0#16) : LegalForm 0x02#8 fl imm (.zcgen fl imm)
  | pssgen {fl : Octet} : LegalForm 0x03#8 fl 0#16 (.pssgen fl)
  | mod {fl : Octet} (hfl : fl >>> 1 = 0#8) : LegalForm 0x04#8 fl 0#16 (.mod (fl.getLsbD 0))
  | synccp : LegalForm 0x05#8 0#8 0#16 .synccp
  | syncpss {fl : Octet} (hfl : fl >>> 1 = 0#8) : LegalForm 0x06#8 fl 0#16 (.syncpss (fl.getLsbD 0))
  | cfoest : LegalForm 0x07#8 0#8 0#16 .cfoest
  | cforot : LegalForm 0x08#8 0#8 0#16 .cforot
  | cfocorr : LegalForm 0x09#8 0#8 0#16 .cfocorr
  | demod {fl : Octet} (hfl : fl.getLsbD 7 = false) (hwf : (demodOfFlags fl).WellFormed) :
      LegalForm 0x0A#8 fl 0#16 (demodOfFlags fl)

theorem LegalForm.decode_cmdWord (h : LegalForm op fl imm i) : decode (cmdWord op fl imm) = .ok i := by
  unfold decode
  rw [opField_cmdWord]
  cases h with
  | cfg hfl => exact decodeCfg_eq_ok.mpr ⟨hfl, rfl⟩
  | zcgen himm => exact decodeZcgen_eq_ok.mpr ⟨himm, rfl⟩
  | pssgen => exact decodePssgen_eq_ok.mpr ⟨rfl, rfl⟩
  | mod hfl | syncpss hfl => simpa using plainForm_eq_ok.mpr ⟨hfl, rfl, rfl⟩
  | synccp | cfoest | cforot | cfocorr => exact plainForm_zero_eq_ok.mpr ⟨rfl, rfl, rfl⟩
  | demod hfl hwf => exact decodeDemod_eq_ok.mpr ⟨hfl, rfl, hwf, rfl⟩

theorem legalForm_of_decode_cmdWord (h : decode (cmdWord op fl imm) = .ok i) : LegalForm op fl imm i := by
  simp only [decode, opField_cmdWord, flField_cmdWord] at h
  rw [← BitVec.setWidth_eq op, ← BitVec.ofNat_toNat]
  generalize op.toNat = n at h ⊢
  split at h
  case h_1 => obtain ⟨hfl, rfl⟩ := decodeCfg_eq_ok.mp h; exact .cfg hfl
  case h_2 => obtain ⟨himm, rfl⟩ := decodeZcgen_eq_ok.mp h; exact .zcgen himm
  case h_3 => obtain ⟨rfl, rfl⟩ := decodePssgen_eq_ok.mp h; exact .pssgen
  case h_4 => obtain ⟨hfl, rfl, rfl⟩ := plainForm_eq_ok.mp h; exact .mod hfl
  case h_5 => obtain ⟨rfl, rfl, rfl⟩ := plainForm_zero_eq_ok.mp h; exact .synccp
  case h_6 => obtain ⟨hfl, rfl, rfl⟩ := plainForm_eq_ok.mp h; exact .syncpss hfl
  case h_7 => obtain ⟨rfl, rfl, rfl⟩ := plainForm_zero_eq_ok.mp h; exact .cfoest
  case h_8 => obtain ⟨rfl, rfl, rfl⟩ := plainForm_zero_eq_ok.mp h; exact .cforot
  case h_9 => obtain ⟨rfl, rfl, rfl⟩ := plainForm_zero_eq_ok.mp h; exact .cfocorr
  case h_10 => obtain ⟨hfl, rfl, hwf, rfl⟩ := decodeDemod_eq_ok.mp h; exact .demod hfl hwf
  case h_11 => nomatch h

/-! ## Decode of encode -/

/-- A well-formed command has a word of legal fields that stand for it. -/
theorem legalForm_of_wellFormed (h : i.WellFormed) : ∃ op fl imm, encode i = cmdWord op fl imm ∧ LegalForm op fl imm i := by
  cases i with
  | cfg n ug up => exact ⟨_, _, _, rfl, by cases ug <;> cases up <;> exact .cfg (by decide)⟩
  | zcgen u n => exact ⟨_, _, _, rfl, .zcgen (bne_iff_ne.mp h)⟩
  | pssgen u => exact ⟨_, _, _, rfl, .pssgen⟩
  | mod flat => exact ⟨_, _, _, rfl, by cases flat <;> exact .mod (by decide)⟩
  | synccp => exact ⟨_, _, _, rfl, .synccp⟩
  | syncpss th => exact ⟨_, _, _, rfl, by cases th <;> exact .syncpss (by decide)⟩
  | cfoest => exact ⟨_, _, _, rfl, .cfoest⟩
  | cforot => exact ⟨_, _, _, rfl, .cforot⟩
  | cfocorr => exact ⟨_, _, _, rfl, .cfocorr⟩
  | demod sub xs eq aq ps sk orj =>
    rw [← demodOfFlags_flags8] at h ⊢
    have hfl : (flags8 false orj sk ps aq eq xs sub).getLsbD 7 = false := flags8_getLsbD _ _ _ _ _ _ _ _ 7 (by omega)
    exact ⟨_, _, _, encode_demodOfFlags hfl, .demod hfl h⟩

/-- Settles O9: the word of a well-formed command has legal fields, and the decoder reads the command from them. -/
theorem decodeOfEncodeIsIdentity : Obligations.DecodeOfEncodeIsIdentity := by
  intro i h
  obtain ⟨op, fl, imm, hw, hform⟩ := legalForm_of_wellFormed h
  rw [hw, hform.decode_cmdWord]

/-! ## Encode of decode -/

theorem LegalForm.encode_eq (h : LegalForm op fl imm i) : encode i = cmdWord op fl imm := by
  cases h with
  | cfg hfl => rw [encode, flags8_of_two_bits hfl]
  | mod hfl | syncpss hfl => rw [encode, flags8_of_one_bit hfl]
  | demod hfl hwf => exact encode_demodOfFlags hfl
  | zcgen | pssgen | synccp | cfoest | cforot | cfocorr => rfl

theorem LegalForm.wellFormed (h : LegalForm op fl imm i) : i.WellFormed := by
  cases h with
  | zcgen himm => exact bne_iff_ne.mpr himm
  | demod hfl hwf => exact hwf
  | cfg | pssgen | mod | synccp | syncpss | cfoest | cforot | cfocorr => rfl

/-- The decoder by the fields of the word. -/
theorem decode_eq_ok_iff : decode w = .ok i ↔ LegalForm (opField w) (flField w) (immField w) i := by
  conv_lhs => rw [← cmdWord_fields w]
  exact ⟨legalForm_of_decode_cmdWord, LegalForm.decode_cmdWord⟩

/-- Settles O10: the fields of a decoded word are legal, they are those of the word of the command, and they are all of it. -/
theorem encodeOfDecodeIsIdentity : Obligations.EncodeOfDecodeIsIdentity := by
  intro w i h
  have hform := decode_eq_ok_iff.mp h
  exact ⟨hform.encode_eq.trans (cmdWord_fields w), hform.wellFormed⟩

/-! ## Which words are legal -/

/-- Which fields are legal (30_encoding.md R84). -/
theorem exists_legalForm_iff :
    (∃ i, LegalForm op fl imm i) ↔
      (op = 1#8 ∧ fl >>> 2 = 0#8) ∨ (op = 2#8 ∧ imm ≠ 0#16) ∨ (op = 3#8 ∧ imm = 0#16) ∨
      ((op = 4#8 ∨ op = 6#8) ∧ fl >>> 1 = 0#8 ∧ imm = 0#16) ∨
      ((op = 5#8 ∨ op = 7#8 ∨ op = 8#8 ∨ op = 9#8) ∧ fl = 0#8 ∧ imm = 0#16) ∨
      (op = 10#8 ∧ fl.getLsbD 7 = false ∧ imm = 0#16 ∧ (demodOfFlags fl).WellFormed) := by
  constructor
  · rintro ⟨i, h⟩
    cases h with
    | cfg hfl | mod hfl | syncpss hfl => simp [hfl]
    | zcgen himm => simp [himm]
    | pssgen | synccp | cfoest | cforot | cfocorr => simp
    | demod hfl hwf => exact .inr (.inr (.inr (.inr (.inr ⟨rfl, hfl, rfl, hwf⟩))))
  · rintro (⟨rfl, hfl⟩ | ⟨rfl, himm⟩ | ⟨rfl, rfl⟩ | ⟨rfl | rfl, hfl, rfl⟩ | ⟨rfl | rfl | rfl | rfl, rfl, rfl⟩ |
      ⟨rfl, hfl, rfl, hwf⟩)
    exacts [⟨_, .cfg hfl⟩, ⟨_, .zcgen himm⟩, ⟨_, .pssgen⟩, ⟨_, .mod hfl⟩, ⟨_, .syncpss hfl⟩, ⟨_, .synccp⟩, ⟨_, .cfoest⟩,
      ⟨_, .cforot⟩, ⟨_, .cfocorr⟩, ⟨_, .demod hfl hwf⟩]

/-- Settles O8: the conditions on the fields, read as numbers of the word's bits. -/
theorem legalWordsCharacterised : Obligations.LegalWordsCharacterised := by
  intro w op fl imm
  simp only [decode_eq_ok_iff, exists_legalForm_iff, ushiftRight_eq_zero_iff, getLsbD_seven_eq_false_iff,
    demodOfFlags_wellFormed]
  simp only [ne_eq, ← BitVec.testBit_toNat, ← BitVec.toNat_inj, opField_toNat, flField_toNat, immField_toNat]
  rfl

/-! ## Words written out -/

theorem decode_of_encode_eq (h : i.WellFormed) (hw : encode i = w) : decode w = .ok i :=
  hw ▸ decodeOfEncodeIsIdentity i h

/-- Settles O7: each word is that of its command, which the decoder gives back. -/
theorem specWordsDecode : Obligations.SpecWordsDecode := by
  refine ⟨?_, ?_, ?_, ?_, ?_, ?_, ?_, ?_, ?_, ?_, ?_, ?_⟩ <;> exact decode_of_encode_eq (by decide) (by decide)

end Sys2Proof
end

section
/-! PROOFS. The step of a command word (30_encoding.md R89). -/

namespace Sys2Proof.Machine

open Sys2Proof

/-- Settles O3: the step issues the word, and `issue` is one of its three cases. -/
theorem stepRunsDecodedCommand : Obligations.StepRunsDecodedCommand := by
  intro s w rest h
  have hstep : step s = issue w (s.issued rest) := step_cmd h
  refine ⟨fun herr => ?_, fun herr e hd => ?_, fun herr i hd => ?_⟩
  · exact hstep.trans (issue_of_err herr)
  · exact hstep.trans (issue_of_illegal herr hd)
  · exact hstep.trans (issue_of_legal herr hd)

end Sys2Proof.Machine
end

section
/-! PROOFS. `CFG`: its checks one by one in the order of R226, what a fault and a completion leave, and the pilot indices by
position (40_grid_parameters.md R100 to R112). -/

namespace Sys2Proof.Machine

open Sys2Proof

variable {s : State} {n : Half} {ug up : Bool} {cap m g pc lo hi c : Nat}

/-! ## The pilot indices by position -/

/-- For a tabulated list, rising means rising from each position to the next. -/
theorem tabulate_pairwise_lt_iff (n : Nat) (f : Nat → Nat) :
    (tabulate n f).Pairwise (· < ·) ↔ ∀ k, k + 1 < n → f k < f (k + 1) := by
  rw [← List.isChain_iff_pairwise, tabulate, List.isChain_map, List.isChain_range]
  exact forall_congr' fun k => by rw [Nat.lt_sub_iff_add_lt]

/-- The invariant of R107, index by index. -/
theorem pilotsValid_pilotList_iff :
    pilotsValid lo hi c (pilotList lo hi c pc) = true ↔
      (∀ k, k + 1 < pc → pilotIndex lo hi c pc k < pilotIndex lo hi c pc (k + 1)) ∧
        ∀ k, k < pc → pilotIndex lo hi c pc k ≠ c ∧ lo ≤ pilotIndex lo hi c pc k ∧ pilotIndex lo hi c pc k ≤ hi := by
  rw [pilotsValid_iff, pilotList, tabulate_pairwise_lt_iff]
  simp only [tabulate, List.forall_mem_map, List.mem_range]

/-- The last position written as R106 (b) writes it. -/
theorem pilotIndex_eq (hpc : 1 ≤ pc) (k : Nat) :
    pilotIndex lo hi c pc k = if k = pc - 1 then hi else nudge c (pilotSpaced lo hi pc k) :=
  if_congr (by omega) rfl rfl

theorem pilotList_getD {k : Nat} (hk : k < pc) : (pilotList lo hi c pc).getD k 0 = pilotIndex lo hi c pc k := by
  rw [List.getD_eq_getElem?_getD, pilotList, tabulate_getElem?, if_pos hk, Option.getD_some]

/-! ## The operands -/

theorem fftSet_contains_iff : Config.fftSet.contains m = true ↔ m ∈ [64, 128, 256, 512, 1024, 2048] :=
  List.contains_iff_mem

theorem cfgGuard_lt (h : m ∈ Config.fftSet) : s.cfgGuard m ug < 4294967296 := by
  have htable : ∀ m ∈ Config.fftSet, guardOf m < 4294967296 := by decide
  cases ug
  · exact htable m h
  · exact s.guardOvr.isLt

theorem cfgCount_lt (n : Half) : s.cfgCount n.toNat up < 4294967296 := by
  cases up
  · exact (Nat.div_le_self _ _).trans_lt (n.isLt.trans (by decide))
  · exact s.pilotOvr.isLt

/-! ## The checks, in their order (60_exceptions.md R226) -/

theorem cfgFault_of_size (h : Config.fftSet.contains m = false) : cfgFault cap m g pc = some (.configError, m) := by
  rw [cfgFault, if_pos (by rw [h]; rfl)]

/-- With a legal size the first check passes. -/
theorem cfgFault_of_legal_size (h : Config.fftSet.contains m = true) :
    cfgFault cap m g pc =
      if pc < 2 then some (.configError, pc)
      else if g / 2 < 1 ∨ m / 2 ≤ g / 2 then some (.configError, g)
      else if cap < pc then some (.bufferCapacity, pc)
      else if !pilotsValid (g / 2) (m - g / 2) (m / 2) (pilotList (g / 2) (m - g / 2) (m / 2) pc) then
        some (.configError, pc)
      else none := by
  rw [cfgFault, if_neg (by rw [h]; decide)]

theorem cfgFault_of_count (h : Config.fftSet.contains m = true) (hpc : pc < 2) :
    cfgFault cap m g pc = some (.configError, pc) := by
  rw [cfgFault_of_legal_size h, if_pos hpc]

theorem cfgFault_of_guard (h : Config.fftSet.contains m = true) (hpc : 2 ≤ pc) (hg : g / 2 < 1 ∨ m / 2 ≤ g / 2) :
    cfgFault cap m g pc = some (.configError, g) := by
  rw [cfgFault_of_legal_size h, if_neg (by omega), if_pos hg]

theorem cfgFault_of_room (h : Config.fftSet.contains m = true) (hpc : 2 ≤ pc) (hlow : 1 ≤ g / 2) (hedge : g / 2 < m / 2)
    (hcap : cap < pc) : cfgFault cap m g pc = some (.bufferCapacity, pc) := by
  rw [cfgFault_of_legal_size h, if_neg (by omega), if_neg (by omega), if_pos hcap]

theorem cfgFault_of_pilots (h : Config.fftSet.contains m = true) (hpc : 2 ≤ pc) (hlow : 1 ≤ g / 2) (hedge : g / 2 < m / 2)
    (hcap : pc ≤ cap)
    (hp : ¬ pilotsValid (g / 2) (m - g / 2) (m / 2) (pilotList (g / 2) (m - g / 2) (m / 2) pc) = true) :
    cfgFault cap m g pc = some (.configError, pc) := by
  rw [cfgFault_of_legal_size h, if_neg (by omega), if_neg (by omega), if_neg (by omega), if_pos (by simpa using hp)]

/-! ## The command -/

theorem exec_cfg_of_fault {cause : Cause} {v : Nat} (hv : v < 4294967296)
    (h : cfgFault s.params.capPil n.toNat (s.cfgGuard n.toNat ug) (s.cfgCount n.toNat up) = some (cause, v)) :
    exec (.cfg n ug up) s = .next (s.raise cause (Word.ofNat v)) := by
  simp only [exec, execCfg, h, State.fail, infoOf_of_lt hv]

theorem exec_cfg_of_none (hg : s.cfgGuard n.toNat ug = g) (hpc : s.cfgCount n.toNat up = pc)
    (h : cfgFault s.params.capPil n.toNat g pc = none) :
    exec (.cfg n ug up) s =
      .next (s.writeGrid n.toNat g pc (pilotList (g / 2) (n.toNat - g / 2) (n.toNat / 2) pc)) := by
  simp only [exec, execCfg, hg, hpc, h]

/-- Settles O21: the first check of `CFG` is the size, and a fault changes nothing but the fault registers. -/
theorem cfgRejectsUnknownSize : Obligations.CfgRejectsUnknownSize := by
  intro n ug up s hn
  have hsize : Config.fftSet.contains n.toNat = false := by rwa [← Bool.not_eq_true, fftSet_contains_iff]
  have hlt : n.toNat < 4294967296 := n.isLt.trans (by decide)
  refine ⟨_, exec_cfg_of_fault hlt (cfgFault_of_size hsize), State.raise_err _ _, fun i hi => ?_, rfl, ?_, raise_frame s _ _⟩
  · rw [State.raise_status, setErr_getLsbD, decide_eq_false hi, Bool.or_false]
  · rw [Word.ofNat, BitVec.ofNat_toNat]
    rfl

/-- Settles O22: each clause is one check that fails after those before it have passed. -/
theorem cfgChecksInOrder : Obligations.CfgChecksInOrder := by
  intro n ug up s hn
  have hsize := fftSet_contains_iff.mpr hn
  have hcount : s.cfgCount n.toNat up < 4294967296 := cfgCount_lt n
  refine ⟨fun hpc => ?_, fun hpc hg => ?_, fun hpc hlow hedge hcap => ?_, fun hpc hlow hedge hcap p hp hbad => ?_⟩
  · exact exec_cfg_of_fault hcount (cfgFault_of_count hsize hpc)
  · exact exec_cfg_of_fault (cfgGuard_lt hn) (cfgFault_of_guard hsize hpc hg)
  · exact exec_cfg_of_fault hcount (cfgFault_of_room hsize hpc hlow hedge hcap)
  · refine exec_cfg_of_fault hcount (cfgFault_of_pilots hsize hpc hlow hedge hcap fun hvalid => ?_)
    obtain ⟨hrising, hrange⟩ := pilotsValid_pilotList_iff.mp hvalid
    have hp : ∀ k, p k = pilotIndex _ _ _ _ k := fun k => (hp k).trans (pilotIndex_eq (by omega) k).symm
    obtain ⟨k, hk, hle⟩ | ⟨k, hk, hout⟩ := hbad
    · have := hrising k hk
      rw [hp, hp] at hle
      omega
    · have := hrange k hk
      rw [hp] at hout
      omega

/-! ## The record it writes -/

theorem writeGrid_sizeN {l : List Nat} (h : m < 4294967296) : (s.writeGrid m g pc l).sizeN = m :=
  Word.toNat_ofNat_of_lt h

theorem writeGrid_sizeCP {l : List Nat} (h : m < 4294967296) : (s.writeGrid m g pc l).sizeCP = m / 4 :=
  Word.toNat_ofNat_of_lt (by omega)

theorem writeGrid_guardLen {l : List Nat} (h : g < 4294967296) : (s.writeGrid m g pc l).grid.guardLen.toNat = g :=
  Word.toNat_ofNat_of_lt h

theorem writeGrid_sizePC {l : List Nat} (h : pc < 4294967296) : (s.writeGrid m g pc l).sizePC = pc :=
  Word.toNat_ofNat_of_lt h

theorem writeGrid_nActive {l : List Nat} (h : m < 4294967296) :
    (s.writeGrid m g pc l).grid.nActive.toNat = m - g / 2 - g / 2 :=
  Word.toNat_ofNat_of_lt (by omega)

theorem writeGrid_sizeND {l : List Nat} (h : m < 4294967296) :
    (s.writeGrid m g pc l).sizeND = m - g / 2 - g / 2 - pc :=
  Word.toNat_ofNat_of_lt (by omega)

theorem writeGrid_pssCorr {l : List Nat} (h : m < 4294967296) : (s.writeGrid m g pc l).pssCorr.toNat = m / 4 :=
  Word.toNat_ofNat_of_lt (by omega)

/-- `PIL` of the record written holds the pilot indices. -/
theorem writeGrid_holds_pilots (hpc : pc < 4294967296) (hcap : pc ≤ s.params.capPil) :
    Holds (s.writeGrid m g pc (pilotList lo hi c pc)) .pil pc fun k => .nat (pilotIndex lo hi c pc k) := by
  obtain ⟨hlen, hread⟩ := writeGrid_holds (s := s) (n := m) (g := g) (pilotList_length lo hi c pc) hpc hcap
  refine ⟨hlen, fun k => (hread k).trans (ite_congr rfl (fun hk => ?_) fun _ => rfl)⟩
  exact congrArg (some ∘ ElemValue.nat) (pilotList_getD hk)

/-- Settles O20: no check fails, and the record is the one of `State.writeGrid`. -/
theorem cfgWritesRecord : Obligations.CfgWritesRecord := by
  intro n ug up s g pc p hg hpc hn hcount hlow hedge hcap hp hrising hrange
  have hp : ∀ k, p k = pilotIndex (g / 2) (n.toNat - g / 2) (n.toNat / 2) pc k :=
    fun k => (hp k).trans (pilotIndex_eq (by omega) k).symm
  obtain rfl : p = pilotIndex (g / 2) (n.toNat - g / 2) (n.toNat / 2) pc := funext hp
  have hguard : s.cfgGuard n.toNat ug = g := by
    rw [hg]
    refine ite_congr rfl (fun _ => rfl) fun _ => ?_
    generalize n.toNat = m at hn ⊢
    revert m
    decide
  have hpilots : s.cfgCount n.toNat up = pc := hpc.symm
  have hglt : g < 4294967296 := hguard ▸ cfgGuard_lt hn
  have hpclt : pc < 4294967296 := hpilots ▸ cfgCount_lt n
  have hnlt : n.toNat < 4294967296 := n.isLt.trans (by decide)
  have hnone : cfgFault s.params.capPil n.toNat g pc = none :=
    cfgFault_eq_none (fftSet_contains_iff.mpr hn) hcount hlow hedge hcap
      (pilotsValid_pilotList_iff.mpr ⟨hrising, hrange⟩)
  refine ⟨_, exec_cfg_of_none hguard hpilots hnone, State.writeGrid_cfgv _ _ _ _, fun i hi => ?_, writeGrid_sizeN hnlt,
    writeGrid_sizeCP hnlt, writeGrid_guardLen hglt, writeGrid_sizePC hpclt, writeGrid_nActive hnlt, writeGrid_sizeND hnlt,
    writeGrid_holds_pilots hpclt hcap, writeGrid_pssCorr hnlt, writeGrid_frame s _ _ _ _⟩
  rw [State.writeGrid_status, setCfgv_getLsbD, decide_eq_false hi, Bool.or_false]

end Sys2Proof.Machine
end

section
/-! PROOFS. The six default records (40_grid_parameters.md R113). Where the active band is at least twice as long as there are
gaps between pilots, the spacing of R105 keeps any two pilots at least 2 apart, so that the nudge off the center cannot make
two of them meet. -/

namespace Sys2Proof.Machine

open Sys2Proof

variable {s : State} {m g pc lo hi c k : Nat}

/-! ## Spread pilots are valid -/

theorem pilotSpaced_add_two_le (hpc : 2 ≤ pc) (hspread : 2 * (pc - 1) ≤ hi - lo) (k : Nat) :
    pilotSpaced lo hi pc k + 2 ≤ pilotSpaced lo hi pc (k + 1) := by
  have hstep : k * (hi - lo) / (pc - 1) + 2 ≤ (k + 1) * (hi - lo) / (pc - 1) := by
    rw [← Nat.add_mul_div_right _ _ (show 0 < pc - 1 by omega), Nat.succ_mul k]
    exact Nat.div_le_div_right (Nat.add_le_add_left hspread _)
  simp only [pilotSpaced]
  omega

theorem pilotSpaced_last (hpc : 2 ≤ pc) (hlo : lo ≤ hi) (hk : k + 1 = pc) : pilotSpaced lo hi pc k = hi := by
  obtain rfl : k = pc - 1 := by omega
  rw [pilotSpaced, Nat.mul_div_cancel_left _ (by omega)]
  omega

theorem pilotSpaced_le (hlo : lo ≤ hi) (hk : k < pc) : pilotSpaced lo hi pc k ≤ hi := by
  have hle : k * (hi - lo) / (pc - 1) ≤ hi - lo := Nat.div_le_of_le_mul (Nat.mul_le_mul_right _ (by omega))
  rw [pilotSpaced]
  omega

/-- The last unadjusted index is the high edge already, so with `hi` off the center every index is the nudged one. -/
theorem pilotIndex_eq_nudge (hpc : 2 ≤ pc) (hlo : lo ≤ hi) (hc : hi ≠ c) (k : Nat) :
    pilotIndex lo hi c pc k = nudge c (pilotSpaced lo hi pc k) := by
  rw [pilotIndex]
  split_ifs with hk
  · rw [pilotSpaced_last hpc hlo hk, nudge, if_neg hc]
  · rfl

theorem nudge_ne (c p : Nat) : nudge c p ≠ c := by rw [nudge]; split_ifs <;> omega

theorem le_nudge (c p : Nat) : p ≤ nudge c p := by rw [nudge]; split_ifs <;> omega

theorem nudge_le_succ (c p : Nat) : nudge c p ≤ p + 1 := by rw [nudge]; split_ifs <;> omega

theorem nudge_le {p : Nat} (hp : p ≤ hi) (hc : c < hi) : nudge c p ≤ hi := by rw [nudge]; split_ifs <;> omega

/-- Pilots spread at least 2 apart satisfy the invariant of R107. -/
theorem pilotsValid_of_spread (hpc : 2 ≤ pc) (hlo : lo ≤ hi) (hc : c < hi) (hspread : 2 * (pc - 1) ≤ hi - lo) :
    pilotsValid lo hi c (pilotList lo hi c pc) = true := by
  have heq := pilotIndex_eq_nudge hpc hlo hc.ne'
  rw [pilotsValid_pilotList_iff]
  refine ⟨fun k _ => ?_, fun k hk => ?_⟩ <;> simp only [heq]
  · calc
      nudge c (pilotSpaced lo hi pc k) ≤ pilotSpaced lo hi pc k + 1 := nudge_le_succ _ _
      _ < pilotSpaced lo hi pc (k + 1) := pilotSpaced_add_two_le hpc hspread k
      _ ≤ nudge c (pilotSpaced lo hi pc (k + 1)) := le_nudge _ _
  · exact ⟨nudge_ne _ _, (Nat.le_add_right _ _).trans (le_nudge _ _), nudge_le (pilotSpaced_le hlo hk) hc⟩

/-! ## The defaults -/

/-- The default guard length and pilot count of every size pass the checks of `CFG`, with the pilots spread, and fit the least
capacity of `PIL`. -/
theorem default_operands : ∀ m ∈ Config.fftSet,
    m < 2 ^ 16 ∧ 2 ≤ m / 10 ∧ m / 10 ≤ 204 ∧ 1 ≤ guardOf m / 2 ∧ guardOf m / 2 < m / 2 ∧ m / 2 < m - guardOf m / 2 ∧
      2 * (m / 10 - 1) ≤ m - guardOf m / 2 - guardOf m / 2 := by
  decide

theorem cfgFault_default (hm : m ∈ Config.fftSet) (hcap : 204 ≤ s.params.capPil) :
    cfgFault s.params.capPil m (guardOf m) (m / 10) = none := by
  obtain ⟨-, hcount, hroom, hlow, hedge, hcenter, hspread⟩ := default_operands m hm
  exact cfgFault_eq_none (fftSet_contains_iff.mpr hm) hcount hlow hedge (hroom.trans hcap)
    (pilotsValid_of_spread hcount (by omega) hcenter hspread)

/-- The pilot list of a default record. -/
def defaultPilots (m : Nat) : List Nat := pilotList (guardOf m / 2) (m - guardOf m / 2) (m / 2) (m / 10)

/-- The state a default `CFG` leaves. -/
def State.defaultGrid (s : State) (m : Nat) : State := s.writeGrid m (guardOf m) (m / 10) (defaultPilots m)

/-- A default `CFG` of a legal size completes. -/
theorem exec_cfg_default {n : Half} (hn : n.toNat ∈ Config.fftSet) (hcap : 204 ≤ s.params.capPil) :
    exec (.cfg n false false) s = .next (s.defaultGrid n.toNat) :=
  exec_cfg_of_none rfl rfl (cfgFault_default hn hcap)

/-- A row of R113: `n`, `CP`, `G`, `LO`, `HI`, `C`, `PC`, `NACTIVE`, `NDATA`, `P`. -/
def defaultRow (m : Nat) : Nat × Nat × Nat × Nat × Nat × Nat × Nat × Nat × Nat × Nat :=
  let lo := guardOf m / 2
  (m, m / 4, guardOf m, lo, m - lo, m / 2, m / 10, m - lo - lo, m - lo - lo - m / 10, m + m / 4)

/-- The default record reads as its row of R113. -/
theorem defaultGrid_row (hm : m < 4294967296) (hg : guardOf m < 4294967296) :
    ((s.defaultGrid m).sizeN, (s.defaultGrid m).sizeCP, (s.defaultGrid m).grid.guardLen.toNat, (s.defaultGrid m).edgeLo,
      (s.defaultGrid m).edgeHi, (s.defaultGrid m).center, (s.defaultGrid m).sizePC,
      (s.defaultGrid m).grid.nActive.toNat, (s.defaultGrid m).sizeND, (s.defaultGrid m).period) = defaultRow m := by
  simp only [State.defaultGrid, State.edgeLo, State.edgeHi, State.center, State.period, writeGrid_sizeN hm,
    writeGrid_sizeCP hm, writeGrid_guardLen hg, writeGrid_sizePC (show m / 10 < 4294967296 by omega),
    writeGrid_nActive hm, writeGrid_sizeND hm, defaultRow]

/-- The pilots of the record in force are what `CFG` wrote. -/
theorem writeGrid_pilots {l : List Nat} (hl : l.length = pc) (hpc : pc < 4294967296) : (s.writeGrid m g pc l).pilots = l := by
  refine List.ext_getElem? fun k => ?_
  rw [State.pilots, writeGrid_sizePC hpc, tabulate_getElem?]
  split_ifs with hk
  · simp [State.pilAt, List.getElem?_eq_getElem (hl ▸ hk)]
  · exact (List.getElem?_eq_none (by omega)).symm

theorem defaultGrid_pilots (hm : m < 4294967296) : (s.defaultGrid m).pilots = defaultPilots m :=
  writeGrid_pilots (pilotList_length _ _ _ _) (by omega)

/-- Settles O23: a default `CFG` completes because its pilots are spread, and its row and its pilots are computed. -/
theorem cfgDefaultGeometries : Obligations.CfgDefaultGeometries := by
  intro s hcap row hrow
  obtain ⟨m, hm, rfl⟩ := List.mem_map.mp (show row ∈ Config.fftSet.map defaultRow from hrow)
  obtain ⟨hlt, -, -, -, hedge, -⟩ := default_operands m hm
  have hn : (BitVec.ofNat 16 m).toNat = m := by rw [BitVec.toNat_ofNat, Nat.mod_eq_of_lt hlt]
  have hexec : exec (.cfg (BitVec.ofNat 16 m) false false) s = .next (s.defaultGrid m) := by
    rw [exec_cfg_default (by rwa [hn]) hcap, hn]
  refine ⟨s.defaultGrid m, hexec, State.writeGrid_cfgv _ _ _ _, defaultGrid_row (by omega) (by omega), ?_⟩
  rw [defaultGrid_pilots (by omega)]
  refine ⟨?_, ?_, ?_⟩ <;> rintro rfl <;> decide

end Sys2Proof.Machine
end

section
/-! PROOFS. The index sets of a valid record and the row positions of carriers and pilots (40_grid_parameters.md R108, R109). -/

namespace Sys2Proof.Machine

open Sys2Proof

variable {s : State} {lo hi c k : Nat}

/-! ## The active set -/

theorem mem_activeSet : k ∈ activeSet lo hi c ↔ lo ≤ k ∧ k ≤ hi ∧ k ≠ c := by
  simp only [activeSet, List.mem_filter, List.mem_range, Bool.and_eq_true, decide_eq_true_eq]
  omega

theorem activeSet_pairwise (lo hi c : Nat) : (activeSet lo hi c).Pairwise (· < ·) := List.pairwise_lt_range.filter _

/-- `A` is the carriers below the center, then those above it. -/
theorem activeSet_eq_append (hlo : lo < c) (hhi : c < hi) :
    activeSet lo hi c = List.range' lo (c - lo) ++ List.range' (c + 1) (hi - c) := by
  have hrising : (List.range' lo (c - lo) ++ List.range' (c + 1) (hi - c)).Pairwise (· < ·) := by
    refine List.pairwise_append.mpr ⟨List.pairwise_lt_range', List.pairwise_lt_range', ?_⟩
    simp only [List.mem_range'_1]
    omega
  refine (activeSet_pairwise lo hi c).eq_of_mem_iff hrising fun k => ?_
  simp only [mem_activeSet, List.mem_append, List.mem_range'_1]
  omega

theorem activeSet_length (hlo : lo < c) (hhi : c < hi) : (activeSet lo hi c).length = hi - lo := by
  rw [activeSet_eq_append hlo hhi, List.length_append, List.length_range', List.length_range']
  omega

/-- `posA(k)` is the position of `k` in `A`: one less above the center, which `A` leaves out. -/
theorem activeSet_getElem?_rowPos (hlo : lo < c) (hhi : c < hi) (hk : k ∈ activeSet lo hi c) :
    (activeSet lo hi c)[rowPos lo c k]? = some k := by
  obtain ⟨hklo, hkhi, hkc⟩ := mem_activeSet.mp hk
  rw [activeSet_eq_append hlo hhi, rowPos]
  split_ifs with habove
  · rw [List.getElem?_append_right (by rw [List.length_range']; omega), List.length_range',
      List.getElem?_range' (by omega)]
    exact congrArg some (by omega)
  · rw [List.getElem?_append_left (by rw [List.length_range']; omega), List.getElem?_range' (by omega)]
    exact congrArg some (by omega)

/-- Row positions rise along `A`. -/
theorem rowPos_lt_rowPos {j : Nat} (hj : j ≠ c) (hlo : lo ≤ j) (hlc : lo < c) (hk : k ≠ c) (hjk : j < k) :
    rowPos lo c j < rowPos lo c k := by
  simp only [rowPos]
  split_ifs <;> omega

theorem rowPos_lo : rowPos lo c lo = 0 := by
  rw [rowPos, Nat.sub_self, Nat.zero_sub]

theorem rowPos_hi (hhi : c < hi) : rowPos lo c hi = hi - lo - 1 := by
  rw [rowPos, if_pos hhi]

/-! ## The data-only set -/

/-- The pilots are those members of `A` that are in the pilot list. -/
theorem filter_activeSet_contains {p : List Nat} (hp : p.Pairwise (· < ·)) (hsub : ∀ k ∈ p, k ∈ activeSet lo hi c) :
    (activeSet lo hi c).filter p.contains = p := by
  refine ((activeSet_pairwise lo hi c).filter _).eq_of_mem_iff hp fun k => ?_
  rw [List.mem_filter, List.contains_iff_mem]
  exact and_iff_right_of_imp (hsub k)

theorem dataSet_length {p : List Nat} (hp : p.Pairwise (· < ·)) (hsub : ∀ k ∈ p, k ∈ activeSet lo hi c) :
    (dataSet lo hi c p).length = (activeSet lo hi c).length - p.length := by
  have hsplit := List.length_eq_length_filter_add (l := activeSet lo hi c) p.contains
  rw [filter_activeSet_contains hp hsub] at hsplit
  rw [dataSet]
  omega

theorem mem_dataSet {p : List Nat} : k ∈ dataSet lo hi c p ↔ k ∈ activeSet lo hi c ∧ k ∉ p := by
  simp [dataSet]

/-! ## The sets of a valid record -/

/-- The edges lie on both sides of the center: `HI` is as far above it as `LO` is below it (R105). -/
theorem State.GridValid.center_lt_edgeHi (h : s.GridValid) : s.center < s.edgeHi := by
  obtain ⟨-, -, hfour⟩ := h.sizes
  have hedge := h.edge
  simp only [State.edgeLo, State.center, State.edgeHi] at hedge ⊢
  omega

theorem State.mem_pilots : k ∈ s.pilots ↔ ∃ i, i < s.sizePC ∧ s.pilAt i = k := by
  simp [State.pilots, tabulate]

theorem State.pilots_length (s : State) : s.pilots.length = s.sizePC := tabulate_length _ _

theorem State.GridValid.pilots_active (h : s.GridValid) : ∀ k ∈ s.pilots, k ∈ s.setA := by
  obtain ⟨-, hrange⟩ := h.pilots_valid
  intro k hk
  obtain ⟨hcenter, hlo, hhi⟩ := hrange k hk
  exact mem_activeSet.mpr ⟨hlo, hhi, hcenter⟩

/-- Settles O25: `A` is two runs around the center, and `D` leaves out a sublist of it. -/
theorem activeCarrierSets : Obligations.ActiveCarrierSets := by
  intro s h
  obtain ⟨hrising, -⟩ := h.pilots_valid
  have hlength : s.setA.length = s.edgeHi - s.edgeLo := activeSet_length h.edge h.center_lt_edgeHi
  refine ⟨activeSet_pairwise _ _ _, fun k => mem_activeSet, (activeSet_pairwise _ _ _).filter _, fun k => ?_, ?_, ?_⟩
  · rw [State.setD, mem_dataSet, State.mem_pilots]
    simp only [State.setA, not_exists, not_and, ne_eq]
  · rw [hlength, h.active]
  · rw [State.setD, dataSet_length hrising h.pilots_active, ← State.setA, hlength, State.pilots_length, h.data]

/-- Settles O26: row positions rise along `A`, and the end pilots are the edges. -/
theorem pilotRowPositions : Obligations.PilotRowPositions := by
  intro s h
  obtain ⟨hrising, hrange⟩ := h.pilots_valid
  obtain ⟨-, -, -, -, hfirst, hlast⟩ := pilotIndicesOfValidRecord s h
  have hcount := h.count
  refine ⟨fun k => activeSet_getElem?_rowPos h.edge h.center_lt_edgeHi, ?_, ?_, ?_⟩
  · refine List.pairwise_map.mpr (hrising.imp_of_mem fun {j k} hj hk hjk => ?_)
    obtain ⟨hjc, hjlo, -⟩ := hrange j hj
    obtain ⟨hkc, -, -⟩ := hrange k hk
    exact rowPos_lt_rowPos hjc hjlo h.edge hkc hjk
  · rw [State.pilotPos, List.head?_map, List.head?_eq_getElem?, s.pilots_getElem? (by omega), hfirst, Option.map_some,
      rowPos_lo]
  · rw [State.pilotPos, List.getLast?_map, List.getLast?_eq_getElem?, State.pilots_length, s.pilots_getElem? (by omega),
      hlast, Option.map_some, rowPos_hi h.center_lt_edgeHi, h.active]

end Sys2Proof.Machine
end

section
/-! PROOFS. `ZCGEN` and `PSSGEN`: the samples as complex exponentials, what the two commands leave, and where `SYNCROW` places
the samples (41_sync_sequence.md R120 to R124). -/

namespace Sys2Proof.Machine

open Sys2Proof

variable {s : State} {u : Octet} {n : Half}

/-! ## The samples (41_sync_sequence.md R120) -/

/-- The formula of R120, for every index. -/
theorem zc_val (ρ : Nat → ℝ) (u len n : Nat) :
    (zc u len n).val ρ = Complex.exp (-(Complex.I * Real.pi * u * n * (n + 1) / len)) := by
  rw [zc, Cplx.val_cisPi]
  congr 1
  push_cast
  ring

theorem norm_zc (ρ : Nat → ℝ) (u len n : Nat) : ‖(zc u len n).val ρ‖ = 1 := by
  rw [zc, Cplx.val_cisPi, Complex.norm_exp_ofReal_mul_I]

theorem zc_val_zero (ρ : Nat → ℝ) (u len : Nat) : (zc u len 0).val ρ = 1 := by
  simp [zc_val]

/-- Adding `2N·k` to the product turns the angle by `k` whole turns. -/
theorem val_cisPi_neg_div_add_turns (ρ : Nat → ℝ) {len : Nat} (hlen : 0 < len) (r k : Nat) :
    (Cplx.cisPi (-(((r + 2 * len * k : Nat) : Rat) / (len : Rat)))).val ρ =
      (Cplx.cisPi (-((r : Rat) / (len : Rat)))).val ρ := by
  have hne : (len : ℂ) ≠ 0 := Nat.cast_ne_zero.mpr hlen.ne'
  rw [Cplx.val_cisPi, Cplx.val_cisPi, Complex.exp_eq_exp_iff_exists_int]
  refine ⟨-k, ?_⟩
  push_cast
  field_simp
  ring

/-- A sample depends on the product `u·n·(n+1)` only modulo `2N`. -/
theorem zc_val_mod (ρ : Nat → ℝ) {len : Nat} (hlen : 0 < len) (u n : Nat) :
    (zc u len n).val ρ =
      (Cplx.cisPi (-(((u * n * (n + 1) % (2 * len) : Nat) : Rat) / (len : Rat)))).val ρ := by
  rw [← val_cisPi_neg_div_add_turns ρ hlen _ (u * n * (n + 1) / (2 * len)), Nat.mod_add_div, zc]

/-- Settles O28: a sample is `exp` of an imaginary number, and its angle counts modulo a whole turn. -/
theorem zadoffChuSamples : Obligations.ZadoffChuSamples := by
  intro ρ u len n hlen
  refine ⟨norm_zc ρ u len n, zc_val_zero ρ u len, fun v m hmod => ?_⟩
  rw [zc_val_mod ρ hlen, zc_val_mod ρ hlen, hmod]

/-! ## `PSS62` (41_sync_sequence.md R122) -/

/-- `PSS62(u)` is `ZC(u, 63)` with element 31 left out, as terms already. -/
theorem pss62_eq_zc (u n : Nat) : pss62 u n = zc u 63 (if n ≤ 30 then n else n + 1) := by
  by_cases h : n ≤ 30
  · rw [pss62, if_pos h, if_pos h]
    rfl
  · rw [pss62, if_neg h, if_neg h]
    rfl

/-- The two formulas of R122. -/
theorem pss62_val (ρ : Nat → ℝ) (u n : Nat) :
    (pss62 u n).val ρ = if n ≤ 30 then Complex.exp (-(Complex.I * Real.pi * u * n * (n + 1) / 63))
      else Complex.exp (-(Complex.I * Real.pi * u * (n + 1) * (n + 2) / 63)) := by
  rw [pss62_eq_zc, zc_val]
  by_cases h : n ≤ 30
  · rw [if_pos h, if_pos h]
    norm_num
  · rw [if_neg h, if_neg h]
    congr 1
    push_cast
    ring

/-! ## The commands (41_sync_sequence.md R121, R123) -/

/-- What a buffer holds may be written in any way that agrees below its length. -/
theorem Holds.congr {t : State} {b : BufName} {len : Nat} {f g : Nat → ElemValue} (h : Holds t b len f)
    (hfg : ∀ i, i < len → f i = g i) : Holds t b len g := by
  obtain ⟨hlen, hread⟩ := h
  exact ⟨hlen, fun i => (hread i).trans (ite_congr rfl (fun hi => congrArg some (hfg i hi)) fun _ => rfl)⟩

/-- `SEQ` holds the samples a command tabulates. -/
theorem writeSeq_tabulate_holds {len : Nat} (f : Nat → Cplx) (hlt : len < 4294967296) (hcap : len ≤ s.params.capSeq) :
    Holds (s.writeSeq (tabulate len f)) .seq len fun i => .cplx (f i) := by
  have hlen : (tabulate len f).length = len := tabulate_length len f
  have h := writeSeq_holds (s := s) (hlen.symm ▸ hlt) (hlen.symm ▸ hcap)
  rw [hlen] at h
  exact h.congr fun i hi => congrArg ElemValue.cplx (Cplx.nth_tabulate len f hi)

theorem exec_zcgen_of_lt (h : s.params.capSeq < n.toNat) :
    exec (.zcgen u n) s = .next (s.raise .bufferCapacity (n.setWidth 32)) := by
  have hinfo : infoOf n.toNat = n.setWidth 32 :=
    (infoOf_of_lt (n.isLt.trans (by decide))).trans (BitVec.ofNat_toNat 32 n)
  rw [exec, execZcgen, if_pos h, State.fail, hinfo]

theorem exec_zcgen_of_le (h : n.toNat ≤ s.params.capSeq) :
    exec (.zcgen u n) s = .next (s.writeSeq (tabulate n.toNat (zc u.toNat n.toNat))) := by
  rw [exec, execZcgen, if_neg (by omega)]

theorem exec_pssgen_of_lt (h : s.params.capSeq < 62) :
    exec (.pssgen u) s = .next (s.raise .bufferCapacity 62#32) := by
  have hinfo : infoOf 62 = 62#32 := infoOf_of_lt (by decide)
  rw [exec, execPssgen, if_pos h, State.fail, hinfo]

theorem exec_pssgen_of_le (h : 62 ≤ s.params.capSeq) :
    exec (.pssgen u) s = .next (s.writeSeq (tabulate 62 (pss62 u.toNat))) := by
  rw [exec, execPssgen, if_neg (by omega)]

/-- Settles O27: the capacity decides between the fault and `State.writeSeq` of the samples of R120. -/
theorem zcgenWritesSequence : Obligations.ZcgenWritesSequence := by
  intro u n s
  refine ⟨exec_zcgen_of_lt, fun hcap => ⟨_, zc u.toNat n.toNat, exec_zcgen_of_le hcap, ?_, writeSeq_frame s _, ?_⟩⟩
  · exact writeSeq_tabulate_holds _ (n.isLt.trans (by decide)) hcap
  · exact fun ρ i _ => zc_val ρ u.toNat n.toNat i

/-- Settles O29: as for `ZCGEN`, with the samples of R122. -/
theorem pssgenWritesSequence : Obligations.PssgenWritesSequence := by
  intro u s
  refine ⟨exec_pssgen_of_lt, fun hcap => ⟨_, pss62 u.toNat, exec_pssgen_of_le hcap, ?_, writeSeq_frame s _, ?_⟩⟩
  · exact writeSeq_tabulate_holds _ (by decide) hcap
  · exact fun ρ i _ => ⟨pss62_val ρ u.toNat i, congrArg (Cplx.val ρ) (pss62_eq_zc u.toNat i)⟩

/-! ## `SYNCROW` (41_sync_sequence.md R124) -/

section Row

variable {u c k : Nat}

theorem syncRow_below (hlo : c ≤ k + 31) (hhi : k < c) : syncRow u c k = pss62 u (k + 31 - c) := by
  rw [syncRow, if_pos ⟨hlo, hhi⟩]

theorem syncRow_above (hlo : c < k) (hhi : k ≤ c + 31) : syncRow u c k = pss62 u (31 + (k - (c + 1))) := by
  rw [syncRow, if_neg (by omega), if_pos ⟨hlo, hhi⟩]

theorem syncRow_outside (h : k = c ∨ k + 31 < c ∨ c + 31 < k) : syncRow u c k = Cplx.zero := by
  rw [syncRow, if_neg (by omega), if_neg (by omega)]

end Row

/-- Settles O30: the three ranges are those of `syncRow`; `31 ≤ c` makes the subtractions exact. -/
theorem syncRowPlacement : Obligations.SyncRowPlacement := by
  intro u c k hc
  refine ⟨fun hlo hhi => ?_, fun hlo hhi => ?_, fun hout => syncRow_outside (by omega)⟩
  · rw [syncRow_below (by omega) (by omega), show k + 31 - c = k - (c - 31) by omega]
  · rw [syncRow_above (by omega) hhi, show 31 + (k - (c + 1)) = 31 + k - (c + 1) by omega]

end Sys2Proof.Machine
end

section
/-! PROOFS. The two transforms as sums over powers of one root of unity, whose orthogonality makes each undo the other
(42_modulator.md R135, R136, R137). -/

namespace Sys2Proof

variable {n j k m : Nat}

/-! ## The root of unity of the transforms -/

/-- `exp (j·2π / N)`, whose powers are the factors of both transforms. -/
noncomputable def rootOfUnity (n : Nat) : ℂ := Complex.exp (2 * Real.pi * Complex.I / n)

theorem rootOfUnity_ne_zero (n : Nat) : rootOfUnity n ≠ 0 := Complex.exp_ne_zero _

theorem rootOfUnity_isPrimitiveRoot (hn : 0 < n) : IsPrimitiveRoot (rootOfUnity n) n :=
  Complex.isPrimitiveRoot_exp n hn.ne'

theorem rootOfUnity_pow (n k m : Nat) :
    rootOfUnity n ^ (k * m) = Complex.exp (Complex.I * 2 * Real.pi * k * m / n) := by
  rw [rootOfUnity, ← Complex.exp_nat_mul]
  congr 1
  push_cast
  ring

theorem val_cisPi_turn (ρ : Nat → ℝ) (n k m : Nat) : (Cplx.cisPi (turn n k m)).val ρ = rootOfUnity n ^ (k * m) := by
  rw [Cplx.val_cisPi, rootOfUnity_pow, turn]
  congr 1
  push_cast
  ring

theorem val_cisPi_neg_turn (ρ : Nat → ℝ) (n k m : Nat) :
    (Cplx.cisPi (-turn n k m)).val ρ = (rootOfUnity n ^ (k * m))⁻¹ := by
  rw [← val_cisPi_turn ρ, Cplx.val_cisPi, Cplx.val_cisPi, ← Complex.exp_neg]
  congr 1
  push_cast
  ring

/-- Two rows of factors are orthogonal: the quotient of two different powers is a root of unity other than 1, and its
geometric sum is 0. -/
theorem sum_rootOfUnity_mul_inv (hj : j < n) (hk : k < n) :
    ∑ m ∈ Finset.range n, rootOfUnity n ^ (j * m) * (rootOfUnity n ^ (k * m))⁻¹ = if j = k then (n : ℂ) else 0 := by
  have hroot := rootOfUnity_isPrimitiveRoot (Nat.zero_lt_of_lt hj)
  have hgeom : ∀ m, rootOfUnity n ^ (j * m) * (rootOfUnity n ^ (k * m))⁻¹ =
      (rootOfUnity n ^ j / rootOfUnity n ^ k) ^ m := fun m => by
    rw [pow_mul, pow_mul, div_pow, div_eq_mul_inv]
  have hk0 : rootOfUnity n ^ k ≠ 0 := pow_ne_zero k (rootOfUnity_ne_zero n)
  rw [Finset.sum_congr rfl fun m _ => hgeom m]
  by_cases hjk : j = k
  · rw [if_pos hjk, hjk, div_self hk0]
    simp
  · have hne : rootOfUnity n ^ j / rootOfUnity n ^ k ≠ 1 := fun h =>
      hjk (hroot.pow_inj hj hk ((div_eq_one_iff_eq hk0).mp h))
    have hturns : (rootOfUnity n ^ j / rootOfUnity n ^ k) ^ n = 1 := by
      rw [div_pow, pow_right_comm, pow_right_comm _ k, hroot.pow_eq_one, one_pow, one_pow, div_one]
    rw [if_neg hjk, geom_sum_eq hne, hturns, sub_self, zero_div]

/-! ## The transforms -/

theorem idft_val (ρ : Nat → ℝ) (n : Nat) (z : Nat → Cplx) (m : Nat) :
    (idft n z m).val ρ = 1 / (n : ℂ) * ∑ k ∈ Finset.range n, (z k).val ρ * rootOfUnity n ^ (k * m) := by
  simp only [idft, Cplx.val_scale, Cplx.val_sum, Cplx.val_times, val_cisPi_turn, RNum.val_rat]
  push_cast
  rfl

theorem dft_val (ρ : Nat → ℝ) (n : Nat) (x : Nat → Cplx) (k : Nat) :
    (dft n x k).val ρ = ∑ m ∈ Finset.range n, (x m).val ρ * (rootOfUnity n ^ (k * m))⁻¹ := by
  simp only [dft, Cplx.val_sum, Cplx.val_times, val_cisPi_neg_turn]

/-- The sum that both inversions come to: summed against the orthogonal rows, a sequence leaves its element `k`. -/
theorem sum_mul_orthogonal (c : Nat → ℂ) {w : Nat → ℂ} (hk : k < n)
    (hw : ∀ j, j < n → w j = if j = k then (n : ℂ) else 0) :
    1 / (n : ℂ) * ∑ j ∈ Finset.range n, c j * w j = c k := by
  have hn : (n : ℂ) ≠ 0 := Nat.cast_ne_zero.mpr (Nat.ne_zero_of_lt hk)
  have hzero : ∀ j ∈ Finset.range n, j ≠ k → c j * w j = 0 := fun j hj hjk => by
    rw [hw j (Finset.mem_range.mp hj), if_neg hjk, mul_zero]
  rw [Finset.sum_eq_single_of_mem k (Finset.mem_range.mpr hk) hzero, hw k hk, if_pos rfl]
  field_simp

/-- `DFT` undoes `IDFT`. -/
theorem dft_idft_val (ρ : Nat → ℝ) (z : Nat → Cplx) (hk : k < n) : (dft n (idft n z) k).val ρ = (z k).val ρ := by
  calc (dft n (idft n z) k).val ρ
      = 1 / (n : ℂ) * ∑ j ∈ Finset.range n, (z j).val ρ *
          ∑ m ∈ Finset.range n, rootOfUnity n ^ (j * m) * (rootOfUnity n ^ (k * m))⁻¹ := by
        simp only [dft_val, idft_val, Finset.mul_sum, Finset.sum_mul]
        rw [Finset.sum_comm]
        simp only [mul_assoc]
    _ = (z k).val ρ := sum_mul_orthogonal _ hk fun j hj => sum_rootOfUnity_mul_inv hj hk

/-- `IDFT` undoes `DFT`. -/
theorem idft_dft_val (ρ : Nat → ℝ) (x : Nat → Cplx) (hm : m < n) : (idft n (dft n x) m).val ρ = (x m).val ρ := by
  calc (idft n (dft n x) m).val ρ
      = 1 / (n : ℂ) * ∑ j ∈ Finset.range n, (x j).val ρ *
          ∑ k ∈ Finset.range n, rootOfUnity n ^ (m * k) * (rootOfUnity n ^ (j * k))⁻¹ := by
        simp only [idft_val, dft_val, Finset.mul_sum, Finset.sum_mul]
        rw [Finset.sum_comm]
        refine Finset.sum_congr rfl fun j _ => Finset.sum_congr rfl fun k _ => ?_
        rw [Nat.mul_comm k m, Nat.mul_comm k j]
        ring
    _ = (x m).val ρ := sum_mul_orthogonal _ hm fun j hj => by
        rw [sum_rootOfUnity_mul_inv hm hj]
        exact if_congr eq_comm rfl rfl

/-- Settles O31: the sums are those over the root's powers, and orthogonality inverts them. -/
theorem transformsAreInverse : Obligations.TransformsAreInverse := by
  intro ρ n z _
  refine ⟨fun m => ?_, fun k => ?_, fun k => dft_idft_val ρ z, fun m => idft_dft_val ρ z⟩
  · simp only [idft_val, rootOfUnity_pow]
  · simp only [dft_val, rootOfUnity_pow, Complex.exp_neg]

/-- For an even `N`, shifting twice is the identity below `N` (R135). -/
theorem shift_shift (x : Nat → Cplx) (heven : n % 2 = 0) (hk : k < n) : shift n (shift n x) k = x k := by
  rw [shift, shift]
  congr 1
  rw [Nat.mod_add_mod, show k + n / 2 + n / 2 = k + n by omega, Nat.add_mod_right, Nat.mod_eq_of_lt hk]

end Sys2Proof
end

section
/-! PROOFS. `MOD`: its capacity faults in order, the frame it writes sample by sample, the rows of the grid, and how a
cyclic-prefixed symbol repeats its body and carries its row (42_modulator.md R130 to R145). -/

namespace Sys2Proof.Machine

open Sys2Proof

variable {s : State} {flat : Bool} {m i k : Nat}

/-! ## The command, check by check (42_modulator.md R142) -/

theorem exec_mod_of_payload (hc : s.cfgv = true) (hpay : s.params.capPay < s.payLen) :
    exec (.mod flat) s = .next (s.raise .bufferCapacity s.len.pay) := by
  rw [exec, execMod, State.whenConfigured_of hc, if_pos hpay, State.payLen, infoOf_toNat, State.fail]

theorem exec_mod_of_frame (hc : s.cfgv = true) (hpay : s.payLen ≤ s.params.capPay)
    (hfit : s.params.capTxo < s.symbolCount * s.period) :
    exec (.mod flat) s = .next (s.raise .bufferCapacity (infoOf (s.symbolCount * s.period))) := by
  rw [exec, execMod, State.whenConfigured_of hc, if_neg (by omega), if_pos hfit, State.fail]

theorem exec_mod_of_fits (hc : s.cfgv = true) (hpay : s.payLen ≤ s.params.capPay)
    (hfit : s.symbolCount * s.period ≤ s.params.capTxo) :
    exec (.mod flat) s = .next (s.writeTxo s.frame (if flat then 1 else s.symbolCount)
      (if flat then s.symbolCount * s.period else s.period)) := by
  rw [exec, execMod, State.whenConfigured_of hc, if_neg (by omega), if_neg (by omega)]

/-- Settles O36: each clause is one check that fails after those before it have passed. -/
theorem modCapacityFaults : Obligations.ModCapacityFaults := by
  intro flat s hc
  refine ⟨exec_mod_of_payload hc, fun hpay r hr hfit => ?_⟩
  subst hr
  exact ⟨_, exec_mod_of_frame hc hpay hfit, infoOf_of_lt⟩

/-! ## The frame (42_modulator.md R131, R138 to R140) -/

theorem blockCount_of_empty (h : s.payLen = 0) : s.blockCount = 1 := if_pos h

theorem blockCount_of_data (hpay : 0 < s.payLen) (hdata : 0 < s.sizeND) :
    s.blockCount = (s.payLen + s.sizeND - 1) / s.sizeND := by
  rw [State.blockCount, if_neg (by omega), if_neg (by omega)]

/-- The positions of symbol `m` lie in the frame. -/
theorem position_lt (hm : m < s.symbolCount) (hi : i < s.period) : m * s.period + i < s.symbolCount * s.period := by
  rw [Nat.mul_comm m]
  exact Nat.mul_add_lt_mul_of_lt_of_lt hm hi

/-- Sample `i` of symbol `m` stands at position `m·P + i` of the frame. -/
theorem frame_nth (hm : m < s.symbolCount) (hi : i < s.period) :
    Cplx.nth s.frame (m * s.period + i) = s.frameSample s.pilots s.setD m i := by
  have hrow : (m * s.period + i) / s.period = m := by
    rw [Nat.mul_comm, Nat.mul_add_div (by omega), Nat.div_eq_of_lt hi, Nat.add_zero]
  have hcol : (m * s.period + i) % s.period = i := by rw [Nat.mul_add_mod_self_right, Nat.mod_eq_of_lt hi]
  rw [State.frame, Cplx.nth_tabulate _ _ (position_lt hm hi), rowCol, hrow, hcol]

theorem frameSample_val (ρ : Nat → ℝ) (pilots data : List Nat) (m i : Nat) :
    (s.frameSample pilots data m i).val ρ = (s.consts.txAmplitude.val ρ : ℂ) *
      (idft s.sizeN (shift s.sizeN (s.gridRow pilots data m)) (prefixIndex s.sizeN s.sizeCP i)).val ρ :=
  Cplx.val_scale ρ _ _

/-- A frame that fits is what `TXO` holds. -/
theorem writeTxo_holds_frame (hs : s.Inv) {rows cols : Nat} (hfit : s.symbolCount * s.period ≤ s.params.capTxo) :
    Holds (s.writeTxo s.frame rows cols) .txo (s.symbolCount * s.period) fun j => .cplx (Cplx.nth s.frame j) := by
  obtain ⟨-, hcap, -⟩ := hs.caps
  rw [← frame_length] at hfit ⊢
  exact writeTxo_holds (by omega) hfit

/-- What the host reads at the position of sample `i` of symbol `m` of a frame that fits. -/
theorem writeTxo_readBuf_frame (hs : s.Inv) {rows cols : Nat} (hfit : s.symbolCount * s.period ≤ s.params.capTxo)
    (hm : m < s.symbolCount) (hi : i < s.period) :
    (s.writeTxo s.frame rows cols).readBuf .txo (m * s.period + i) =
      some (.cplx (s.frameSample s.pilots s.setD m i)) := by
  obtain ⟨-, hread⟩ := writeTxo_holds_frame (rows := rows) (cols := cols) hs hfit
  rw [hread, if_pos (position_lt hm hi), ← frame_nth hm hi]

/-- Settles O32: no check fails, and the frame is the one of `State.frame`, sample by sample. -/
theorem modWritesFrame : Obligations.ModWritesFrame := by
  intro flat s r sy hs hc hr hsy hpay hfit
  obtain rfl : sy = s.symbolCount := by rw [hsy, hr, State.symbolCount, State.dataRows]
  refine ⟨blockCount_of_empty, blockCount_of_data, _, Cplx.nth s.frame, exec_mod_of_fits hc hpay hfit,
    writeTxo_holds_frame hs hfit, rfl, rfl, writeTxo_frame s _ _ _, fun ρ m i hm hi => ?_⟩
  rw [frame_nth hm hi, frameSample_val, prefixIndex]

/-! ## The rows of the grid (42_modulator.md R132, R133) -/

section Row

variable {pilots data : List Nat} {pv : Cplx} {b : Nat → Cplx}

theorem dataRow_pilot (h : k ∈ pilots) : dataRow pilots data pv b k = pv := if_pos (List.contains_iff_mem.mpr h)

theorem dataRow_data (hp : k ∉ pilots) (hd : data.Nodup) (hk : data[i]? = some k) : dataRow pilots data pv b k = b i := by
  obtain ⟨hi, rfl⟩ := List.getElem?_eq_some_iff.mp hk
  rw [dataRow, if_neg (mt List.contains_iff_mem.mp hp), if_pos (List.contains_iff_mem.mpr (List.getElem_mem hi)),
    hd.idxOf_getElem]

theorem dataRow_other (hp : k ∉ pilots) (hd : k ∉ data) : dataRow pilots data pv b k = Cplx.zero := by
  rw [dataRow, if_neg (mt List.contains_iff_mem.mp hp), if_neg (mt List.contains_iff_mem.mp hd)]

end Row

theorem State.setD_nodup (s : State) : s.setD.Nodup :=
  ((activeSet_pairwise _ _ _).filter _).imp fun h => h.ne

theorem gridRow_sync {pilots data : List Nat} (h : m % 6 = 0) : s.gridRow pilots data m = syncRow s.root s.center := if_pos h

theorem gridRow_data {pilots data : List Nat} (h : m % 6 ≠ 0) :
    s.gridRow pilots data m =
      dataRow pilots data s.consts.pilotValue fun i => s.paddedPay (dataRowOf m * s.sizeND + i) := if_neg h

/-- Settles O33: a carrier is a data-only carrier, a pilot, or outside the active set. -/
theorem gridRowsHoldPayloadAndPilots : Obligations.GridRowsHoldPayloadAndPilots := by
  intro s m h
  refine ⟨gridRow_sync, fun hm => ?_⟩
  rw [gridRow_data hm]
  refine ⟨fun i k hk => ?_, fun i hi => dataRow_pilot (State.mem_pilots.mpr ⟨i, hi, rfl⟩), fun k hk => ?_⟩
  · obtain ⟨-, hp⟩ := mem_dataSet.mp (List.mem_of_getElem? hk)
    exact dataRow_data hp s.setD_nodup hk
  · have hA : k ∉ s.setA := fun hA => by
      obtain ⟨hlo, hhi, hcenter⟩ := mem_activeSet.mp hA
      omega
    exact dataRow_other (fun hp => hA (h.pilots_active k hp)) fun hd => hA (mem_dataSet.mp hd).1

/-! ## The parts of a symbol (42_modulator.md R138, R145) -/

theorem prefixIndex_of_lt {n cp : Nat} (hi : i < cp) : prefixIndex n cp i = n - cp + i := if_pos hi

theorem prefixIndex_body (n cp i : Nat) : prefixIndex n cp (cp + i) = i := by
  rw [prefixIndex, if_neg (by omega), Nat.add_sub_cancel_left]

/-- A sample before the body is the sample `N` later, as a term already. -/
theorem frameSample_add_sizeN {pilots data : List Nat} (h : s.GridValid) (hi : i < s.sizeCP) :
    s.frameSample pilots data m i = s.frameSample pilots data m (i + s.sizeN) := by
  have hcp := h.cp
  have hindex : i + s.sizeN = s.sizeCP + (s.sizeN - s.sizeCP + i) := by omega
  rw [State.frameSample, State.frameSample, prefixIndex_of_lt hi, hindex, prefixIndex_body]

/-- Settles O34: both samples are samples of one symbol of the frame that `MOD` left in `TXO`. -/
theorem cyclicPrefixRepeatsTail : Obligations.CyclicPrefixRepeatsTail := by
  intro flat s t m i hs hc hexec herr hi hlen
  obtain ⟨c, v, rfl⟩ | ⟨-, -, hfit, rfl⟩ := execMod_cases hexec
  · exact absurd herr (by simp)
  have hvalid := hs.grid hc
  obtain ⟨hperiod, -⟩ := hvalid.period_bounds
  obtain ⟨htxo, -⟩ := writeTxo_holds_frame hs hfit
  rw [htxo] at hlen
  have hm : m < s.symbolCount := Nat.lt_of_succ_le (Nat.le_of_mul_le_mul_right hlen hperiod)
  have htail : i + s.sizeN < s.period := by rw [State.period]; omega
  rw [Nat.add_assoc, writeTxo_readBuf_frame hs hfit hm (by omega), writeTxo_readBuf_frame hs hfit hm htail,
    frameSample_add_sizeN hvalid hi]

/-- The spectrum of a body is `AMP` times the shifted row: `DFT` is linear and undoes `IDFT`. -/
theorem dft_body_val (ρ : Nat → ℝ) (s : State) (pilots data : List Nat) (m : Nat) (hk : k < s.sizeN) :
    (dft s.sizeN (fun i => s.frameSample pilots data m (s.sizeCP + i)) k).val ρ =
      (s.consts.txAmplitude.val ρ : ℂ) * (shift s.sizeN (s.gridRow pilots data m) k).val ρ := by
  rw [← dft_idft_val ρ (shift s.sizeN (s.gridRow pilots data m)) hk]
  simp only [dft_val, frameSample_val, prefixIndex_body, Finset.mul_sum, mul_assoc]

/-- Settles O35: the spectrum is that of `dft_body_val`, and the shift undoes that of the modulator. -/
theorem bodySpectrumIsGridRow : Obligations.BodySpectrumIsGridRow := by
  intro ρ s m k h hk
  obtain ⟨-, -, hfour⟩ := h.sizes
  rw [← shift_shift (s.gridRow s.pilots s.setD m) (by omega) hk]
  exact dft_body_val ρ s _ _ m (Nat.mod_lt _ (by omega))

end Sys2Proof.Machine
end

section
/-! PROOFS. The correlation primitive and the normalisation of scores, as the real and complex numbers they stand for
(43_timing_sync.md R150 to R152, R156, R164). -/

namespace Sys2Proof.Machine

open Sys2Proof

variable {ρ : Nat → ℝ} {lt : RNum → RNum → Bool}

/-! ## Sums and norms (43_timing_sync.md R150, R151) -/

theorem dot_val (ρ : Nat → ℝ) (n : Nat) (a b : Nat → Cplx) :
    (dot n a b).val ρ = ∑ t ∈ Finset.range n, (starRingEnd ℂ) ((a t).val ρ) * (b t).val ρ := by
  simp only [dot, Cplx.val_sum, Cplx.val_times, Cplx.val_conj]

theorem norm_val (ρ : Nat → ℝ) (n : Nat) (a : Nat → Cplx) :
    (norm n a).val ρ = Real.sqrt (∑ t ∈ Finset.range n, ‖(a t).val ρ‖ ^ 2) := by
  simp only [norm, RNum.val_root, RNum.val_sum, Cplx.val_normSq]

theorem dotR_val (ρ : Nat → ℝ) (n : Nat) (p q : Nat → RNum) :
    (dotR n p q).val ρ = ∑ t ∈ Finset.range n, (p t).val ρ * (q t).val ρ := by
  simp only [dotR, RNum.val_sum, RNum.val_times]

theorem normR_val (ρ : Nat → ℝ) (n : Nat) (p : Nat → RNum) :
    (normR n p).val ρ = Real.sqrt (∑ t ∈ Finset.range n, (p t).val ρ * (p t).val ρ) := by
  simp only [normR, RNum.val_root, RNum.val_sum, RNum.val_times]

/-! ## Guarded quotients (43_timing_sync.md R152) -/

/-- A quotient by two norms is 0 where one of them is 0. -/
theorem quotient_val (h : ExactLt ρ lt) (z x y : RNum) :
    (quotient lt z x y).val ρ = if x.val ρ = 0 ∨ y.val ρ = 0 then 0 else z.val ρ / (x.val ρ * y.val ρ) := by
  have hguard : (x.isZero lt || y.isZero lt) = true ↔ x.val ρ = 0 ∨ y.val ρ = 0 := by
    rw [Bool.or_eq_true, ExactLt.isZero h, ExactLt.isZero h]
  by_cases hzero : x.val ρ = 0 ∨ y.val ρ = 0
  · rw [quotient, if_pos (hguard.mpr hzero), if_pos hzero, RNum.val_zero]
  · rw [quotient, if_neg (mt hguard.mp hzero), if_neg hzero, RNum.val_quot, RNum.val_times]

/-! ## The four forms (43_timing_sync.md R150 to R152) -/

theorem corr_complex_val (h : ExactLt ρ lt) (n : Nat) (a b : Nat → Cplx) :
    (corr lt n a b true false).val ρ =
      if (norm n a).val ρ = 0 ∨ (norm n b).val ρ = 0 then 0
      else (dot n a b).val ρ / ((norm n a).val ρ * (norm n b).val ρ : ℝ) := by
  have hparts : (corr lt n a b true false).val ρ =
      ⟨(quotient lt (dot n a b).re (norm n a) (norm n b)).val ρ,
        (quotient lt (dot n a b).im (norm n a) (norm n b)).val ρ⟩ := rfl
  rw [hparts, quotient_val h, quotient_val h]
  split_ifs with hzero
  · rfl
  · apply Complex.ext
    · rw [Complex.div_ofReal_re, Cplx.val_re]
    · rw [Complex.div_ofReal_im, Cplx.val_im]

theorem corrR_val (h : ExactLt ρ lt) (n : Nat) (p q : Nat → RNum) :
    (corrR lt n p q true).val ρ =
      if Real.sqrt (∑ t ∈ Finset.range n, (p t).val ρ * (p t).val ρ) = 0 ∨
          Real.sqrt (∑ t ∈ Finset.range n, (q t).val ρ * (q t).val ρ) = 0 then 0
      else (∑ t ∈ Finset.range n, (p t).val ρ * (q t).val ρ) /
        (Real.sqrt (∑ t ∈ Finset.range n, (p t).val ρ * (p t).val ρ) *
          Real.sqrt (∑ t ∈ Finset.range n, (q t).val ρ * (q t).val ρ)) := by
  rw [corrR, if_pos rfl, quotient_val h, dotR_val, normR_val, normR_val]

/-- Cauchy-Schwarz, for the sum and the norms of R150. -/
theorem norm_dot_le (ρ : Nat → ℝ) (n : Nat) (a b : Nat → Cplx) :
    ‖(dot n a b).val ρ‖ ≤ (norm n a).val ρ * (norm n b).val ρ := by
  rw [dot_val, norm_val, norm_val]
  calc ‖∑ t ∈ Finset.range n, (starRingEnd ℂ) ((a t).val ρ) * (b t).val ρ‖
      ≤ ∑ t ∈ Finset.range n, ‖(starRingEnd ℂ) ((a t).val ρ) * (b t).val ρ‖ := norm_sum_le _ _
    _ = ∑ t ∈ Finset.range n, ‖(a t).val ρ‖ * ‖(b t).val ρ‖ := by simp only [norm_mul, RCLike.norm_conj]
    _ ≤ _ := Real.sum_mul_le_sqrt_mul_sqrt _ _ _

/-- A normalised correlation of complex sequences has magnitude at most 1. -/
theorem norm_corr_le_one (h : ExactLt ρ lt) (n : Nat) (a b : Nat → Cplx) :
    ‖(corr lt n a b true false).val ρ‖ ≤ 1 := by
  rw [corr_complex_val h]
  split_ifs with hzero
  · simp
  · have hle := norm_dot_le ρ n a b
    have hnonneg : 0 ≤ (norm n a).val ρ * (norm n b).val ρ := (norm_nonneg _).trans hle
    rw [norm_div, Complex.norm_of_nonneg hnonneg]
    exact div_le_one_of_le₀ hle hnonneg

/-- Settles O37: each form is a sum, or sums through `quotient_val`, and the bound is Cauchy-Schwarz. -/
theorem correlationValues : Obligations.CorrelationValues := by
  intro ρ lt n a b h
  refine ⟨dot_val ρ n a b, ?_, ?_, ?_, norm_corr_le_one h n a b⟩
  · rw [corr_complex_val h, dot_val, norm_val, norm_val]
  · exact Complex.ext (dotR_val ρ n _ _) (dotR_val ρ n _ _)
  · exact Complex.ext (corrR_val h n _ _) (corrR_val h n _ _)

/-! ## Normalised scores (43_timing_sync.md R156, R164) -/

/-- With an exact comparison, `maxOf` of a non-empty sequence is an element that none exceeds. -/
theorem maxOf_spec (h : ExactLt ρ lt) {l : List RNum} (hl : l ≠ []) :
    maxOf lt l ∈ l ∧ ∀ a ∈ l, a.val ρ ≤ (maxOf lt l).val ρ := by
  obtain ⟨hpos, hmax, -⟩ := peak_spec h hl
  refine ⟨List.mem_of_getElem? hpos, fun a ha => ?_⟩
  obtain ⟨j, hj⟩ := List.mem_iff_getElem?.mp ha
  exact hmax j a hj

/-- Where the maximum is 0, so is every normalised score. -/
theorem normalise_val_of_max_zero (h : ExactLt ρ lt) {raw : List RNum} (hmx : (maxOf lt raw).val ρ = 0) :
    ∀ a ∈ normalise lt raw, a.val ρ = 0 := by
  intro a ha
  obtain ⟨c, -, rfl⟩ := List.mem_map.mp ha
  rw [if_pos ((ExactLt.isZero h _).mpr hmx), RNum.val_zero]

/-- Where the maximum is not 0, a normalised score is the raw score divided by it. -/
theorem normalise_getElem? (h : ExactLt ρ lt) {raw : List RNum} (hmx : (maxOf lt raw).val ρ ≠ 0) (i : Nat) :
    (normalise lt raw)[i]? = raw[i]?.map fun a => a.quot (maxOf lt raw) := by
  rw [normalise, List.getElem?_map]
  simp only [if_neg (mt (ExactLt.isZero h _).mp hmx)]

theorem normalise_nth_val (h : ExactLt ρ lt) {raw : List RNum} (hmx : (maxOf lt raw).val ρ ≠ 0) {i : Nat} {a : RNum}
    (hi : raw[i]? = some a) : (RNum.nth (normalise lt raw) i).val ρ = a.val ρ / (maxOf lt raw).val ρ := by
  rw [RNum.nth, List.getD, normalise_getElem? h hmx, hi, Option.map_some, Option.getD_some, RNum.val_quot]

/-- Settles O38: the divisor is `maxOf`, which is 0 exactly when no score is positive, and its own quotient is 1. -/
theorem scoresAreNormalised : Obligations.ScoresAreNormalised := by
  intro ρ lt raw h hnonneg
  refine ⟨normalise_length lt raw, fun hzero => ?_, fun ⟨a, ha, hpos⟩ => ?_⟩
  · rcases eq_or_ne raw [] with rfl | hne
    · simp [normalise]
    · exact normalise_val_of_max_zero h (hzero _ (maxOf_spec h hne).1)
  · obtain ⟨hmem, hmax⟩ := maxOf_spec h (List.ne_nil_of_mem ha)
    have hmx : 0 < (maxOf lt raw).val ρ := hpos.trans_le (hmax a ha)
    refine ⟨maxOf lt raw, hmem, hmx, hmax, fun i a => normalise_nth_val h hmx.ne', ?_⟩
    obtain ⟨i, hi⟩ := List.mem_iff_getElem?.mp hmem
    have hquot := normalise_getElem? h hmx.ne' i
    rw [hi, Option.map_some] at hquot
    exact ⟨_, List.mem_of_getElem? hquot, by rw [RNum.val_quot, div_self hmx.ne']⟩

end Sys2Proof.Machine
end

section
/-! PROOFS. The boundary lists of the timing commands: one boundary at most in each window of a `SYNCCP` scan, and the
progression from a frame start (43_timing_sync.md R156 to R160, R167). -/

namespace Sys2Proof.Machine

open Sys2Proof

variable {ρ : Nat → ℝ} {lt : RNum → RNum → Bool} {thA thF : RNum} {m p start b : Nat} {score : List RNum}

/-! ## One window of the scan (43_timing_sync.md R158, R159) -/

/-- The scores of the window that starts at `start`: one symbol period, or what is left of the buffer. -/
def scanWindow (m p : Nat) (score : List RNum) (start : Nat) : List RNum :=
  (score.drop start).take (min (start + p) m - start)

theorem scanWindow_length (hlen : score.length = m) : (scanWindow m p score start).length = min (start + p) m - start := by
  rw [scanWindow, List.length_take, List.length_drop]
  omega

theorem scanWindow_getElem? (hlen : score.length = m) {j : Nat} (hj : start + j < min (start + p) m) :
    (scanWindow m p score start)[j]? = some (RNum.nth score (start + j)) := by
  have hscore : start + j < score.length := by omega
  rw [scanWindow, List.getElem?_take_of_lt (by omega), List.getElem?_drop, RNum.nth, List.getD,
    List.getElem?_eq_getElem hscore, Option.getD_some]

/-- What a window contributes: the position of its maximum, where that exceeds the threshold and marks a whole symbol. -/
theorem windowBoundary_eq_some :
    windowBoundary lt thA m p score start = some b ↔
      b = start + (peak lt (scanWindow m p score start)).2 ∧
        lt thA (peak lt (scanWindow m p score start)).1 = true ∧ b + p ≤ m := by
  rw [windowBoundary, ← scanWindow]
  constructor
  · intro h
    split_ifs at h with haccept
    obtain rfl := Option.some.inj h
    exact ⟨rfl, haccept⟩
  · rintro ⟨rfl, haccept⟩
    exact if_pos haccept

/-- A boundary lies in its window and marks a whole symbol, whatever the comparison. -/
theorem windowBoundary_bounds (hp : 0 < p) (h : windowBoundary lt thA m p score start = some b) :
    start ≤ b ∧ b < start + p ∧ b + p ≤ m := by
  obtain ⟨rfl, -, hwhole⟩ := windowBoundary_eq_some.mp h
  refine ⟨by omega, ?_, hwhole⟩
  rcases eq_or_ne (scanWindow m p score start) [] with hnil | hne
  · rw [hnil, peak]
    exact Nat.add_lt_add_left hp start
  · have hlt := peak_lt lt hne
    have hlength : (scanWindow m p score start).length ≤ min (start + p) m - start := List.length_take_le _ _
    omega

/-- `b` is the first position of the largest score in the window that starts at `start`. -/
def FirstMaxAt (ρ : Nat → ℝ) (m p : Nat) (score : List RNum) (start b : Nat) : Prop :=
  start ≤ b ∧ b < min (start + p) m ∧
    (∀ i, start ≤ i → i < min (start + p) m → (RNum.nth score i).val ρ ≤ (RNum.nth score b).val ρ) ∧
      ∀ i, start ≤ i → i < b → (RNum.nth score i).val ρ < (RNum.nth score b).val ρ

/-- With an exact comparison, `peak` of a window answers its first maximum and no other position. -/
theorem peak_scanWindow (h : ExactLt ρ lt) (hlen : score.length = m) (hstart : start < m) (hp : 0 < p) {k : Nat} :
    FirstMaxAt ρ m p score start (start + k) ↔
      peak lt (scanWindow m p score start) = (RNum.nth score (start + k), k) := by
  have hlength := scanWindow_length (p := p) (start := start) hlen
  have hmem : ∀ (j : Nat) (c : RNum), (scanWindow m p score start)[j]? = some c →
      start + j < min (start + p) m ∧ c = RNum.nth score (start + j) := fun j c hj => by
    have hlt : start + j < min (start + p) m := by
      obtain ⟨hj, -⟩ := List.getElem?_eq_some_iff.mp hj
      omega
    rw [scanWindow_getElem? hlen hlt] at hj
    exact ⟨hlt, (Option.some.inj hj).symm⟩
  constructor
  · rintro ⟨-, hend, hmax, hfirst⟩
    refine peak_eq_of_first_max h (scanWindow_getElem? hlen hend) (fun c hc => ?_) fun j c hjk hj => ?_
    · obtain ⟨j, hj⟩ := List.mem_iff_getElem?.mp hc
      obtain ⟨hlt, rfl⟩ := hmem j c hj
      exact hmax _ (by omega) hlt
    · obtain ⟨-, rfl⟩ := hmem j c hj
      exact hfirst _ (by omega) (by omega)
  · intro hpeak
    have hne : scanWindow m p score start ≠ [] := List.ne_nil_of_length_pos (by omega)
    obtain ⟨hpos, hmax, hfirst⟩ := peak_spec h hne
    simp only [hpeak] at hpos hmax hfirst
    have hat : ∀ i, start ≤ i → i < min (start + p) m →
        (scanWindow m p score start)[i - start]? = some (RNum.nth score i) := fun i hi hlt => by
      have hsub : start + (i - start) = i := by omega
      rw [scanWindow_getElem? hlen (by omega), hsub]
    obtain ⟨hend, -⟩ := hmem k _ hpos
    exact ⟨by omega, hend, fun i hi hlt => hmax _ _ (hat i hi hlt),
      fun i hi hlt => hfirst _ _ (by omega) (hat i hi (by omega))⟩

/-- With an exact comparison, a window contributes exactly its first maximum, where it is above the threshold and marks a
whole symbol. -/
theorem windowBoundary_exact (h : ExactLt ρ lt) (hlen : score.length = m) (hstart : start < m) (hp : 0 < p) :
    windowBoundary lt thA m p score start = some b ↔
      FirstMaxAt ρ m p score start b ∧ thA.val ρ < (RNum.nth score b).val ρ ∧ b + p ≤ m := by
  rw [windowBoundary_eq_some]
  constructor
  · rintro ⟨rfl, haccept, hwhole⟩
    have hne : scanWindow m p score start ≠ [] :=
      List.ne_nil_of_length_pos (by rw [scanWindow_length hlen]; omega)
    have hk := peak_lt lt hne
    rw [scanWindow_length hlen] at hk
    have hvalue : (peak lt (scanWindow m p score start)).1 =
        RNum.nth score (start + (peak lt (scanWindow m p score start)).2) := by
      obtain ⟨hpos, -⟩ := peak_spec h hne
      rw [scanWindow_getElem? hlen (by omega)] at hpos
      exact (Option.some.inj hpos).symm
    refine ⟨(peak_scanWindow h hlen hstart hp).mpr (Prod.ext hvalue rfl), ?_, hwhole⟩
    rw [← hvalue]
    exact (h _ _).mp haccept
  · rintro ⟨hfirst, haccept, hwhole⟩
    have hlow : start ≤ b := hfirst.left
    obtain ⟨k, rfl⟩ := Nat.exists_eq_add_of_le hlow
    rw [(peak_scanWindow h hlen hstart hp).mp hfirst]
    exact ⟨rfl, (h _ _).mpr haccept, hwhole⟩

/-! ## The scan (43_timing_sync.md R156 to R158) -/

/-- The windows scanned are those that start below `Lscan`. -/
theorem lt_windowCount_iff (hp : 0 < p) {w scan : Nat} : w < (scan + p - 1) / p ↔ w * p < scan := by
  rw [← Nat.succ_le_iff, Nat.le_div_iff_mul_le hp, Nat.succ_mul]
  omega

/-- Every boundary is contributed by a window that starts below `Lscan`, and there is none where every score is 0. -/
theorem mem_cpBoundaries (hp : 0 < p) :
    b ∈ cpBoundaries lt thA thF m p score ↔
      allZero lt score = false ∧
        ∃ w, w * p < scanLength lt thF m p score ∧ windowBoundary lt thA m p score (w * p) = some b := by
  rw [cpBoundaries]
  split_ifs with hzero
  · simp [hzero]
  · simp only [hzero, true_and, List.mem_filterMap, List.mem_range, lt_windowCount_iff hp]

theorem scanLength_le : scanLength lt thF m p score ≤ m := by
  rw [scanLength]
  split_ifs <;> omega

theorem ExactLt.scanLength_eq (h : ExactLt ρ lt) :
    scanLength lt thF m p score = if thF.val ρ < (RNum.nth score 0).val ρ then m else m - p :=
  if_congr (h _ _) rfl rfl

/-- With an exact comparison, not all scores count as 0 where one of them is not 0. -/
theorem ExactLt.allZero_eq_false (h : ExactLt ρ lt) (hlen : score.length = m) :
    allZero lt score = false ↔ ∃ i, i < m ∧ (RNum.nth score i).val ρ ≠ 0 := by
  rw [← Bool.not_eq_true, Sys2Proof.ExactLt.allZero h, List.forall_mem_iff_getElem]
  subst hlen
  simp only [not_forall, RNum.nth]
  refine exists_congr fun i => ⟨fun ⟨hi, hne⟩ => ⟨hi, ?_⟩, fun ⟨hi, hne⟩ => ⟨hi, ?_⟩⟩
  · rwa [List.getD_eq_getElem _ _ hi]
  · rwa [List.getD_eq_getElem _ _ hi] at hne

/-- Settles O39: membership window by window, each window by its first maximum. -/
theorem acceptedBoundaries : Obligations.AcceptedBoundaries := by
  intro ρ lt thA thF m p score b h hp hpm hlen v lscan
  have hwindow : ∀ w, w * p < lscan → (windowBoundary lt thA m p score (w * p) = some b ↔
      FirstMaxAt ρ m p score (w * p) b ∧ thA.val ρ < v b ∧ b + p ≤ m) := fun w hw => by
    have hscan : scanLength lt thF m p score = lscan := h.scanLength_eq
    exact windowBoundary_exact h hlen (hw.trans_le (hscan ▸ scanLength_le)) hp
  rw [mem_cpBoundaries hp, h.allZero_eq_false hlen, h.scanLength_eq]
  refine and_congr_right fun _ => exists_congr fun w => and_congr_right fun hw => ?_
  rw [hwindow w hw, FirstMaxAt]
  simp only [and_assoc]
  rfl

/-- The boundaries of two windows lie in different periods, whatever the comparison. -/
theorem cpBoundaries_periods (hp : 0 < p) :
    (cpBoundaries lt thA thF m p score).Pairwise fun a b => a / p < b / p := by
  have hrow : ∀ w a, windowBoundary lt thA m p score (w * p) = some a → a / p = w := fun w a ha => by
    obtain ⟨hlow, hhigh, -⟩ := windowBoundary_bounds hp ha
    exact Nat.div_eq_of_lt_le hlow (by rwa [Nat.succ_mul])
  rw [cpBoundaries]
  split_ifs
  · exact .nil
  · refine List.pairwise_filterMap.mpr (List.pairwise_lt_range.imp fun hw a ha b hb => ?_)
    rwa [hrow _ a ha, hrow _ b hb]

theorem cpBoundaries_ascending (hp : 0 < p) : (cpBoundaries lt thA thF m p score).Pairwise (· < ·) :=
  (cpBoundaries_periods hp).imp fun h => Nat.lt_of_div_lt_div h

theorem cpBoundaries_whole (hp : 0 < p) : ∀ b ∈ cpBoundaries lt thA thF m p score, b + p ≤ m := by
  intro b hb
  obtain ⟨-, w, -, hw⟩ := (mem_cpBoundaries hp).mp hb
  obtain ⟨-, -, hwhole⟩ := windowBoundary_bounds hp hw
  exact hwhole

/-- Settles O40: a boundary's period is the window that contributes it. -/
theorem cpBoundariesAscendInBuffer : Obligations.CpBoundariesAscendInBuffer :=
  fun _ _ _ _ _ _ hp _ _ => ⟨cpBoundaries_ascending hp, cpBoundaries_whole hp, cpBoundaries_periods hp⟩

/-! ## The progression from a frame start (43_timing_sync.md R167) -/

theorem mem_progression {f : Int} {o : Nat} :
    o ∈ progression f m p ↔ o + p ≤ m ∧ f ≤ o ∧ (p : Int) ∣ o - f := by
  simp only [progression, List.mem_filter, List.mem_range, Bool.and_eq_true, decide_eq_true_eq, ← Int.dvd_iff_emod_eq_zero]
  exact and_congr_left fun _ => by omega

theorem progression_ascending (f : Int) (m p : Nat) : (progression f m p).Pairwise (· < ·) :=
  List.pairwise_lt_range.filter _

/-- A distance that is not negative and a multiple of `p` is a number of whole periods. -/
theorem exists_periods_iff {f : Int} {o : Nat} (hp : 0 < p) :
    (f ≤ o ∧ (p : Int) ∣ o - f) ↔ ∃ k : Nat, (o : Int) = f + (k : Int) * (p : Int) := by
  constructor
  · rintro ⟨hle, k, hk⟩
    have hp' : (0 : Int) < p := by exact_mod_cast hp
    have hk0 : 0 ≤ k := by
      by_contra hneg
      have := mul_neg_of_pos_of_neg hp' (not_le.mp hneg)
      omega
    refine ⟨k.toNat, ?_⟩
    rw [Int.toNat_of_nonneg hk0, Int.mul_comm k]
    omega
  · rintro ⟨k, hk⟩
    have hprod : (0 : Int) ≤ (k : Int) * p := by positivity
    exact ⟨by omega, ⟨k, by rw [Int.mul_comm]; omega⟩⟩

/-- Settles O44: the filter keeps the offsets a whole number of periods above the start. -/
theorem progressionFromFrameStart : Obligations.ProgressionFromFrameStart := by
  intro f m p hp
  refine ⟨progression_ascending f m p, fun o => ?_⟩
  rw [mem_progression, exists_periods_iff hp]

/-! ## Lists that fit 32 bits -/

/-- A strictly increasing list of numbers below `m` has at most `m` of them. -/
theorem length_le_of_ascending {l : List Nat} (hl : l.Pairwise (· < ·)) (hlt : ∀ b ∈ l, b < m) : l.length ≤ m := by
  have hsub : l ⊆ List.range m := fun b hb => List.mem_range.mpr (hlt b hb)
  have hnodup : l.Nodup := hl.imp fun h => h.ne
  simpa using (hnodup.subperm hsub).length_le

theorem cpBoundaries_length_le (hp : 0 < p) : (cpBoundaries lt thA thF m p score).length ≤ m :=
  length_le_of_ascending (cpBoundaries_ascending hp) fun b hb => by
    have := cpBoundaries_whole hp b hb
    omega

theorem progression_length_le (f : Int) (hp : 0 < p) : (progression f m p).length ≤ m :=
  length_le_of_ascending (progression_ascending f m p) fun o ho => by
    obtain ⟨hwhole, -⟩ := mem_progression.mp ho
    omega

end Sys2Proof.Machine
end

section
/-! PROOFS. `SYNCCP` and `SYNCPSS`: their length faults in order, what they write, and a silent buffer (43_timing_sync.md R153 to
R171). -/

namespace Sys2Proof.Machine

open Sys2Proof

variable {s t : State} {th : Bool} {i : Instr} {go : Outcome}

/-! ## The checks, in their order (43_timing_sync.md R161, R169) -/

theorem timingChecks_of_capacity (hc : s.cfgv = true) (hcap : s.params.capRxb < s.rxLen) :
    s.timingChecks i go = .next (s.raise .bufferCapacity s.len.rxb) := by
  rw [State.timingChecks, State.whenConfigured_of hc, if_pos hcap, State.rxLen, infoOf_toNat, State.fail]

theorem timingChecks_of_short (hc : s.cfgv = true) (hcap : s.rxLen ≤ s.params.capRxb) (hshort : s.rxLen < s.period) :
    s.timingChecks i go = .next (s.raise .bufferTooShort s.len.rxb) := by
  rw [State.timingChecks, State.whenConfigured_of hc, if_neg (by omega), if_pos hshort, State.rxLen, infoOf_toNat,
    State.fail]

/-- Settles O42: both commands begin with the same checks. -/
theorem timingLengthFaults : Obligations.TimingLengthFaults := fun _ hc =>
  ⟨fun hcap => ⟨timingChecks_of_capacity hc hcap, fun _ => timingChecks_of_capacity hc hcap⟩,
    fun hcap hshort => ⟨timingChecks_of_short hc hcap hshort, fun _ => timingChecks_of_short hc hcap hshort⟩⟩

/-! ## The frame start leaves the rest (43_timing_sync.md R168) -/

theorem noteStart_status (s : State) (o : Option Int) : (s.noteStart o).status = s.status := by
  cases o <;> rfl

/-- The frame start is in no buffer. -/
theorem Holds.noteStart {b : BufName} {n : Nat} {f : Nat → ElemValue} (h : Holds t b n f) (o : Option Int) :
    Holds (t.noteStart o) b n f := by
  obtain ⟨w, hw⟩ := t.noteStart_eq o
  rw [hw]
  cases b <;> exact h

/-! ## What both commands write (43_timing_sync.md R160, R168) -/

/-- A list that does not fit `BND` is reported with its length. -/
theorem fail_bounds_of_length (list : List Nat) (hlen : list.length ≤ s.rxLen) :
    s.fail .bufferCapacity (infoOf list.length) = .next (s.raise .bufferCapacity (Word.ofNat list.length)) := by
  have hlt : s.rxLen < 4294967296 := s.len.rxb.isLt
  rw [State.fail, infoOf_of_lt (by omega)]

theorem writeTiming_holds (hs : s.Inv) {score : List RNum} {list : List Nat} (hscore : score.length ≤ s.params.capRxb)
    (hlist : list.length ≤ s.params.capBnd) :
    Holds (s.writeTiming score list) .scr score.length (fun k => .real (RNum.nth score k)) ∧
      Holds (s.writeTiming score list) .bnd list.length fun k => .nat (list.getD k 0) := by
  obtain ⟨-, -, hrxb, hbnd, -⟩ := hs.caps
  exact ⟨writeTiming_holds_scr (by omega) hscore, writeTiming_holds_bnd (by omega) hlist⟩

theorem writeTiming_otherFlags (s : State) (score : List RNum) (list : List Nat) :
    ∀ k, k ≠ 2 → (s.writeTiming score list).status.getLsbD k = s.status.getLsbD k := fun k hk => by
  rw [State.writeTiming_status, writeDetf_getLsbD, if_neg hk]

/-! ## SYNCCP (43_timing_sync.md R153) -/

theorem State.cpBoundaries_length_le (hperiod : 0 < s.period) (score : List RNum) :
    (s.cpBoundaries score).length ≤ s.rxLen := Machine.cpBoundaries_length_le hperiod

theorem exec_synccp_of_lt (hc : s.cfgv = true) (hcap : s.rxLen ≤ s.params.capRxb) (hlong : s.period ≤ s.rxLen)
    (hperiod : 0 < s.period) (hfit : s.params.capBnd < (s.cpBoundaries s.cpScores).length) :
    exec .synccp s = .next (s.raise .bufferCapacity (Word.ofNat (s.cpBoundaries s.cpScores).length)) := by
  rw [exec, execSynccp, State.timingChecks_of hc hcap hlong]
  exact (if_pos hfit).trans (fail_bounds_of_length _ (State.cpBoundaries_length_le hperiod _))

theorem exec_synccp_of_le (hc : s.cfgv = true) (hcap : s.rxLen ≤ s.params.capRxb) (hlong : s.period ≤ s.rxLen)
    (hfit : (s.cpBoundaries s.cpScores).length ≤ s.params.capBnd) :
    exec .synccp s = .next (s.writeTiming s.cpScores (s.cpBoundaries s.cpScores)) := by
  rw [exec, execSynccp, State.timingChecks_of hc hcap hlong]
  exact if_neg (not_lt.mpr hfit)

/-- Settles O41: the scores and the list of the statement are the model's own, and `State.writeTiming` writes them. -/
theorem synccpWritesScoresAndBoundaries : Obligations.SynccpWritesScoresAndBoundaries := by
  intro s hs hc hcap hlong score list
  obtain ⟨hperiod, -⟩ := (hs.grid hc).period_bounds
  have hlength : score.length = s.rxLen := cpScores_length s
  refine ⟨exec_synccp_of_lt hc hcap hlong hperiod, fun hfit => ?_⟩
  obtain ⟨hscr, hbnd⟩ := writeTiming_holds hs (hlength.trans_le hcap) hfit
  rw [hlength] at hscr
  exact ⟨_, exec_synccp_of_le hc hcap hlong hfit, hscr, hbnd, State.writeTiming_detf _ _,
    writeTiming_otherFlags s _ _, writeTiming_frame s _ _⟩

/-! ## SYNCPSS (43_timing_sync.md R162) -/

theorem State.pssBoundaries_length_le (hperiod : 0 < s.period) (o : Option Int) :
    (s.pssBoundaries o).length ≤ s.rxLen := by
  cases o with
  | none => exact Nat.zero_le _
  | some f => exact progression_length_le f hperiod

theorem exec_syncpss_of_lt (hc : s.cfgv = true) (hcap : s.rxLen ≤ s.params.capRxb) (hlong : s.period ≤ s.rxLen)
    (hperiod : 0 < s.period) (hfit : s.params.capBnd < (s.pssBoundaries (s.pssStart th s.pssScores)).length) :
    exec (.syncpss th) s =
      .next (s.raise .bufferCapacity (Word.ofNat (s.pssBoundaries (s.pssStart th s.pssScores)).length)) := by
  rw [exec, execSyncpss, State.timingChecks_of hc hcap hlong]
  exact (if_pos hfit).trans (fail_bounds_of_length _ (State.pssBoundaries_length_le hperiod _))

theorem exec_syncpss_of_le (hc : s.cfgv = true) (hcap : s.rxLen ≤ s.params.capRxb) (hlong : s.period ≤ s.rxLen)
    (hfit : (s.pssBoundaries (s.pssStart th s.pssScores)).length ≤ s.params.capBnd) :
    exec (.syncpss th) s =
      .next ((s.writeTiming s.pssScores (s.pssBoundaries (s.pssStart th s.pssScores))).noteStart
        (s.pssStart th s.pssScores)) := by
  rw [exec, execSyncpss, State.timingChecks_of hc hcap hlong]
  exact if_neg (not_lt.mpr hfit)

/-- With an exact comparison, `firstAbove` is the first score above the threshold, and nothing where every score is 0. -/
theorem ExactLt.firstAbove_eq {ρ : Nat → ℝ} {lt : RNum → RNum → Bool} (h : ExactLt ρ lt) {threshold : RNum}
    {score : List RNum} {first : Option Nat} (hzero : (∀ a ∈ score, a.val ρ = 0) → first = none)
    (hsome : (∃ a ∈ score, a.val ρ ≠ 0) → first = score.findIdx? fun a => lt threshold a) :
    firstAbove lt threshold score = first := by
  rw [firstAbove]
  split_ifs with hall
  · exact (hzero ((Sys2Proof.ExactLt.allZero h score).mp hall)).symm
  · rw [Sys2Proof.ExactLt.allZero h score] at hall
    push Not at hall
    exact (hsome hall).symm

/-- The two writes of `SYNCPSS` together. -/
theorem writeTiming_noteStart_frame (s : State) (score : List RNum) (list : List Nat) (o : Option Int) :
    OnlyChanges [0x00, 0x18, 0x25, 0x26] [.scr, .bnd] s ((s.writeTiming score list).noteStart o) :=
  ((writeTiming_frame s score list).trans (noteStart_frame _ o)).mono (by decide) (by decide)

/-- Settles O45: the scores are the model's own, `first` is its first offset by `ExactLt.firstAbove_eq`, and the frame start is
written beside what `SYNCCP` writes. -/
theorem syncpssWritesScoresAndBoundaries : Obligations.SyncpssWritesScoresAndBoundaries := by
  intro th s hs hc hcap hlong ref score first hzero hsome list
  have hvalid := hs.grid hc
  obtain ⟨hperiod, -⟩ := hvalid.period_bounds
  obtain ⟨hsize, -⟩ := hvalid.sizes
  have hshort : s.sizeN ≤ s.rxLen := (Nat.le_add_right _ _).trans hlong
  have hcount : s.rxLen + 1 - s.sizeN = s.rxLen - s.sizeN + 1 := by omega
  have hscore : s.pssScores = score := by
    rw [State.pssScores, pssScores, hcount]
    rfl
  have hfirst : firstAbove RNum.lt (s.pssThreshold th) score = first := exactLt_lt.firstAbove_eq hzero hsome
  have hstart : s.pssStart th s.pssScores = first.map fun k : Nat => (k : Int) - s.pssCorr.toInt := by
    rw [hscore, State.pssStart, hfirst]
  have hlist : s.pssBoundaries (s.pssStart th s.pssScores) = list := by
    rw [hstart]
    cases first <;> rfl
  have hlength : s.pssScores.length = s.rxLen - s.sizeN + 1 := (pssScores_length s).trans hcount
  rw [← hscore, ← hlist]
  refine ⟨exec_syncpss_of_lt hc hcap hlong hperiod, fun hfit => ?_⟩
  obtain ⟨hscr, hbnd⟩ := writeTiming_holds hs (hlength.trans_le (by omega)) hfit
  rw [hlength] at hscr
  refine ⟨_, exec_syncpss_of_le hc hcap hlong hfit, hscr.noteStart _, hbnd.noteStart _, ?_, ?_, ?_, ?_,
    writeTiming_noteStart_frame s _ _ _⟩
  · rw [State.detf, noteStart_status]
    exact State.writeTiming_detf _ _
  · intro hnone
    rw [hstart, hnone]
    rfl
  · intro k hk hlow hhigh
    rw [hstart, hk]
    exact State.writeFrameStart_toInt hlow hhigh
  · rw [noteStart_status]
    exact writeTiming_otherFlags s _ _

/-! ## Silence (43_timing_sync.md R152, R156, R164, R171) -/

theorem abs_zero_eq_zero : Cplx.zero.abs = .zero := by decide +kernel

theorem forall_mem_tabulate {α : Type} {P : α → Prop} {n : Nat} {f : Nat → α} (h : ∀ k, k < n → P (f k)) :
    ∀ a ∈ tabulate n f, P a := by
  intro a ha
  obtain ⟨k, hk, rfl⟩ := List.mem_map.mp ha
  exact h k (List.mem_range.mp hk)

theorem nth_of_zeros {l : List RNum} (h : ∀ a ∈ l, a = .zero) (k : Nat) : RNum.nth l k = .zero := by
  rw [RNum.nth, List.getD]
  cases hk : l[k]? with
  | none => rfl
  | some a => exact h a (List.mem_of_getElem? hk)

/-- The scores of `SYNCCP` on samples that are all 0: every window wraps within them. -/
theorem cpScores_of_silence (hpos : 0 < s.rxLen) (hsilent : ∀ k, k < s.rxLen → s.rxbAt k = Cplx.zero) :
    ∀ a ∈ s.cpScores, a = .zero := by
  have hraw : ∀ a ∈ tabulate s.rxLen (cpRaw RNum.lt s.rxbAt s.rxLen s.sizeN s.sizeCP s.corrCplx), a = .zero :=
    forall_mem_tabulate fun k _ => by
      have hwindow : ∀ t, t < s.sizeCP → circular s.rxbAt s.rxLen (k + s.sizeN) t = Cplx.zero :=
        fun t _ => hsilent _ (Nat.mod_lt _ hpos)
      rw [cpRaw, corr_zero hwindow, abs_zero_eq_zero]
  rw [State.cpScores, cpScores, normalise_zero hraw]
  exact hraw

/-- The scores of `SYNCPSS` on samples that are all 0: every window ends within them. -/
theorem pssScores_of_silence (hsilent : ∀ k, k < s.rxLen → s.rxbAt k = Cplx.zero) :
    ∀ a ∈ s.pssScores, a = .zero := by
  have hraw : ∀ a ∈ tabulate (s.rxLen + 1 - s.sizeN) (pssRaw RNum.lt s.rxbAt s.sizeN s.reference s.corrCplx), a = .zero :=
    forall_mem_tabulate fun k hk => by
      have hwindow : ∀ t, t < s.sizeN → window s.rxbAt k t = Cplx.zero := fun t ht => hsilent _ (by omega)
      rw [pssRaw, corr_zero hwindow, abs_zero_eq_zero]
  rw [State.pssScores, pssScores, normalise_zero hraw]
  exact hraw

/-- Scores that are all 0 give no boundary, whatever the thresholds (log 22). -/
theorem cpBoundaries_of_zeros (s : State) {score : List RNum} (h : ∀ a ∈ score, a = .zero) : s.cpBoundaries score = [] :=
  cpBoundaries_allZero (allZero_zero h) _ _ _ _

/-- Scores that are all 0 give no frame start, whatever the threshold (log 22). -/
theorem pssStart_of_zeros (s : State) (th : Bool) {score : List RNum} (h : ∀ a ∈ score, a = .zero) :
    s.pssStart th score = none := by
  rw [State.pssStart, firstAbove_allZero (allZero_zero h), Option.map_none]

/-- Settles O43: the scores of silence are 0, so both commands write the empty list, which fits any `BND`. -/
theorem silenceIsNoFrame : Obligations.SilenceIsNoFrame := by
  intro s hs hc hcap hlong hsilent
  obtain ⟨hperiod, -⟩ := (hs.grid hc).period_bounds
  refine ⟨?_, fun th => ?_⟩
  · have hscore := cpScores_of_silence (hperiod.trans_le hlong) hsilent
    have hlist := cpBoundaries_of_zeros s hscore
    have hexec := exec_synccp_of_le hc hcap hlong (by rw [hlist]; exact Nat.zero_le _)
    rw [hlist] at hexec
    have hlength := cpScores_length s
    obtain ⟨hscr, hbnd, -⟩ := writeTiming_holds hs (list := []) (hlength.trans_le hcap) (Nat.zero_le _)
    obtain ⟨-, hread⟩ := hscr.congr fun k _ => congrArg ElemValue.real (nth_of_zeros hscore k)
    refine ⟨_, hexec, State.writeTiming_detf _ _, hbnd, State.writeTiming_err _ _, fun i hi => ?_⟩
    rw [hread, if_pos (hlength.symm ▸ hi)]
  · have hstart := pssStart_of_zeros s th (pssScores_of_silence hsilent)
    have hexec := exec_syncpss_of_le (th := th) hc hcap hlong (by rw [hstart]; exact Nat.zero_le _)
    rw [hstart] at hexec
    exact ⟨_, hexec, State.writeTiming_detf _ _, rfl, State.writeTiming_err _ _, rfl⟩

end Sys2Proof.Machine
end

section
/-! PROOFS. `CFOEST`, `CFOROT` and `CFOCORR`: their faults in order, the estimate as an angle of complex numbers, the buffer
turned back sample by sample, and the joint command as the two others in turn (44_cfo.md R180 to R186). -/

namespace Sys2Proof.Machine

open Sys2Proof

variable {s : State} {i : Instr} {go : Outcome}

/-! ## The checks, in their order (44_cfo.md R183, R186) -/

theorem cfoChecks_of_capacity (hc : s.cfgv = true) (hcap : s.params.capRxb < s.rxLen) :
    s.cfoChecks i go = .next (s.raise .bufferCapacity s.len.rxb) := by
  rw [State.cfoChecks, State.whenConfigured_of hc, if_pos hcap, State.rxLen, infoOf_toNat, State.fail]

theorem whenInRange_of_outside
    (h : s.frameStart.toInt < 0 ∨ (s.rxLen : Int) < s.frameStart.toInt + (s.period : Int)) :
    s.whenInRange go = .next (s.raise .bufferRange s.frameStart) := if_pos h

/-- Settles O49: the three commands begin with the same checks, and two of them go on with the range check. -/
theorem cfoFaults : Obligations.CfoFaults := by
  intro s hc
  refine ⟨fun hcap => ⟨cfoChecks_of_capacity hc hcap, cfoChecks_of_capacity hc hcap, cfoChecks_of_capacity hc hcap⟩,
    fun hcap hout => ⟨?_, ?_⟩⟩
  · exact (State.cfoChecks_of hc hcap).trans (whenInRange_of_outside hout)
  · exact (State.cfoChecks_of hc hcap).trans (whenInRange_of_outside hout)

/-! ## The commands when every check passes -/

theorem exec_cforot_of_fits (hc : s.cfgv = true) (hcap : s.rxLen ≤ s.params.capRxb) :
    exec .cforot s = .next (s.derotateRxb s.cfoHz) := State.cfoChecks_of hc hcap

theorem exec_cfoest_of_inRange (hc : s.cfgv = true) (hcap : s.rxLen ≤ s.params.capRxb) (hstart : 0 ≤ s.frameStart.toInt)
    (hend : s.frameStart.toInt + (s.period : Int) ≤ (s.rxLen : Int)) :
    exec .cfoest s = .next (s.writeCfo s.estPhase (s.phaseHz s.estPhase)) :=
  (State.cfoChecks_of hc hcap).trans (State.whenInRange_of hstart hend)

theorem exec_cfocorr_of_inRange (hc : s.cfgv = true) (hcap : s.rxLen ≤ s.params.capRxb)
    (hstart : 0 ≤ s.frameStart.toInt) (hend : s.frameStart.toInt + (s.period : Int) ≤ (s.rxLen : Int)) :
    exec .cfocorr s =
      .next ((s.writeCfo s.estPhase (s.phaseHz s.estPhase)).derotateRxb (s.phaseHz s.estPhase)) :=
  (State.cfoChecks_of hc hcap).trans (State.whenInRange_of hstart hend)

/-- Settles O48: the estimate leaves the record and the length alone, so the checks of `CFOROT` pass after it, and the offset
it reads is the one just written. -/
theorem cfocorrIsEstimateThenDerotate : Obligations.CfocorrIsEstimateThenDerotate := by
  intro s hc hcap hstart hend
  have hrot := exec_cforot_of_fits (s := s.writeCfo s.estPhase (s.phaseHz s.estPhase)) hc hcap
  exact ⟨_, _, exec_cfoest_of_inRange hc hcap hstart hend, hrot, exec_cfocorr_of_inRange hc hcap hstart hend⟩

/-! ## The estimate (44_cfo.md R181, R182) -/

theorem startCorr_val (ρ : Nat → ℝ) (s : State) :
    s.startCorr.val ρ = ∑ k ∈ Finset.range s.sizeN,
      (starRingEnd ℂ) ((syncRef s.consts.syncRoot.toNat s.sizeN k).val ρ) *
        (s.rxbAt (s.frameStart.toInt.toNat + s.sizeCP + k)).val ρ := by
  rw [State.startCorr, dot_val]
  refine Finset.sum_congr rfl fun k hk => ?_
  rw [State.reference, Cplx.nth_tabulate _ _ (Finset.mem_range.mp hk)]
  rfl

theorem estPhase_val (ρ : Nat → ℝ) (s : State) : s.estPhase.val ρ = (s.startCorr.val ρ).arg := Cplx.val_arg ρ _

theorem phaseHz_val (ρ : Nat → ℝ) (s : State) (phi : RNum) :
    (s.phaseHz phi).val ρ = phi.val ρ * s.consts.scsHz.val ρ / (2 * Real.pi) := by
  simp [State.phaseHz]

/-- An angle in `(-π, π]` gives at most half the subcarrier spacing. -/
theorem abs_phaseHz_le {ρ : Nat → ℝ} {phi : RNum} (hphi : |phi.val ρ| ≤ Real.pi) (hscs : 0 ≤ s.consts.scsHz.val ρ) :
    |(s.phaseHz phi).val ρ| ≤ s.consts.scsHz.val ρ / 2 := by
  have hpi := Real.pi_pos
  rw [phaseHz_val, abs_div, abs_mul, abs_of_nonneg hscs, abs_of_pos (mul_pos two_pos hpi), div_le_iff₀ (by positivity)]
  calc |phi.val ρ| * s.consts.scsHz.val ρ ≤ Real.pi * s.consts.scsHz.val ρ := mul_le_mul_of_nonneg_right hphi hscs
    _ = s.consts.scsHz.val ρ / 2 * (2 * Real.pi) := by ring

/-- Settles O46: the dot product is a sum of complex numbers, and its angle is at most π in size. -/
theorem cfoestEstimatesOffset : Obligations.CfoestEstimatesOffset := by
  intro s hc hcap hstart hend
  refine ⟨_, exec_cfoest_of_inRange hc hcap hstart hend, writeCfo_frame s _ _, fun ρ => ⟨?_, ?_, ?_⟩⟩
  · rw [State.writeCfo_cfoPhase, estPhase_val, startCorr_val]
  · exact phaseHz_val ρ s _
  · exact abs_phaseHz_le ((congrArg abs (estPhase_val ρ s)).trans_le (Complex.abs_arg_le_pi _))

/-! ## No offset (44_cfo.md R185) -/

/-- The reference against `a` times itself: `a` times its energy. -/
theorem startCorr_val_of_multiple {ρ : Nat → ℝ} {a : ℝ}
    (hcopy : ∀ k, k < s.sizeN → (s.rxbAt (s.frameStart.toInt.toNat + s.sizeCP + k)).val ρ =
      (a : ℂ) * (syncRef s.consts.syncRoot.toNat s.sizeN k).val ρ) :
    s.startCorr.val ρ =
      ((a * ∑ k ∈ Finset.range s.sizeN, ‖(syncRef s.consts.syncRoot.toNat s.sizeN k).val ρ‖ ^ 2 : ℝ) : ℂ) := by
  rw [startCorr_val, Finset.mul_sum, Complex.ofReal_sum]
  refine Finset.sum_congr rfl fun k hk => ?_
  rw [hcopy k (Finset.mem_range.mp hk), mul_left_comm, Complex.conj_mul']
  push_cast
  rfl

/-- Settles O50: the dot product is then a non-negative real number, whose angle is 0; a command that faulted would have
set `ERR`. -/
theorem zeroOffsetEstimatesZero : Obligations.ZeroOffsetEstimatesZero := by
  intro ρ s t a _ hexec herr ha hcopy
  obtain ⟨c, v, rfl⟩ | ⟨-, -, -, -, rfl⟩ := execCfoest_cases hexec
  · rw [State.raise_err] at herr
    cases herr
  · have hphase : s.estPhase.val ρ = 0 := by
      rw [estPhase_val, startCorr_val_of_multiple hcopy, Complex.arg_ofReal_of_nonneg (by positivity)]
    rw [State.writeCfo_cfoPhase, State.writeCfo_cfoHz, phaseHz_val, hphase, zero_mul, zero_div]
    exact ⟨rfl, rfl⟩

/-! ## The de-rotation (44_cfo.md R183) -/

/-- The angle by which sample `n` is turned. -/
theorem derotated_val (ρ : Nat → ℝ) (s : State) (hz : RNum) (n : Nat) :
    (s.derotated hz n).val ρ = (s.rxbAt n).val ρ *
      Complex.exp ((-(2 * Real.pi * hz.val ρ * n / (s.sizeN * s.consts.scsHz.val ρ)) : ℝ) * Complex.I) := by
  simp [State.derotated, State.sampleRate]

theorem norm_derotated (ρ : Nat → ℝ) (s : State) (hz : RNum) (n : Nat) :
    ‖(s.derotated hz n).val ρ‖ = ‖(s.rxbAt n).val ρ‖ := by
  rw [derotated_val, norm_mul, Complex.norm_exp_ofReal_mul_I, mul_one]

theorem derotated_val_zero (ρ : Nat → ℝ) (s : State) (hz : RNum) :
    (s.derotated hz 0).val ρ = (s.rxbAt 0).val ρ := by
  simp [derotated_val]

/-- Settles O47: `State.derotateRxb` writes the samples `State.derotated`, each the old one times `exp` of an imaginary
number. -/
theorem cforotDerotatesBuffer : Obligations.CforotDerotatesBuffer := by
  intro s hc hcap
  refine ⟨_, s.derotated s.cfoHz, exec_cforot_of_fits hc hcap, derotateRxb_frame s _, derotateRxb_holds _ hcap,
    fun hempty => if_pos hempty, fun ρ n _ => ⟨?_, norm_derotated ρ s _ n, ?_⟩⟩
  · rw [derotated_val]
    congr 2
    push_cast
    ring
  · rintro rfl
    exact derotated_val_zero ρ s _

end Sys2Proof.Machine
end

section
/-! PROOFS. The steps of `DEMOD` on one row: interpolation between pilots, equalization and the pilot strip, and the outlier
rejection of the stream (45_demodulator.md R197 to R202, R205, R206). -/

namespace Sys2Proof.Machine

open Sys2Proof

variable {ρ : Nat → ℝ} {lt : RNum → RNum → Bool} {points : List (Nat × RNum)} {q : List Nat} {pv : Cplx} {h : List Cplx}
  {pos : Nat}

/-! ## Interpolation (45_demodulator.md R198, R199) -/

/-- Up to the first position the value is held. -/
theorem interpolate_of_le_head {c : Nat × RNum} (hpos : pos ≤ c.1) : interpolate (c :: points) pos = c.2 := by
  cases points with
  | nil => rfl
  | cons d rest => exact if_pos hpos

/-- Beyond the second position the first one plays no part. -/
theorem interpolate_of_gt_second {c d : Nat × RNum} (hpos : d.1 < pos) (hcd : c.1 < d.1) :
    interpolate (c :: d :: points) pos = interpolate (d :: points) pos := by
  rw [interpolate]
  simp only [if_neg (not_le.mpr hpos), if_neg (not_le.mpr (hcd.trans hpos))]

/-- Between the first two positions the value is on the straight line through them. -/
theorem interpolate_segment_val {c d : Nat × RNum} (hc : c.1 ≤ pos) (hd : pos ≤ d.1) :
    (interpolate (c :: d :: points) pos).val ρ =
      c.2.val ρ + (d.2.val ρ - c.2.val ρ) * ((pos : ℝ) - c.1) / ((d.1 : ℝ) - c.1) := by
  rcases hc.eq_or_lt with rfl | hlt
  · rw [interpolate_of_le_head le_rfl, sub_self, mul_zero, zero_div, add_zero]
  · rw [interpolate]
    simp only [if_neg (not_le.mpr hlt), if_pos hd, RNum.val_plus, RNum.val_quot, RNum.val_times, RNum.val_sub,
      RNum.val_ofNat, Nat.cast_sub hc, Nat.cast_sub (hc.trans hd)]

/-- From the second position on the first one plays no part in the value: the line ends at the second. -/
theorem interpolate_tail_val {c d : Nat × RNum} (hcd : c.1 < d.1) (hpos : d.1 ≤ pos) :
    (interpolate (c :: d :: points) pos).val ρ = (interpolate (d :: points) pos).val ρ := by
  rcases hpos.eq_or_lt with rfl | hlt
  · have hne : (d.1 : ℝ) - c.1 ≠ 0 := sub_ne_zero.mpr (Nat.cast_injective.ne hcd.ne')
    rw [interpolate_segment_val hcd.le le_rfl, interpolate_of_le_head le_rfl, mul_div_cancel_right₀ _ hne,
      add_sub_cancel]
  · rw [interpolate_of_gt_second hlt hcd]

/-- From position `i` of the pilots on, those before it play no part. -/
theorem interpolate_drop_val {i : Nat} {c : Nat × RNum} (hrising : (points.map Prod.fst).Pairwise (· < ·))
    (hi : points[i]? = some c) (hpos : c.1 ≤ pos) :
    (interpolate points pos).val ρ = (interpolate (points.drop i) pos).val ρ := by
  induction i generalizing points with
  | zero => rfl
  | succ i ih =>
    match points, hrising, hi with
    | a :: b :: rest, hrising, hi =>
      obtain ⟨hfirst, hrest⟩ := List.pairwise_cons.mp hrising
      have hbc : b.1 ≤ c.1 := by
        cases i with
        | zero => exact (congrArg Prod.fst (Option.some.inj hi)).le
        | succ i =>
          obtain ⟨hb, -⟩ := List.pairwise_cons.mp hrest
          exact (hb _ (List.mem_map_of_mem (List.mem_of_getElem? hi))).le
      rw [interpolate_tail_val (hfirst _ (by simp)) (hbc.trans hpos), List.drop_succ_cons]
      exact ih hrest hi

theorem drop_eq_cons_of_getElem? {α : Type} {l : List α} {i : Nat} {a : α} (hi : l[i]? = some a) :
    l.drop i = a :: l.drop (i + 1) := by
  obtain ⟨hlt, rfl⟩ := List.getElem?_eq_some_iff.mp hi
  exact List.drop_eq_getElem_cons hlt

/-- At a pilot position the value is the pilot's own. -/
theorem interpolate_pilot_val (hrising : (points.map Prod.fst).Pairwise (· < ·)) {c : Nat × RNum} (hc : c ∈ points) :
    (interpolate points c.1).val ρ = c.2.val ρ := by
  obtain ⟨i, hi⟩ := List.mem_iff_getElem?.mp hc
  rw [interpolate_drop_val hrising hi le_rfl, drop_eq_cons_of_getElem? hi, interpolate_of_le_head le_rfl]

/-- Settles O55: in each clause the pilots before the position play no part, and what is left begins with the pilot or the
segment of the clause. -/
theorem interpolationIsPiecewiseLinear : Obligations.InterpolationIsPiecewiseLinear := by
  intro ρ points hrising
  refine ⟨fun c => interpolate_pilot_val hrising, fun i q0 q1 v0 v1 pos h0 h1 hlow hhigh => ?_,
    fun q0 v0 pos hhead hpos => ?_, fun q1 v1 pos hlast hpos => ?_⟩
  · rw [interpolate_drop_val hrising h0 hlow, drop_eq_cons_of_getElem? h0, drop_eq_cons_of_getElem? h1]
    exact interpolate_segment_val hlow hhigh
  · obtain ⟨rest, rfl⟩ := List.head?_eq_some_iff.mp hhead
    rw [interpolate_of_le_head hpos]
  · have hi := List.getLast?_eq_getElem? ▸ hlast
    have hend : points.drop (points.length - 1 + 1) = [] := List.drop_eq_nil_of_le (by omega)
    rw [interpolate_drop_val hrising hi hpos, drop_eq_cons_of_getElem? hi, hend]
    rfl

/-- Between estimates that are all `c` the interpolated value is `c`. -/
theorem interpolate_const_val {c : ℝ} (hne : points ≠ []) (hc : ∀ p ∈ points, p.2.val ρ = c) :
    (interpolate points pos).val ρ = c := by
  induction points with
  | nil => exact absurd rfl hne
  | cons a rest ih =>
    have ha : a.2.val ρ = c := hc a (by simp)
    cases rest with
    | nil => exact ha
    | cons b rest =>
      have hb : b.2.val ρ = c := hc b (by simp)
      have htail := ih (by simp) fun p hp => hc p (List.mem_cons_of_mem _ hp)
      rw [interpolate]
      split_ifs
      · exact ha
      · simp [ha, hb]
      · exact htail

/-! ## Equalization (45_demodulator.md R197, R200, R201) -/

theorem phasePoints_fst (q : List Nat) (pv : Cplx) (h : List Cplx) : (phasePoints q pv h).map Prod.fst = q := by
  simp [phasePoints, Function.comp_def]

theorem ampPoints_fst (q : List Nat) (h : List Cplx) : (ampPoints q h).map Prod.fst = q := by
  simp [ampPoints, Function.comp_def]

theorem phasePoints_val (ρ : Nat → ℝ) {c : Nat × RNum} (hc : c ∈ phasePoints q pv h) :
    c.2.val ρ = ((Cplx.nth h c.1).val ρ).arg - (pv.val ρ).arg := by
  obtain ⟨pos, -, rfl⟩ := List.mem_map.mp hc
  rw [RNum.val_sub, Cplx.val_arg, Cplx.val_arg]

theorem ampPoints_val (ρ : Nat → ℝ) {c : Nat × RNum} (hc : c ∈ ampPoints q h) :
    c.2.val ρ = ‖(Cplx.nth h c.1).val ρ‖ := by
  obtain ⟨pos, -, rfl⟩ := List.mem_map.mp hc
  exact Cplx.val_abs ρ _

theorem nth_map_zipIdx (f : Cplx × Nat → Cplx) (hpos : pos < h.length) :
    Cplx.nth (h.zipIdx.map f) pos = f (Cplx.nth h pos, pos) := by
  simp [Cplx.nth, List.getD, hpos]

theorem phaseCorrect_length (q : List Nat) (pv : Cplx) (h : List Cplx) : (phaseCorrect q pv h).length = h.length := by
  simp [phaseCorrect]

theorem equalize_length (q : List Nat) (pv : Cplx) (aq : Bool) (h : List Cplx) :
    (equalize q pv aq h).length = h.length := by
  cases aq <;> simp [equalize, ampCorrect, phaseCorrect_length]

/-- The phase correction turns every position back by its interpolated phase. -/
theorem equalize_phase_val (ρ : Nat → ℝ) (q : List Nat) (pv : Cplx) (hpos : pos < h.length) :
    (Cplx.nth (equalize q pv false h) pos).val ρ = (Cplx.nth h pos).val ρ *
      Complex.exp (-(Complex.I * ((interpolate (phasePoints q pv h) pos).val ρ : ℂ))) := by
  have hturn : Cplx.nth (equalize q pv false h) pos =
      (Cplx.nth h pos).times (Cplx.cis (interpolate (phasePoints q pv h) pos).minus) := nth_map_zipIdx _ hpos
  rw [hturn, Cplx.val_times, Cplx.val_cis, RNum.val_minus, Complex.ofReal_neg, neg_mul, mul_comm Complex.I]

/-- The amplitude correction scales what the phase correction leaves. -/
theorem equalize_amplitude_val (ρ : Nat → ℝ) (q : List Nat) (pv : Cplx) (hpos : pos < h.length) :
    (Cplx.nth (equalize q pv true h) pos).val ρ = (Cplx.nth (equalize q pv false h) pos).val ρ *
      (‖pv.val ρ‖ : ℂ) / ((interpolate (ampPoints q h) pos).val ρ : ℂ) := by
  have hscale : Cplx.nth (equalize q pv true h) pos = Cplx.scale
      (pv.abs.quot (RNum.nth (ampVector q h) pos)) (Cplx.nth (equalize q pv false h) pos) :=
    nth_map_zipIdx _ (by rwa [phaseCorrect_length])
  rw [hscale, ampVector, RNum.nth_tabulate _ _ hpos, Cplx.val_scale, RNum.val_quot, Cplx.val_abs, Complex.ofReal_div]
  ring

/-- A number turned back by its own angle and forward by `t`. -/
theorem mul_exp_neg_arg_sub (z : ℂ) (t : ℝ) :
    z * Complex.exp (-(Complex.I * ((z.arg - t : ℝ) : ℂ))) = ‖z‖ * Complex.exp (t * Complex.I) := by
  calc z * Complex.exp (-(Complex.I * ((z.arg - t : ℝ) : ℂ)))
      = ‖z‖ * Complex.exp (z.arg * Complex.I) * Complex.exp (-(Complex.I * ((z.arg - t : ℝ) : ℂ))) := by
        rw [Complex.norm_mul_exp_arg_mul_I]
    _ = ‖z‖ * Complex.exp (t * Complex.I) := by
        rw [mul_assoc, ← Complex.exp_add]
        congr 2
        push_cast
        ring

/-- The interpolated phase at a pilot is the pilot's own, so that it gets the angle of the pilot value. -/
theorem equalize_phase_pilot_val (ρ : Nat → ℝ) (hrising : q.Pairwise (· < ·)) (hq : pos ∈ q) (hpos : pos < h.length) :
    (Cplx.nth (equalize q pv false h) pos).val ρ =
      (‖(Cplx.nth h pos).val ρ‖ : ℂ) * Complex.exp ((pv.val ρ).arg * Complex.I) := by
  have hmem : (pos, (Cplx.nth h pos).arg.sub pv.arg) ∈ phasePoints q pv h := List.mem_map_of_mem hq
  have hphase := interpolate_pilot_val (ρ := ρ) (by rwa [phasePoints_fst]) hmem
  rw [phasePoints_val ρ hmem] at hphase
  rw [equalize_phase_val ρ q pv hpos, hphase, mul_exp_neg_arg_sub]

/-- The interpolated amplitude at a pilot is its magnitude. -/
theorem interpolate_amp_pilot_val (ρ : Nat → ℝ) (hrising : q.Pairwise (· < ·)) (hq : pos ∈ q) :
    (interpolate (ampPoints q h) pos).val ρ = ‖(Cplx.nth h pos).val ρ‖ := by
  have hmem : (pos, (Cplx.nth h pos).abs) ∈ ampPoints q h := List.mem_map_of_mem hq
  exact (interpolate_pilot_val (by rwa [ampPoints_fst]) hmem).trans (ampPoints_val ρ hmem)

/-- Settles O56: both corrections position by position, and at a pilot the interpolated estimates are its own. -/
theorem equalizationRestoresPilots : Obligations.EqualizationRestoresPilots := by
  intro ρ q pv h
  refine ⟨⟨phasePoints_fst q pv h, fun c => phasePoints_val ρ⟩, ⟨ampPoints_fst q h, fun c => ampPoints_val ρ⟩,
    fun aq => equalize_length q pv aq h, fun pos hpos => ⟨equalize_phase_val ρ q pv hpos, ?_⟩,
    fun hrising pos hq hpos => ⟨equalize_phase_pilot_val ρ hrising hq hpos, fun hne => ?_⟩⟩
  · rw [equalize_amplitude_val ρ q pv hpos, equalize_phase_val ρ q pv hpos]
  · have hnorm : (‖(Cplx.nth h pos).val ρ‖ : ℂ) ≠ 0 := Complex.ofReal_ne_zero.mpr (norm_ne_zero_iff.mpr hne)
    rw [equalize_amplitude_val ρ q pv hpos, equalize_phase_pilot_val ρ hrising hq hpos,
      interpolate_amp_pilot_val ρ hrising hq, mul_assoc, mul_div_cancel_left₀ _ hnorm, mul_comm,
      Complex.norm_mul_exp_arg_mul_I]

/-! ## The pilot strip (45_demodulator.md R202) -/

/-- Where the positions `q` are those of the elements that fail `p`, the strip keeps the elements that satisfy it. -/
theorem strip_map {l : List Nat} {p : Nat → Bool} (f : Nat → Cplx)
    (hp : ∀ i k, l[i]? = some k → (i ∉ q ↔ p k = true)) : strip q (l.map f) = (l.filter p).map f := by
  have hkeep : l.zipIdx.filter ((fun v => !q.contains v.2) ∘ Prod.map f id) = l.zipIdx.filter (p ∘ Prod.fst) := by
    refine List.filter_congr fun v hv => Bool.eq_iff_iff.mpr ?_
    simpa using hp v.2 v.1 (List.mem_zipIdx_iff_getElem?.mp hv)
  calc strip q (l.map f)
      = ((l.zipIdx.filter (p ∘ Prod.fst)).map (Prod.map f id)).map Prod.fst := by
        rw [strip, List.zipIdx_map, List.filter_map, hkeep]
    _ = ((l.zipIdx.filter (p ∘ Prod.fst)).map Prod.fst).map f := by rw [List.map_map, List.map_map]; rfl
    _ = (l.filter p).map f := by rw [← List.filter_map, List.zipIdx_map_fst]

theorem State.setA_nodup (s : State) : s.setA.Nodup := (activeSet_pairwise _ _ _).imp fun h => h.ne

/-- With a valid record, the carrier at position `i` of `A` is the one with row position `i`. -/
theorem State.GridValid.setA_getElem?_iff {s : State} (hs : s.GridValid) {i k : Nat} :
    s.setA[i]? = some k ↔ k ∈ s.setA ∧ rowPos s.edgeLo s.center k = i := by
  have hrow : k ∈ s.setA → s.setA[rowPos s.edgeLo s.center k]? = some k :=
    activeSet_getElem?_rowPos hs.edge hs.center_lt_edgeHi
  refine ⟨fun hi => ?_, fun ⟨hk, hi⟩ => hi ▸ hrow hk⟩
  have hk := List.mem_of_getElem? hi
  obtain ⟨hlt, -⟩ := List.getElem?_eq_some_iff.mp (hrow hk)
  exact ⟨hk, (List.getElem?_inj hlt s.setA_nodup).mp ((hrow hk).trans hi.symm)⟩

/-- The position of a carrier of `A` is a pilot position exactly for a pilot. -/
theorem State.GridValid.mem_pilotPos_iff {s : State} (hs : s.GridValid) {i k : Nat} (hi : s.setA[i]? = some k) :
    i ∈ s.pilotPos ↔ k ∈ s.pilots := by
  obtain ⟨hk, rfl⟩ := hs.setA_getElem?_iff.mp hi
  refine ⟨fun hq => ?_, fun hp => List.mem_map_of_mem hp⟩
  obtain ⟨j, hj, hjk⟩ := List.mem_map.mp hq
  have hat := hs.setA_getElem?_iff.mpr ⟨hs.pilots_active j hj, hjk⟩
  exact Option.some.inj (hat.symm.trans hi) ▸ hj

/-- Settles O57: the stripped positions are those of the pilots, and `A` without the pilots is `D`. -/
theorem pilotStripLeavesData : Obligations.PilotStripLeavesData := by
  intro s f hs
  refine strip_map f fun i k hi => ?_
  rw [hs.mem_pilotPos_iff hi]
  simp

/-! ## Outlier rejection (45_demodulator.md R205, R206) -/

/-- The values of the scaled stream, `mx` being the peak magnitude. -/
theorem scaleToRadius_val (hlt : ExactLt ρ lt) (radius : RNum) {y : List Cplx} {mx : ℝ} (hle : ∀ z ∈ y, ‖z.val ρ‖ ≤ mx)
    (hmx : ∃ z ∈ y, ‖z.val ρ‖ = mx) :
    (scaleToRadius lt radius y).map (fun z => z.val ρ) =
      y.map fun z => if mx = 0 then z.val ρ else z.val ρ * (radius.val ρ : ℂ) / (mx : ℂ) := by
  obtain ⟨z, hz, hzmx⟩ := hmx
  have hpeak : (maxOf lt (y.map Cplx.abs)).val ρ = mx := by
    obtain ⟨hmem, hmax⟩ := maxOf_spec hlt (List.ne_nil_of_mem (List.mem_map_of_mem (f := Cplx.abs) hz))
    obtain ⟨w, hw, hwmx⟩ := List.mem_map.mp hmem
    refine le_antisymm ?_ ?_
    · rw [← hwmx, Cplx.val_abs]
      exact hle w hw
    · rw [← hzmx, ← Cplx.val_abs]
      exact hmax _ (List.mem_map_of_mem hz)
  have hzero := ExactLt.isZero hlt (maxOf lt (y.map Cplx.abs))
  rw [hpeak] at hzero
  rw [scaleToRadius]
  by_cases h0 : mx = 0
  · simp only [if_pos (hzero.mpr h0), if_pos h0]
  · simp only [if_neg (mt hzero.mp h0), if_neg h0, List.map_map]
    refine List.map_congr_left fun w _ => ?_
    apply Complex.ext <;> simp [hpeak, Complex.div_ofReal_re, Complex.div_ofReal_im]

/-- With an exact comparison, the band is the open one. -/
theorem inBand_iff (hlt : ExactLt ρ lt) (lo hi : RNum) (z : Cplx) :
    inBand lt lo hi z = true ↔ lo.val ρ < ‖z.val ρ‖ ∧ ‖z.val ρ‖ < hi.val ρ := by
  rw [inBand, Bool.and_eq_true, hlt, hlt, Cplx.val_abs]

theorem scaleToRadius_nil (lt : RNum → RNum → Bool) (radius : RNum) : scaleToRadius lt radius [] = [] := by
  simp [scaleToRadius]

/-- Settles O58: the values of the scaled stream, and the band as a condition on values alone. -/
theorem outlierRejectionKeepsBand : Obligations.OutlierRejectionKeepsBand := by
  classical
  intro ρ lt t y mx hlt hle hmx scaled keep
  have hband : ∀ z, inBand lt t.outLo t.outHi z = true ↔ keep (z.val ρ) := inBand_iff hlt t.outLo t.outHi
  have hscaled : (scaleToRadius lt t.outRadius y).map (fun z => z.val ρ) = scaled := by
    obtain rfl | hmx := hmx
    · rw [scaleToRadius_nil]
      rfl
    · exact scaleToRadius_val hlt t.outRadius hle hmx
  refine ⟨fun z hz => (hband z).mp (List.of_mem_filter hz), fun z => decide (keep z), fun z => decide_eq_true_iff, ?_⟩
  rw [← hscaled, List.filter_map, outlier]
  exact congrArg _ (List.filter_congr fun z _ => Bool.eq_iff_iff.mpr ((hband z).trans decide_eq_true_iff.symm))

end Sys2Proof.Machine
end

section
/-! PROOFS. `DEMOD`: its checks one by one in the order of R208, and the stream it writes (45_demodulator.md R190 to R209). -/

namespace Sys2Proof.Machine

open Sys2Proof

variable {s : State} {sub xs eq aq ps sk orj : Bool} {rows : List (List Cplx)} {pos : Nat}

/-! ## The used boundaries (45_demodulator.md R192, R193) -/

theorem usedBoundaries_eq_ite (xs : Bool) (l : List Nat) :
    usedBoundaries xs l = if xs then (l.zipIdx.filter fun b => decide (b.2 % 6 ≠ 0)).map Prod.fst else l := by
  cases xs <;> simp [usedBoundaries]

/-- The used boundaries by their list positions. -/
theorem usedBoundaries_tabulate (xs : Bool) (n : Nat) (f : Nat → Nat) :
    usedBoundaries xs (tabulate n f) = ((List.range n).filter fun k => !(xs && decide (k % 6 = 0))).map f := by
  have hzip : (tabulate n f).zipIdx = (List.range n).map fun k => (f k, k) := by
    refine List.ext_getElem? fun i => ?_
    rw [List.getElem?_zipIdx, tabulate_getElem?, List.getElem?_map]
    split_ifs with hi <;> simp [hi]
  rw [usedBoundaries, hzip, List.filter_map, List.map_map]
  rfl

theorem outOfRange_eq_none_iff :
    s.outOfRange xs = none ↔ ∀ b ∈ usedBoundaries xs s.bounds, b + s.period ≤ s.rxLen := by
  simp [State.outOfRange]

/-- The first used boundary whose symbol leaves the buffer is the one reported. -/
theorem outOfRange_eq_some {j : Nat} (hj : j < s.bndLen) (hused : ¬ (xs = true ∧ j % 6 = 0))
    (hout : s.rxLen < s.bndAt j + s.period)
    (hfirst : ∀ i, i < j → ¬ (xs = true ∧ i % 6 = 0) → s.bndAt i + s.period ≤ s.rxLen) :
    s.outOfRange xs = some (s.bndAt j) := by
  have hiff : ∀ k, (!(xs && decide (k % 6 = 0))) = true ↔ ¬ (xs = true ∧ k % 6 = 0) := by cases xs <;> simp
  have hfind : (List.range s.bndLen).find? (fun k => decide ((!(xs && decide (k % 6 = 0))) = true ∧
      decide (s.rxLen < s.bndAt k + s.period) = true)) = some j := by
    refine List.find?_range_eq_some.mpr
      ⟨decide_eq_true ⟨(hiff j).mpr hused, decide_eq_true hout⟩, List.mem_range.mpr hj, fun i hi => ?_⟩
    rw [Bool.not_eq_true', decide_eq_false_iff_not, hiff, decide_eq_true_eq, not_and]
    exact fun hu => not_lt.mpr (hfirst i hi hu)
  rw [State.outOfRange, State.bounds, linear, usedBoundaries_tabulate, List.find?_map, List.find?_filter]
  exact congrArg (Option.map s.bndAt) hfind

/-! ## The command, check by check (45_demodulator.md R208) -/

theorem exec_demod_of_samples (hc : s.cfgv = true) (hrx : s.params.capRxb < s.rxLen) :
    exec (.demod sub xs eq aq ps sk orj) s = .next (s.raise .bufferCapacity s.len.rxb) := by
  rw [exec, execDemod, State.whenConfigured_of hc, if_pos hrx, State.rxLen, infoOf_toNat, State.fail]

theorem exec_demod_of_boundaries (hc : s.cfgv = true) (hrx : s.rxLen ≤ s.params.capRxb)
    (hbnd : s.params.capBnd < s.bndLen) :
    exec (.demod sub xs eq aq ps sk orj) s = .next (s.raise .bufferCapacity s.len.bnd) := by
  rw [exec, execDemod, State.whenConfigured_of hc, if_neg (by omega), if_pos hbnd, State.bndLen, infoOf_toNat, State.fail]

/-- With lengths within the capacities, what is left are the checks of the pilots and of the boundaries. -/
theorem exec_demod_of_lengths (hc : s.cfgv = true) (hrx : s.rxLen ≤ s.params.capRxb) (hbnd : s.bndLen ≤ s.params.capBnd) :
    exec (.demod sub xs eq aq ps sk orj) s =
      if eq && decide (s.rowPilots sub < 2) then s.fail .pilotGeometry (infoOf (s.rowPilots sub))
      else match s.outOfRange xs with
        | some b => s.fail .bufferRange (infoOf b)
        | none => s.demodRows sub eq aq ps sk orj (s.rawRows sub xs) :=
  (State.whenConfigured_of hc).trans ((if_neg (not_lt.mpr hrx)).trans (if_neg (not_lt.mpr hbnd)))

/-- `EQ` on data-only rows, which hold no pilot. -/
theorem exec_demod_of_dataOnly (hc : s.cfgv = true) (hrx : s.rxLen ≤ s.params.capRxb)
    (hbnd : s.bndLen ≤ s.params.capBnd) :
    exec (.demod true xs true aq ps sk orj) s = .next (s.raise .pilotGeometry 0#32) := by
  rw [exec_demod_of_lengths hc hrx hbnd]
  rfl

/-- The pilots of the rows pass the check where there are two of them or none are needed. -/
theorem pilots_pass (hpil : eq = true → sub = false ∧ 2 ≤ s.sizePC) :
    ¬ (eq && decide (s.rowPilots sub < 2)) = true := by
  rw [Bool.and_eq_true, decide_eq_true_eq]
  rintro ⟨heq, hlt⟩
  obtain ⟨rfl, hcount⟩ := hpil heq
  exact absurd hlt (not_lt.mpr hcount)

theorem exec_demod_of_range (hc : s.cfgv = true) (hrx : s.rxLen ≤ s.params.capRxb) (hbnd : s.bndLen ≤ s.params.capBnd)
    (hpil : eq = true → sub = false ∧ 2 ≤ s.sizePC) {b : Nat} (hout : s.outOfRange xs = some b) :
    exec (.demod sub xs eq aq ps sk orj) s = .next (s.raise .bufferRange (infoOf b)) := by
  rw [exec_demod_of_lengths hc hrx hbnd, if_neg (pilots_pass hpil), hout]
  rfl

theorem exec_demod_of_checks (hc : s.cfgv = true) (hrx : s.rxLen ≤ s.params.capRxb) (hbnd : s.bndLen ≤ s.params.capBnd)
    (hpil : eq = true → sub = false ∧ 2 ≤ s.sizePC)
    (hin : ∀ b ∈ usedBoundaries xs s.bounds, b + s.period ≤ s.rxLen) :
    exec (.demod sub xs eq aq ps sk orj) s = s.demodRows sub eq aq ps sk orj (s.rawRows sub xs) := by
  rw [exec_demod_of_lengths hc hrx hbnd, if_neg (pilots_pass hpil), outOfRange_eq_none_iff.mpr hin]

/-- Settles O53: each clause is one check that fails after those before it have passed. -/
theorem demodFaultsInOrder : Obligations.DemodFaultsInOrder := by
  intro sub xs eq aq ps sk orj s hc go
  refine ⟨exec_demod_of_samples hc, exec_demod_of_boundaries hc, fun hrx hbnd heq hsub => ?_,
    fun hrx hbnd hpil j hj hused hout hfirst => ?_⟩
  · subst heq hsub
    exact exec_demod_of_dataOnly hc hrx hbnd
  · exact ⟨_, exec_demod_of_range hc hrx hbnd hpil (outOfRange_eq_some hj hused hout hfirst), infoOf_of_lt⟩

/-! ## Amplitudes that are 0 (45_demodulator.md R201; log 13) -/

/-- The interpolated amplitude at position `pos` of the row `h` is 0. -/
def ZeroAmpAt (ρ : Nat → ℝ) (q : List Nat) (h : List Cplx) (pos : Nat) : Prop :=
  pos < h.length ∧ (interpolate (ampPoints q h) pos).val ρ = 0

section ZeroAmp

variable {ρ : Nat → ℝ} {lt : RNum → RNum → Bool} {q : List Nat} {h : List Cplx}

theorem zeroAmp_eq_some_iff (hlt : ExactLt ρ lt) :
    zeroAmp lt q h = some pos ↔ ZeroAmpAt ρ q h pos ∧ ∀ j, j < pos → ¬ ZeroAmpAt ρ q h j := by
  simp only [zeroAmp, List.findIdx?_eq_some_iff_getElem, ampVector, tabulate_length, ExactLt.isZero hlt, ZeroAmpAt]
  simp only [tabulate, List.getElem_map, List.getElem_range, exists_prop, and_assoc]
  exact and_congr_right fun hpos => and_congr_right fun _ => forall₂_congr fun j hj => by simp [hj.trans hpos]

theorem zeroAmp_eq_none_iff (hlt : ExactLt ρ lt) : zeroAmp lt q h = none ↔ ∀ pos, ¬ ZeroAmpAt ρ q h pos := by
  simp only [zeroAmp, List.findIdx?_eq_none_iff, ampVector, tabulate, List.forall_mem_map, List.mem_range,
    ← Bool.not_eq_true, ExactLt.isZero hlt, ZeroAmpAt, not_and]

theorem firstZeroAmp_eq_findSome? (lt : RNum → RNum → Bool) (q : List Nat) (rows : List (List Cplx)) :
    firstZeroAmp lt q rows = rows.findSome? (zeroAmp lt q) := by
  induction rows with
  | nil => rfl
  | cons h rest ih =>
    rw [firstZeroAmp, List.findSome?_cons, ih]
    cases zeroAmp lt q h <;> rfl

/-- The least zero of the first row that has one is the one found. -/
theorem firstZeroAmp_eq_some (hlt : ExactLt ρ lt) {r : Nat} (hr : rows[r]? = some h) (hzero : ZeroAmpAt ρ q h pos)
    (hleast : ∀ j, j < pos → ¬ ZeroAmpAt ρ q h j)
    (hfirst : ∀ r' h' j, r' < r → rows[r']? = some h' → ¬ ZeroAmpAt ρ q h' j) :
    firstZeroAmp lt q rows = some pos := by
  have hsplit : rows = rows.take r ++ h :: rows.drop (r + 1) := by
    rw [← drop_eq_cons_of_getElem? hr, List.take_append_drop]
  rw [firstZeroAmp_eq_findSome?, List.findSome?_eq_some_iff]
  refine ⟨_, h, _, hsplit, (zeroAmp_eq_some_iff hlt).mpr ⟨hzero, hleast⟩, fun h' hh' => ?_⟩
  obtain ⟨r', hr'⟩ := List.mem_iff_getElem?.mp hh'
  rw [List.getElem?_take] at hr'
  split_ifs at hr' with hlow
  exact (zeroAmp_eq_none_iff hlt).mpr fun j => hfirst r' h' j hlow hr'

theorem firstZeroAmp_eq_none (hlt : ExactLt ρ lt) (hzero : ∀ h ∈ rows, ∀ j, ¬ ZeroAmpAt ρ q h j) :
    firstZeroAmp lt q rows = none := by
  rw [firstZeroAmp_eq_findSome?, List.findSome?_eq_none_iff]
  exact fun h hh => (zeroAmp_eq_none_iff hlt).mpr (hzero h hh)

end ZeroAmp

/-! ## The stream (45_demodulator.md R203 to R207) -/

/-- The stream that `DEMOD` makes of given rows of steps 1 to 4. -/
noncomputable def State.recovered (s : State) (sub eq aq ps sk orj : Bool) (rows : List (List Cplx)) : List Cplx :=
  s.stream (s.rowWidth sub ps) sk orj (rows.map (s.finishRow eq aq ps))

theorem demodRows_of_zero (hcorr : (eq && aq) = true) (hzero : firstZeroAmp RNum.lt s.pilotPos rows = some pos) :
    s.demodRows sub eq aq ps sk orj rows = .next (s.raise .divideByZero (infoOf pos)) := by
  rw [State.demodRows, if_pos hcorr, hzero]
  rfl

theorem demodRows_of_nonzero (hzero : (eq && aq) = true → firstZeroAmp RNum.lt s.pilotPos rows = none) :
    s.demodRows sub eq aq ps sk orj rows =
      if s.params.capSym < (s.recovered sub eq aq ps sk orj rows).length then
        .next (s.raise .bufferCapacity (infoOf (s.recovered sub eq aq ps sk orj rows).length))
      else .next (s.writeSym (s.recovered sub eq aq ps sk orj rows) (s.rowWidth sub ps)) := by
  have hnone : (if eq && aq then firstZeroAmp RNum.lt s.pilotPos rows else none) = none := by
    split_ifs with hcorr
    · exact hzero hcorr
    · rfl
  rw [State.demodRows, hnone]
  rfl

theorem demodRows_of_overflow (hzero : (eq && aq) = true → firstZeroAmp RNum.lt s.pilotPos rows = none)
    (hfit : s.params.capSym < (s.recovered sub eq aq ps sk orj rows).length) :
    s.demodRows sub eq aq ps sk orj rows =
      .next (s.raise .bufferCapacity (infoOf (s.recovered sub eq aq ps sk orj rows).length)) := by
  rw [demodRows_of_nonzero hzero, if_pos hfit]

theorem demodRows_of_fits (hzero : (eq && aq) = true → firstZeroAmp RNum.lt s.pilotPos rows = none)
    (hfit : (s.recovered sub eq aq ps sk orj rows).length ≤ s.params.capSym) :
    s.demodRows sub eq aq ps sk orj rows =
      .next (s.writeSym (s.recovered sub eq aq ps sk orj rows) (s.rowWidth sub ps)) := by
  rw [demodRows_of_nonzero hzero, if_neg (not_lt.mpr hfit)]

/-- A stream that fits is what `SYM` holds. -/
theorem writeSym_holds_of_fits {l : List Cplx} {cols : Nat} (hs : s.Inv) (hfit : l.length ≤ s.params.capSym) :
    Holds (s.writeSym l cols) .sym l.length fun k => .cplx (Cplx.nth l k) := by
  obtain ⟨-, -, -, -, hcap, -⟩ := hs.caps
  exact writeSym_holds (by omega) hfit

/-- With no equalization and no amplitude correction there is no amplitude to check. -/
theorem recovered_plain (s : State) (sub : Bool) (rows : List (List Cplx)) :
    s.recovered sub false false false false false rows = rows.flatten := by
  have hfinish : s.finishRow false false false = id := rfl
  rw [State.recovered, hfinish, List.map_id]
  rfl

/-! ## Flattened rows (45_demodulator.md R203) -/

section Flatten

variable {α : Type} {l : List (List α)} {w : Nat}

theorem flatten_length_of_width (hw : ∀ h ∈ l, h.length = w) : l.flatten.length = l.length * w := by
  rw [List.length_flatten, List.sum_eq_card_nsmul _ w (by simpa using hw), List.length_map, smul_eq_mul]

/-- Element `r·W + p` of the flattened rows is element `p` of row `r`. -/
theorem flatten_getElem?_of_width (hw : ∀ h ∈ l, h.length = w) {r p : Nat} {h : List α} (hr : l[r]? = some h)
    (hp : p < w) : l.flatten[r * w + p]? = h[p]? := by
  induction l generalizing r with
  | nil => simp at hr
  | cons a rest ih =>
    have ha : a.length = w := hw a (by simp)
    rw [List.flatten_cons]
    cases r with
    | zero =>
      obtain rfl : a = h := by simpa using hr
      rw [List.getElem?_append_left (by omega), Nat.zero_mul, Nat.zero_add]
    | succ r =>
      rw [List.getElem?_append_right (by rw [Nat.succ_mul]; omega), ha,
        show (r + 1) * w + p - w = r * w + p by rw [Nat.succ_mul]; omega]
      exact ih (fun b hb => hw b (List.mem_cons_of_mem _ hb)) (by simpa using hr)

end Flatten

/-! ## Carriers as received (45_demodulator.md R193 to R196) -/

/-- A received value is the forward transform of the body of its symbol, at the shifted index. -/
theorem received_val (ρ : Nat → ℝ) (s : State) (b k : Nat) :
    (s.received b k).val ρ = ∑ n ∈ Finset.range s.sizeN, (s.rxbAt (b + s.sizeCP + n)).val ρ *
      Complex.exp (-(Complex.I * 2 * Real.pi * (((k + s.sizeN / 2) % s.sizeN : Nat) : ℂ) * n / (s.sizeN : ℂ))) := by
  simp only [State.received, shift, dft_val, rootOfUnity_pow, Complex.exp_neg]
  rfl

theorem rawRows_length (s : State) (sub xs : Bool) :
    (s.rawRows sub xs).length = (usedBoundaries xs s.bounds).length := List.length_map _

theorem rawRows_width (s : State) (sub xs : Bool) : ∀ h ∈ s.rawRows sub xs, h.length = (s.extracted sub).length := by
  intro h hh
  obtain ⟨b, -, rfl⟩ := List.mem_map.mp hh
  exact List.length_map _

/-- Element `p` of row `r` of the flattened rows. -/
theorem rawRows_flatten_nth {r p b k : Nat} (hr : (usedBoundaries xs s.bounds)[r]? = some b)
    (hp : (s.extracted sub)[p]? = some k) :
    Cplx.nth (s.rawRows sub xs).flatten (r * (s.extracted sub).length + p) = s.received b k := by
  have hrow : (s.rawRows sub xs)[r]? = some (s.rowAt (s.extracted sub) b) := by
    rw [State.rawRows, List.getElem?_map, hr, Option.map_some]
  obtain ⟨hlt, -⟩ := List.getElem?_eq_some_iff.mp hp
  rw [Cplx.nth, List.getD, flatten_getElem?_of_width (rawRows_width s sub xs) hrow hlt, State.rowAt, List.getElem?_map, hp]
  rfl

/-- Settles O51: no check fails, the stream is the rows flattened, and an element of it is a transform. -/
theorem demodExtractsCarriers : Obligations.DemodExtractsCarriers := by
  intro sub xs s used idx hs hc hrx hbnd hused hidx hin hfit
  obtain rfl : used = usedBoundaries xs s.bounds := hused.trans (usedBoundaries_eq_ite xs _).symm
  obtain rfl : idx = s.extracted sub := hidx
  have hlength : (s.rawRows sub xs).flatten.length = (usedBoundaries xs s.bounds).length * (s.extracted sub).length := by
    rw [flatten_length_of_width (rawRows_width s sub xs), rawRows_length]
  have hexec := exec_demod_of_checks (sub := sub) (eq := false) (aq := false) (ps := false) (sk := false) (orj := false)
    hc hrx hbnd nofun hin
  have hshort : (s.recovered sub false false false false false (s.rawRows sub xs)).length ≤ s.params.capSym := by
    rwa [recovered_plain, hlength]
  rw [demodRows_of_fits (by simp) hshort, recovered_plain] at hexec
  refine ⟨_, Cplx.nth (s.rawRows sub xs).flatten, hexec, writeSym_frame s _ _, rfl, ?_, fun ρ r p b k hr hp => ?_⟩
  · rw [← hlength] at hfit ⊢
    exact writeSym_holds_of_fits hs hfit
  · rw [rawRows_flatten_nth hr hp, received_val]

/-! ## Every legal combination of flags -/

/-- The row width in force (R195, R202): a strip is legal only on rows over `A` (R191). -/
theorem State.GridValid.rowWidth_eq (h : s.GridValid) (hps : ¬ (ps = true ∧ sub = true)) :
    s.rowWidth sub ps = if sub || ps then s.sizeND else s.grid.nActive.toNat := by
  obtain ⟨-, -, -, -, hA, hD⟩ := activeCarrierSets s h
  cases sub <;> cases ps
  · exact hA
  · rfl
  · exact hD
  · exact absurd ⟨rfl, rfl⟩ hps

theorem demod_wellFormed_iff :
    Instr.WellFormed (.demod sub xs eq aq ps sk orj) ↔ (aq = true → eq = true) ∧ ¬ (ps = true ∧ sub = true) := by
  cases sub <;> cases eq <;> cases aq <;> cases ps <;> simp [Instr.WellFormed, Instr.wellFormed]

/-- A row over `A` is short enough for its positions to fit 32 bits. -/
theorem State.GridValid.length_rawRow (hv : s.GridValid) {h : List Cplx} (hh : h ∈ s.rawRows false xs) :
    h.length < 4294967296 := by
  obtain ⟨-, -, -, -, hA, -⟩ := activeCarrierSets s hv
  rw [rawRows_width s false xs h hh, State.extracted, if_neg Bool.false_ne_true, hA]
  exact s.grid.nActive.isLt

/-- Settles O52: the checks pass, a zero amplitude is the one that `firstZeroAmp` finds, and the stream is
`State.recovered`. -/
theorem demodWritesStream : Obligations.DemodWritesStream := by
  intro sub xs eq aq ps sk orj s used rows w x y hs hc hrx hbnd hwf hdata hused hin hrows hw hx hy go zero
  have hv := hs.grid hc
  obtain ⟨hcorr, hstrip⟩ := demod_wellFormed_iff.mp hwf
  obtain rfl : used = usedBoundaries xs s.bounds := hused.trans (usedBoundaries_eq_ite xs _).symm
  obtain rfl : rows = s.rawRows sub xs := hrows
  obtain rfl : w = s.rowWidth sub ps := hw.trans (hv.rowWidth_eq hstrip).symm
  obtain rfl : y = s.recovered sub eq aq ps sk orj (s.rawRows sub xs) := by
    rw [hy, hx]
    cases sk <;> rfl
  have hsub : eq = true → sub = false := fun heq => by
    rw [← Bool.not_eq_true]
    exact fun hsub => hdata ⟨heq, hsub⟩
  have hgo : go = s.demodRows sub eq aq ps sk orj (s.rawRows sub xs) :=
    exec_demod_of_checks hc hrx hbnd (fun heq => ⟨hsub heq, hv.count⟩) hin
  refine ⟨fun haq r pos hzero hfirst hleast => ?_, fun hnone => ?_⟩
  · have heq := hcorr haq
    obtain ⟨h, hr, hpos, hval⟩ := hzero
    have hfind := firstZeroAmp_eq_some exactLt_lt hr ⟨hpos, hval⟩ (fun j hj hj0 => hleast j hj ⟨h, hr, hj0⟩)
      fun r' h' j hlow hr' hj0 => hfirst r' j hlow ⟨h', hr', hj0⟩
    have hlength : h.length < 4294967296 := by
      have hmem := List.mem_of_getElem? hr
      rw [hsub heq] at hmem
      exact hv.length_rawRow hmem
    rw [hgo, demodRows_of_zero (by rw [heq, haq]; rfl) hfind, infoOf_of_lt (hpos.trans hlength)]
  · have hzero : (eq && aq) = true → firstZeroAmp RNum.lt s.pilotPos (s.rawRows sub xs) = none := fun hboth => by
      obtain ⟨-, haq⟩ := Bool.and_eq_true_iff.mp hboth
      refine firstZeroAmp_eq_none exactLt_lt fun h hh j hj0 => ?_
      obtain ⟨r, hr⟩ := List.mem_iff_getElem?.mp hh
      exact hnone haq r j ⟨h, hr, hj0⟩
    refine ⟨fun hfit => ⟨_, hgo.trans (demodRows_of_overflow hzero hfit), infoOf_of_lt⟩, fun hfit => ?_⟩
    exact ⟨_, hgo.trans (demodRows_of_fits hzero hfit), writeSym_holds_of_fits hs hfit, rfl, writeSym_frame s _ _⟩

/-! ## No used boundary (45_demodulator.md R209) -/

theorem outlier_nil (lt : RNum → RNum → Bool) (t : Tuning) : outlier lt t [] = [] := by
  rw [outlier, scaleToRadius_nil, List.filter_nil]

/-- Settles O54: the case of `DemodWritesStream` with no row, where no amplitude is 0 and the stream is empty. -/
theorem demodOfNoBoundaryIsEmpty : Obligations.DemodOfNoBoundaryIsEmpty := by
  intro sub xs eq aq ps sk orj s hs hc hrx hbnd hwf hdata hempty
  have hused : [] = if xs then ((tabulate s.bndLen s.bndAt).zipIdx.filter fun b => decide (b.2 % 6 ≠ 0)).map Prod.fst
      else tabulate s.bndLen s.bndAt := by
    obtain h0 | ⟨rfl, h1⟩ := hempty
    · rw [h0, ← usedBoundaries_eq_ite]
      rfl
    · rw [h1]
      rfl
  obtain ⟨-, hrun⟩ := demodWritesStream sub xs eq aq ps sk orj s [] [] _ [] [] hs hc hrx hbnd hwf hdata hused nofun rfl rfl
    List.drop_nil.symm (by rw [outlier_nil, ite_self])
  obtain ⟨-, hfit⟩ := hrun fun _ r pos ⟨h, hr, _⟩ => by simp at hr
  obtain ⟨t, hexec, ⟨hlen, hread⟩, hcols, hframe⟩ := hfit (Nat.zero_le _)
  have hregs := hframe.left
  refine ⟨t, hexec, hlen, fun i => (hread i).trans (if_neg (Nat.not_lt_zero i)), hcols.trans (congrArg _ ?_), ?_, hframe⟩
  · split_ifs <;> exact Word.ofNat_toNat _
  · exact CsrValue.word.inj (hregs 0x00 (by decide))

end Sys2Proof.Machine
end

section
/-! PROOFS. The round trip: a frame that `MOD` made from one block of payload, copied to `RXB`, is recovered by `DEMOD`
(45_demodulator.md R212). Every received row is `AMP` times its grid row, so the phase estimates are 0 and the amplitude
estimates are `AMP` times the magnitude of the pilot value. -/

namespace Sys2Proof.Machine

open Sys2Proof

variable {s : State} {aq : Bool} {m i k r : Nat}

/-! ## A row whose pilots are scaled by one positive number (45_demodulator.md R197 to R201) -/

section ScaledPilots

variable {ρ : Nat → ℝ} {q : List Nat} {pv : Cplx} {h : List Cplx} {a : ℝ} {pos : Nat}

/-- The phase estimates are 0, so the phase correction changes nothing. -/
theorem equalize_phase_of_scaled_pilots (ha : 0 < a) (hq : q ≠ [])
    (hpil : ∀ p ∈ q, (Cplx.nth h p).val ρ = (a : ℂ) * pv.val ρ) (hpos : pos < h.length) :
    (Cplx.nth (equalize q pv false h) pos).val ρ = (Cplx.nth h pos).val ρ := by
  have hphase : (interpolate (phasePoints q pv h) pos).val ρ = 0 := by
    refine interpolate_const_val (by simpa [phasePoints] using hq) fun c hc => ?_
    have hcq : c.1 ∈ q := phasePoints_fst q pv h ▸ List.mem_map_of_mem hc
    rw [phasePoints_val ρ hc, hpil _ hcq, Complex.arg_real_mul _ ha, sub_self]
  rw [equalize_phase_val ρ q pv hpos, hphase]
  simp

theorem interpolate_amp_of_scaled_pilots (ha : 0 < a) (hq : q ≠ [])
    (hpil : ∀ p ∈ q, (Cplx.nth h p).val ρ = (a : ℂ) * pv.val ρ) :
    (interpolate (ampPoints q h) pos).val ρ = a * ‖pv.val ρ‖ := by
  refine interpolate_const_val (by simpa [ampPoints] using hq) fun c hc => ?_
  have hcq : c.1 ∈ q := ampPoints_fst q h ▸ List.mem_map_of_mem hc
  rw [ampPoints_val ρ hc, hpil _ hcq, norm_mul, Complex.norm_of_nonneg ha.le]

/-- Equalization takes the factor of the pilots off the row with the amplitude correction, and leaves it without. -/
theorem equalize_of_scaled_pilots (aq : Bool) (ha : 0 < a) (hq : q ≠ []) (hpv : pv.val ρ ≠ 0)
    (hpil : ∀ p ∈ q, (Cplx.nth h p).val ρ = (a : ℂ) * pv.val ρ) (hpos : pos < h.length) {z : ℂ}
    (hz : (Cplx.nth h pos).val ρ = (a : ℂ) * z) :
    (Cplx.nth (equalize q pv aq h) pos).val ρ = if aq then z else (a : ℂ) * z := by
  have hphase := equalize_phase_of_scaled_pilots ha hq hpil hpos
  cases aq
  · exact hphase.trans hz
  · have ha0 : (a : ℂ) ≠ 0 := Complex.ofReal_ne_zero.mpr ha.ne'
    have hnorm : (‖pv.val ρ‖ : ℂ) ≠ 0 := Complex.ofReal_ne_zero.mpr (norm_ne_zero_iff.mpr hpv)
    rw [equalize_amplitude_val ρ q pv hpos, hphase, hz, interpolate_amp_of_scaled_pilots ha hq hpil, if_pos rfl]
    push_cast
    field_simp

end ScaledPilots

/-! ## The pilot strip by positions (45_demodulator.md R202) -/

/-- A row over `A` by the positions of its carriers. -/
theorem State.GridValid.row_eq_map (hs : s.GridValid) {e : List Cplx} (he : e.length = s.setA.length) :
    e = s.setA.map fun k => Cplx.nth e (rowPos s.edgeLo s.center k) := by
  refine List.ext_getElem (by rw [List.length_map, he]) fun i h1 h2 => ?_
  obtain ⟨-, hrow⟩ := hs.setA_getElem?_iff.mp (List.getElem?_eq_getElem (he ▸ h1))
  rw [List.getElem_map, hrow, Cplx.nth, List.getD_eq_getElem _ _ h1]

theorem State.GridValid.strip_eq_map (hs : s.GridValid) {e : List Cplx} (he : e.length = s.setA.length) :
    strip s.pilotPos e = s.setD.map fun k => Cplx.nth e (rowPos s.edgeLo s.center k) := by
  conv_lhs => rw [hs.row_eq_map he]
  exact pilotStripLeavesData s _ hs

/-! ## The state of the round trip (45_demodulator.md R212) -/

/-- The state after `MOD flat` in which the host has copied `TXO` to `RXB` and set the six boundaries of the slot. -/
def State.looped (s : State) : State :=
  let t := s.writeTxo s.frame 1 (s.symbolCount * s.period)
  { t with
    mem := { t.mem with rxb := t.mem.txo, bnd := .ofList (tabulate 6 fun k => k * t.period) }
    len := { t.len with rxb := t.len.txo, bnd := 6#32 } }

/-- One block of payload makes one slot of six symbols (42_modulator.md R131, R134). -/
theorem symbolCount_of_one_block (hnd : 0 < s.sizeND) (hpay : s.payLen = s.sizeND) : s.symbolCount = 6 := by
  have hblock : s.blockCount = 1 := by
    rw [blockCount_of_data (hpay ▸ hnd) hnd, hpay]
    exact Nat.div_eq_of_lt_le (by omega) (by omega)
  rw [State.symbolCount, State.dataRows, hblock]

/-- Neither `MOD` nor the copy writes the record. -/
theorem looped_pilotPos (s : State) : s.looped.pilotPos = s.pilotPos := rfl

theorem looped_rxLen (hfit : s.symbolCount * s.period < 4294967296) : s.looped.rxLen = s.symbolCount * s.period := by
  have hlen : s.looped.rxLen = (Word.ofNat s.frame.length).toNat := rfl
  rw [hlen, frame_length, Word.toNat_ofNat_of_lt hfit]

/-- `RXB` holds the frame, symbol by symbol. -/
theorem looped_rxbAt (hm : m < s.symbolCount) (hi : i < s.period) :
    s.looped.rxbAt (m * s.period + i) = s.frameSample s.pilots s.setD m i := by
  have hlt : m * s.period + i < s.frame.length := (position_lt hm hi).trans_eq (frame_length s).symm
  have hread : s.looped.rxbAt (m * s.period + i) =
      ((Buf.ofList s.frame).get? (m * s.period + i)).getD (Config.freeCplx s.gen .rxb (m * s.period + i)) := rfl
  rw [hread, Buf.get?_ofList, ← frame_nth hm hi, Cplx.nth, List.getD, List.getElem?_eq_getElem hlt]
  rfl

/-- With `XS` the boundary of the synchronization symbol is left out (R192). -/
theorem looped_used (s : State) :
    usedBoundaries true s.looped.bounds = (List.range 5).map fun r => (r + 1) * s.period := by
  have hpositions : (List.range 6).filter (fun k => !(true && decide (k % 6 = 0))) = (List.range 5).map (· + 1) := by
    decide
  have hbounds : s.looped.bounds = tabulate 6 s.looped.bndAt := rfl
  rw [hbounds, usedBoundaries_tabulate, hpositions, List.map_map]
  refine List.map_congr_left fun r hr => ?_
  have hread : s.looped.bndAt (r + 1) =
      ((Buf.ofList (tabulate 6 fun k => k * s.period)).get? (r + 1)).getD (Config.freeOffset s.gen .bnd (r + 1)) := rfl
  rw [Function.comp_apply, hread, Buf.get?_ofList, tabulate_getElem?,
    if_pos (Nat.succ_lt_succ (List.mem_range.mp hr)), Option.getD_some]

/-- A received carrier is `AMP` times that of the grid row (42_modulator.md R145 (c)). -/
theorem looped_received_val (ρ : Nat → ℝ) (hs : s.GridValid) (hm : m < s.symbolCount) (hk : k < s.sizeN) :
    (s.looped.received (m * s.period) k).val ρ =
      (s.consts.txAmplitude.val ρ : ℂ) * (s.gridRow s.pilots s.setD m k).val ρ := by
  have hbody : (s.looped.received (m * s.period) k).val ρ =
      (dft s.sizeN (window s.looped.rxbAt (m * s.period + s.sizeCP)) ((k + s.sizeN / 2) % s.sizeN)).val ρ := rfl
  rw [← bodySpectrumIsGridRow ρ s m k hs hk, hbody, shift, dft_val, dft_val]
  refine Finset.sum_congr rfl fun j hj => ?_
  have hi : s.sizeCP + j < s.period := by
    rw [State.period, Nat.add_comm]
    exact Nat.add_lt_add_right (Finset.mem_range.mp hj) _
  rw [window, Nat.add_assoc, looped_rxbAt hm hi]

/-! ## The rows of the round trip -/

/-- The row that `DEMOD` extracts from symbol `m`. -/
def State.loopedRow (s : State) (m : Nat) : List Cplx := s.setA.map (s.looped.received (m * s.period))

theorem loopedRow_length (s : State) (m : Nat) : (s.loopedRow m).length = s.setA.length := List.length_map _

theorem looped_rawRows (s : State) : s.looped.rawRows false true = (List.range 5).map fun r => s.loopedRow (r + 1) := by
  rw [State.rawRows, looped_used, List.map_map]
  rfl

theorem loopedRow_nth_val (ρ : Nat → ℝ) (hs : s.GridValid) (hm : m < s.symbolCount) (hk : k ∈ s.setA) :
    (Cplx.nth (s.loopedRow m) (rowPos s.edgeLo s.center k)).val ρ =
      (s.consts.txAmplitude.val ρ : ℂ) * (s.gridRow s.pilots s.setD m k).val ρ := by
  obtain ⟨-, hhi, -⟩ := mem_activeSet.mp hk
  obtain ⟨hsize, -⟩ := hs.sizes
  have hlow := hs.lowEdge
  have hkN : k < s.sizeN := by
    simp only [State.edgeHi, State.edgeLo] at hhi hlow
    omega
  have hrow := hs.setA_getElem?_iff.mpr ⟨hk, rfl⟩
  rw [Cplx.nth, List.getD, State.loopedRow, List.getElem?_map, hrow]
  exact looped_received_val ρ hs hm hkN

/-- The pilots of a data row are received as `AMP` times the pilot value. -/
theorem loopedRow_pilot_val (ρ : Nat → ℝ) (hs : s.GridValid) (hm : m < s.symbolCount) (hdata : m % 6 ≠ 0) :
    ∀ p ∈ s.pilotPos, (Cplx.nth (s.loopedRow m) p).val ρ =
      ((s.consts.txAmplitude.val ρ : ℝ) : ℂ) * s.consts.pilotValue.val ρ := by
  intro p hp
  obtain ⟨k, hk, rfl⟩ := List.mem_map.mp hp
  rw [loopedRow_nth_val ρ hs hm (hs.pilots_active k hk), gridRow_data hdata, dataRow_pilot hk]

theorem State.GridValid.pilotPos_ne_nil (hs : s.GridValid) : s.pilotPos ≠ [] := by
  have hcount := hs.count
  refine List.ne_nil_of_length_pos ?_
  rw [State.pilotPos, List.length_map, State.pilots_length]
  omega

/-- No interpolated amplitude of a data row is 0. -/
theorem loopedRow_no_zeroAmp (ρ : Nat → ℝ) (hs : s.GridValid) (hallowed : s.consts.Allowed) (hm : m < s.symbolCount)
    (hdata : m % 6 ≠ 0) (pos : Nat) : ¬ ZeroAmpAt ρ s.pilotPos (s.loopedRow m) pos := by
  have ha := hallowed.amplitude ρ
  rintro ⟨-, hzero⟩
  rw [interpolate_amp_of_scaled_pilots ha hs.pilotPos_ne_nil (loopedRow_pilot_val ρ hs hm hdata)] at hzero
  exact (mul_pos ha (norm_pos_iff.mpr (hallowed.pilot ρ))).ne' hzero

/-- The row as `DEMOD` finishes it: equalized and stripped. -/
def State.loopedData (s : State) (aq : Bool) (m : Nat) : List Cplx :=
  strip s.pilotPos (equalize s.pilotPos s.consts.pilotValue aq (s.loopedRow m))

theorem loopedData_eq_map (hs : s.GridValid) (aq : Bool) (m : Nat) :
    s.loopedData aq m = s.setD.map fun k =>
      Cplx.nth (equalize s.pilotPos s.consts.pilotValue aq (s.loopedRow m)) (rowPos s.edgeLo s.center k) :=
  hs.strip_eq_map (by rw [equalize_length, loopedRow_length])

theorem State.GridValid.setD_length (hs : s.GridValid) : s.setD.length = s.sizeND := by
  obtain ⟨-, -, -, -, -, hlength⟩ := activeCarrierSets s hs
  exact hlength

theorem loopedData_length (hs : s.GridValid) (aq : Bool) (m : Nat) : (s.loopedData aq m).length = s.sizeND := by
  rw [loopedData_eq_map hs, List.length_map, hs.setD_length]

/-- The data of row `r + 1` is block `r` of the padded payload (42_modulator.md R131 to R133). -/
theorem loopedData_nth_val (ρ : Nat → ℝ) (hs : s.GridValid) (hallowed : s.consts.Allowed) (hsix : s.symbolCount = 6)
    (hr : r < 5) (hi : i < s.sizeND) :
    (Cplx.nth (s.loopedData aq (r + 1)) i).val ρ =
      if aq then (s.paddedPay (r * s.sizeND + i)).val ρ
      else (s.consts.txAmplitude.val ρ : ℂ) * (s.paddedPay (r * s.sizeND + i)).val ρ := by
  have hm : r + 1 < s.symbolCount := by omega
  have hdata : (r + 1) % 6 ≠ 0 := by omega
  have hblock : dataRowOf (r + 1) = r := by
    rw [dataRowOf]
    omega
  obtain ⟨k, hk⟩ : ∃ k, s.setD[i]? = some k := ⟨_, List.getElem?_eq_getElem (hs.setD_length ▸ hi)⟩
  obtain ⟨hA, hp⟩ := mem_dataSet.mp (List.mem_of_getElem? hk)
  have hvalue := loopedRow_nth_val ρ hs hm hA
  rw [gridRow_data hdata, dataRow_data hp s.setD_nodup hk, hblock] at hvalue
  have hpos : rowPos s.edgeLo s.center k < (s.loopedRow (r + 1)).length := by
    obtain ⟨hlt, -⟩ := List.getElem?_eq_some_iff.mp (hs.setA_getElem?_iff.mpr ⟨hA, rfl⟩)
    rwa [loopedRow_length]
  rw [Cplx.nth, List.getD, loopedData_eq_map hs, List.getElem?_map, hk]
  exact equalize_of_scaled_pilots aq (hallowed.amplitude ρ) hs.pilotPos_ne_nil (hallowed.pilot ρ)
    (loopedRow_pilot_val ρ hs hm hdata) hpos hvalue

/-! ## The command on the round trip -/

/-- The sequence that `DEMOD` writes: the five data rows one after the other. -/
def State.loopedStream (s : State) (aq : Bool) : List Cplx :=
  ((List.range 5).map fun r => s.loopedData aq (r + 1)).flatten

theorem looped_recovered (s : State) (aq : Bool) :
    s.looped.recovered false true aq true false false (s.looped.rawRows false true) = s.loopedStream aq := by
  rw [looped_rawRows, State.recovered, List.map_map]
  rfl

theorem loopedStream_width (hs : s.GridValid) (aq : Bool) :
    ∀ h ∈ (List.range 5).map fun r => s.loopedData aq (r + 1), h.length = s.sizeND := by
  intro h hh
  obtain ⟨r, -, rfl⟩ := List.mem_map.mp hh
  exact loopedData_length hs aq _

theorem loopedStream_length (hs : s.GridValid) (aq : Bool) : (s.loopedStream aq).length = 5 * s.sizeND := by
  rw [State.loopedStream, flatten_length_of_width (loopedStream_width hs aq), List.length_map, List.length_range]

/-- What is recovered is the padded payload, times `AMP` without the amplitude correction. -/
theorem loopedStream_nth_val (ρ : Nat → ℝ) (hs : s.GridValid) (hallowed : s.consts.Allowed) (hsix : s.symbolCount = 6)
    (hi : i < 5 * s.sizeND) :
    (Cplx.nth (s.loopedStream aq) i).val ρ =
      if aq then (s.paddedPay i).val ρ else (s.consts.txAmplitude.val ρ : ℂ) * (s.paddedPay i).val ρ := by
  have hnd : 0 < s.sizeND := by omega
  have hr : i / s.sizeND < 5 := Nat.div_lt_of_lt_mul (by rwa [Nat.mul_comm])
  have hp : i % s.sizeND < s.sizeND := Nat.mod_lt _ hnd
  have hsplit : i / s.sizeND * s.sizeND + i % s.sizeND = i := Nat.div_add_mod' i s.sizeND
  have hrow : ((List.range 5).map fun r => s.loopedData aq (r + 1))[i / s.sizeND]? =
      some (s.loopedData aq (i / s.sizeND + 1)) := by
    rw [List.getElem?_map, List.getElem?_range hr, Option.map_some]
  have hat : Cplx.nth (s.loopedStream aq) i = Cplx.nth (s.loopedData aq (i / s.sizeND + 1)) (i % s.sizeND) := by
    have hget := flatten_getElem?_of_width (loopedStream_width hs aq) hrow hp
    rw [hsplit] at hget
    rw [Cplx.nth, Cplx.nth, List.getD, List.getD, State.loopedStream, hget]
  rw [hat, loopedData_nth_val ρ hs hallowed hsix hr hp, hsplit]

/-- `DEMOD` with `XS`, `EQ` and `PS` completes on the round trip, with or without `AQ`. -/
theorem exec_demod_looped (hs : s.Inv) (hc : s.cfgv = true) (hsix : s.symbolCount = 6)
    (htxo : s.symbolCount * s.period ≤ s.params.capTxo) (hrxb : s.symbolCount * s.period ≤ s.params.capRxb)
    (hbnd : 6 ≤ s.params.capBnd) (hsym : 5 * s.sizeND ≤ s.params.capSym) :
    exec (.demod false true true aq true false false) s.looped =
      .next (s.looped.writeSym (s.loopedStream aq) s.sizeND) := by
  have hv := hs.grid hc
  obtain ⟨-, hcap, -⟩ := hs.caps
  have hrx := looped_rxLen (s := s) (by omega)
  have hin : ∀ b ∈ usedBoundaries true s.looped.bounds, b + s.looped.period ≤ s.looped.rxLen := by
    rw [looped_used, hrx, hsix]
    simp only [List.forall_mem_map, List.mem_range]
    intro r hr
    calc (r + 1) * s.period + s.period = (r + 2) * s.period := (Nat.succ_mul _ _).symm
      _ ≤ 6 * s.period := Nat.mul_le_mul_right _ (by omega)
  have hnone : firstZeroAmp RNum.lt s.looped.pilotPos (s.looped.rawRows false true) = none := by
    rw [looped_rawRows, looped_pilotPos]
    refine firstZeroAmp_eq_none exactLt_lt ?_
    simp only [List.forall_mem_map, List.mem_range]
    exact fun r hr => loopedRow_no_zeroAmp _ hv hs.consts (by omega) (by omega)
  have hfit : (s.looped.recovered false true aq true false false (s.looped.rawRows false true)).length ≤
      s.looped.params.capSym := by
    rw [looped_recovered, loopedStream_length hv]
    exact hsym
  rw [exec_demod_of_checks (s := s.looped) hc (hrx.trans_le hrxb) hbnd (fun _ => ⟨rfl, hv.count⟩) hin,
    demodRows_of_fits (fun _ => hnone) hfit, looped_recovered]
  rfl

theorem looped_holds (hs : s.Inv) (hc : s.cfgv = true) (hsym : 5 * s.sizeND ≤ s.params.capSym) {cols : Nat} :
    Holds (s.looped.writeSym (s.loopedStream aq) cols) .sym (5 * s.sizeND) fun i =>
      .cplx (Cplx.nth (s.loopedStream aq) i) := by
  obtain ⟨-, -, -, -, hcap, -⟩ := hs.caps
  rw [← loopedStream_length (hs.grid hc) aq] at hsym ⊢
  exact writeSym_holds (by omega) hsym

/-- The round trip, with or without the amplitude correction. -/
theorem roundTrip (aq : Bool) {s1 s2 : State} (hs : s.Inv) (hc : s.cfgv = true) (hnd : 0 < s.sizeND)
    (hpay : s.payLen = s.sizeND) (hmod : exec (.mod true) s = .next s1) (herr : s1.err = false)
    (hrxb : s1.bufLen .txo ≤ s1.params.capRxb) (hbnd : 6 ≤ s1.params.capBnd) (hsym : 5 * s.sizeND ≤ s1.params.capSym)
    (hs2 : s2 = { s1 with
      mem := { s1.mem with rxb := s1.mem.txo, bnd := .ofList (tabulate 6 fun k => k * s1.period) }
      len := { s1.len with rxb := s1.len.txo, bnd := 6#32 } }) :
    ∃ (t : State) (f : Nat → Cplx), exec (.demod false true true aq true false false) s2 = .next t ∧
      t.err = false ∧ Holds t .sym (5 * s.sizeND) (fun i => .cplx (f i)) ∧
      ∀ (ρ : Nat → ℝ) (i : Nat), i < 5 * s.sizeND → (f i).val ρ =
        if aq then (s.paddedPay i).val ρ else (s.consts.txAmplitude.val ρ : ℂ) * (s.paddedPay i).val ρ := by
  have hv := hs.grid hc
  have hsix := symbolCount_of_one_block hnd hpay
  obtain ⟨c, v, rfl⟩ | ⟨-, -, htxo, rfl⟩ := execMod_cases hmod
  · exact absurd herr (by simp)
  obtain rfl : s2 = s.looped := hs2
  obtain ⟨hlength, -⟩ := writeTxo_holds_frame (rows := 1) (cols := s.symbolCount * s.period) hs htxo
  exact ⟨_, Cplx.nth (s.loopedStream aq),
    exec_demod_looped hs hc hsix htxo (hlength.symm.trans_le hrxb) hbnd hsym, herr, looped_holds hs hc hsym,
    fun ρ i hi => loopedStream_nth_val ρ hv hs.consts hsix hi⟩

/-- The padded payload is the payload, followed by zeros. -/
theorem paddedPay_val (ρ : Nat → ℝ) (s : State) (i : Nat) :
    (s.paddedPay i).val ρ = if i < s.payLen then (s.payAt i).val ρ else 0 := by
  rw [State.paddedPay]
  split_ifs
  · rfl
  · exact Cplx.val_zero ρ

/-- Settles O59: the round trip without the amplitude correction. -/
theorem roundTripUpToAmplitude : Obligations.RoundTripUpToAmplitude := by
  intro ρ s s1 s2 hs hc hnd hpay hmod herr hrxb hbnd hsym hs2
  obtain ⟨t, f, hexec, hok, hholds, hvalue⟩ := roundTrip false hs hc hnd hpay hmod herr hrxb hbnd hsym hs2
  refine ⟨t, f, hexec, hok, hholds, fun i hi => ?_⟩
  rw [hvalue ρ i hi, if_neg Bool.false_ne_true, paddedPay_val, hpay, mul_ite, mul_zero]

/-- Settles O60: the round trip with the amplitude correction. -/
theorem roundTripRecoversPayload : Obligations.RoundTripRecoversPayload := by
  intro s s1 s2 hs hc hnd hpay hmod herr hrxb hbnd hsym hs2
  obtain ⟨t, f, hexec, hok, hholds, hvalue⟩ := roundTrip true hs hc hnd hpay hmod herr hrxb hbnd hsym hs2
  refine ⟨t, f, hexec, hok, hholds, fun ρ i hi => ?_⟩
  rw [hvalue ρ i hi, if_pos rfl, paddedPay_val, hpay]

end Sys2Proof.Machine
end

section
/-! PROOFS. Fault entry, and the commands that need a record where there is none (60_exceptions.md R220, R224, R226). -/

namespace Sys2Proof.Machine

open Sys2Proof

variable {s : State} {i : Instr}

/-! ## Fault entry (60_exceptions.md R224) -/

/-- Fault entry sets bit 1 of `STATUS`, which is `ERR`, and no other. -/
theorem raise_status_getLsbD (s : State) (c : Cause) (info : Word) {k : Nat} (hk : k ≠ 1) :
    (s.raise c info).status.getLsbD k = s.status.getLsbD k := by
  rw [State.raise_status, setErr_getLsbD, decide_eq_false hk, Bool.or_false]

theorem readCsr_cause (s : State) : s.readCsr 0x01 = .word s.cause := rfl

theorem readCsr_info (s : State) : s.readCsr 0x02 = .word s.info := rfl

/-- Settles O4: bit 1 of `STATUS` is set, `CAUSE` reads as one of the eight codes, and `raise_frame` is the frame. -/
theorem faultEntryIsPrecise : Obligations.FaultEntryIsPrecise := by
  intro s c info
  refine ⟨State.raise_err c info, State.raise_cfgv c info, State.raise_detf c info,
    fun k hk => raise_status_getLsbD s c info hk, ?_, ?_, raise_frame s c info⟩
  · rw [readCsr_info, State.raise_info]
  · rw [readCsr_cause, State.raise_cause]
    cases c <;> rfl

/-! ## The commands that need a record (60_exceptions.md R220, R226 (3)) -/

/-- The commands that need a GridParameters record: all but `CFG`, `ZCGEN` and `PSSGEN` (R220). -/
def needsRecord : Instr → Bool
  | .cfg .. | .zcgen .. | .pssgen .. => false
  | .mod .. | .synccp | .syncpss .. | .cfoest | .cforot | .cfocorr | .demod .. => true

theorem timingChecks_not {go : Outcome} (hc : s.cfgv = false) :
    s.timingChecks i go = .next (s.raise .notConfigured (encode i)) := State.whenConfigured_not hc

theorem cfoChecks_not {go : Outcome} (hc : s.cfgv = false) :
    s.cfoChecks i go = .next (s.raise .notConfigured (encode i)) := State.whenConfigured_not hc

/-- The record is the first thing that a command which needs one checks. -/
theorem exec_of_not_configured (hc : s.cfgv = false) (hi : needsRecord i = true) :
    exec i s = .next (s.raise .notConfigured (encode i)) := by
  cases i with
  | cfg | zcgen | pssgen => cases hi
  | mod | demod => exact State.whenConfigured_not hc
  | synccp | syncpss => exact timingChecks_not hc
  | cfoest | cforot | cfocorr => exact cfoChecks_not hc

theorem encode_mod (flat : Bool) : encode (.mod flat) = if flat then 0x00000104#32 else 0x00000004#32 := by
  cases flat <;> decide

theorem encode_syncpss (th : Bool) : encode (.syncpss th) = if th then 0x00000106#32 else 0x00000006#32 := by
  cases th <;> decide

/-- Settles O5: each command raises `NotConfigured` with its own encoding, and the words written out are those. -/
theorem unconfiguredCommandsRaise : Obligations.UnconfiguredCommandsRaise := by
  intro s hc
  refine ⟨fun flat => ?_, exec_of_not_configured hc rfl, fun th => ?_, exec_of_not_configured hc rfl,
    exec_of_not_configured hc rfl, exec_of_not_configured hc rfl, fun _ _ _ _ _ _ _ => exec_of_not_configured hc rfl⟩
  · rw [exec_of_not_configured hc rfl, encode_mod]
  · rw [exec_of_not_configured hc rfl, encode_syncpss]

end Sys2Proof.Machine
end

section
/-! PROOFS. Reset: the state that the reset event leaves, as the host reads it, and the invariant right after reset
(70_reset_and_hazards.md R250, R251). -/

namespace Sys2Proof.Machine

open Sys2Proof

variable {s : State} {rest : List HostEvent}

/-! ## The flags (10_state.md R26) -/

theorem reset_cfgv : State.reset.cfgv = false := BitVec.getLsbD_zero

theorem reset_err : State.reset.err = false := BitVec.getLsbD_zero

theorem reset_detf : State.reset.detf = false := BitVec.getLsbD_zero

/-! ## The reset event (R250) -/

/-- The reset input has a next state, whatever the machine was in. -/
theorem step_reset (h : s.host = .reset :: rest) : step s = .next (s.advance rest).hostReset := step_cons h

/-- The constants of the hardware are registers 0x0C to 0x0F and no other (10_state.md R25). -/
theorem readCsr_with_consts (s : State) (c : Constants) {no : Nat} (h : ¬ (0x0C ≤ no ∧ no ≤ 0x0F)) :
    State.readCsr { s with consts := c } no = s.readCsr no := by
  simp only [State.readCsr]
  split <;> first | rfl | omega

/-- Every register but the constants is at its reset value. -/
theorem readCsr_hostReset (s : State) {no : Nat} (h : ¬ (0x0C ≤ no ∧ no ≤ 0x0F)) :
    s.hostReset.readCsr no = State.reset.readCsr no := readCsr_with_consts State.reset s.consts h

/-- The constants are what they were (10_state.md R31). -/
theorem readCsr_hostReset_const (s : State) {no : Nat} (hlo : 0x0C ≤ no) (hhi : no ≤ 0x0F) :
    s.hostReset.readCsr no = s.readCsr no := by
  interval_cases no <;> rfl

/-- No element of a buffer has a value after the reset event: every length register is 0. -/
theorem readBuf_hostReset (s : State) (b : BufName) (i : Nat) : s.hostReset.readBuf b i = none := by
  have hlen : s.hostReset.bufLen b = 0 := reset_bufLen b
  rw [State.readBuf, hlen, if_neg (by omega)]

/-- Settles O2: the reset event leaves `hostReset`, whose registers are those of `State.reset` but for the constants. -/
theorem resetEventRestoresResetState : Obligations.ResetEventRestoresResetState := by
  intro s rest h
  exact ⟨(s.advance rest).hostReset, step_reset h, reset_cfgv, reset_err, reset_detf, fun _ => readCsr_hostReset _,
    fun _ => readCsr_hostReset_const (s.advance rest), readBuf_hostReset _, rfl, rfl⟩

/-! ## The invariant right after reset (R251) -/

/-- Every capacity is below 2^31 (00_scope.md R8). -/
theorem reset_caps : State.reset.params.capPay < 2 ^ 31 ∧ State.reset.params.capTxo < 2 ^ 31 ∧
    State.reset.params.capRxb < 2 ^ 31 ∧ State.reset.params.capBnd < 2 ^ 31 ∧ State.reset.params.capSym < 2 ^ 31 ∧
    State.reset.params.capSeq < 2 ^ 31 ∧ State.reset.params.capPil < 2 ^ 31 := by
  have hseq : Config.capSeqExcess.val + 63 < 2 ^ 31 := by omega
  have hpil : Config.capPilExcess.val + 204 < 2 ^ 31 := by omega
  exact ⟨Config.capPay.isLt, Config.capTxo.isLt, Config.capRxb.isLt, Config.capBnd.isLt, Config.capSym.isLt, hseq, hpil⟩

/-- The OPEN parameters meet the constraints of 00_scope.md R6, whatever their values. -/
theorem reset_consts_allowed : State.reset.consts.Allowed where
  pilot := Config.pilotValue_ne_zero
  amplitude := Config.txAmplitude_pos
  root := by
    have hroot : State.reset.consts.syncRoot.toNat = Config.syncRoot.toNat :=
      BitVec.toNat_setWidth_of_le (by decide)
    rw [hroot]
    exact Config.syncRoot.isLt
  spacing := rfl

/-- Settles O11: the parameters meet their constraints, `STATUS` and `CTRL` are 0, every buffer is empty. -/
theorem invariantHoldsAtReset : Obligations.InvariantHoldsAtReset where
  caps := reset_caps
  least := ⟨Nat.le_add_left _ _, Nat.le_add_left _ _⟩
  consts := reset_consts_allowed
  mem := reset_mem_wf
  status := BitVec.zero_and
  ctrl := BitVec.zero_and
  noFault := fun _ => ⟨rfl, rfl⟩
  fault := fun h => absurd h (ne_true_of_eq_false reset_err)
  grid := fun h => absurd h (ne_true_of_eq_false reset_cfgv)
  gridReset := fun _ => rfl
  txo := rfl
  scr := rfl
  sym := rfl
  seq := rfl
  pil := rfl
  shape := rfl

end Sys2Proof.Machine
end
